-- ==== Sys2Proof/Word.lean ====
section
/-! DEFINITION. The word types of the core: bytes, byte sequences, status registers, command words, buffer numbers. -/

namespace Sys2Proof

/-- An unsigned byte, 0..255 (00_scope.md R8). -/
abbrev Byte := BitVec 8

/-- A byte sequence: the value of a present buffer register (00_scope.md R6, R11). -/
abbrev Bytes := List Byte

/-- A status register's value, 32 bits (10_state.md R25). -/
abbrev Word := BitVec 32

/-- A command word `CW`, 64 bits, LSB-0 numbering (00_scope.md R7; 30_encoding.md R70). -/
abbrev CW := BitVec 64

/-- The number of a buffer register, `B0` to `B15` (10_state.md R21). -/
abbrev BufIx := Fin 16

/-- What a buffer register holds: `none` is `ABSENT`, a byte sequence otherwise. An empty sequence is present
(10_state.md R21). -/
abbrev Buffer := Option Bytes

end Sys2Proof
end

