-- ==== Sys2Proof/Machine/Bits.lean ====
section
/-! DEFINITION. Bit strings: the MSB-first bit numbering of a buffer and the primitives of the spec's pseudocode
(00_scope.md R6, R9). -/

namespace Sys2Proof.Machine

/-- `ceil8(n)`: the bytes that hold `n` bits (00_scope.md R9). -/
def ceil8 (n : Nat) : Nat := (n + 7) / 8

/-- `zeros(n)`: `n` bytes of value 0 (00_scope.md R9). -/
def zeros (n : Nat) : Bytes := List.replicate n 0

/-- `bit(b, p)`: bit `p` of `b` is bit `7 - p mod 8` of byte `p div 8` (00_scope.md R6, R9). The spec defines it for
`p < 8 * len(b)` only, and every caller checks that first (log entry 8). -/
def bit (b : Bytes) (p : Nat) : Bool := (b.getD (p / 8) 0).getLsbD (7 - p % 8)

/-- `MemRead(b, p, n)`: the bits `p` to `p + n - 1` (00_scope.md R9). -/
def memRead (b : Bytes) (p n : Nat) : List Bool := (List.range n).map fun i => bit b (p + i)

/-- A byte with bit `k` (LSB-0) set to `v`. -/
def byteSetBit (x : Byte) (k : Nat) (v : Bool) : Byte :=
  if v then x ||| (1#8 <<< k) else x &&& ~~~(1#8 <<< k)

/-- `MemWrite(b, p, v)`: `b` with bit `p` set to `v` and every other bit unchanged (00_scope.md R9). -/
def memWrite (b : Bytes) (p : Nat) (v : Bool) : Bytes :=
  b.modify (p / 8) fun x => byteSetBit x (7 - p % 8) v

/-- Writes the bits `vs` from position `p` on, one after the other (the loop of 41_bitops.md R110). -/
def memWriteRange (b : Bytes) (p : Nat) : List Bool → Bytes
  | [] => b
  | v :: vs => memWriteRange (memWrite b p v) (p + 1) vs

/-- The byte whose bits, most significant first, are the first eight of `l`, with 0 where `l` is shorter. -/
def byteOfBits (l : List Bool) : Byte :=
  BitVec.ofNat 8 ((List.range 8).foldl (fun n i => 2 * n + (l.getD i false).toNat) 0)

/-- The bytes of a bit list, `n` of them, eight bits a byte. -/
def packBytes : Nat → List Bool → Bytes
  | 0, _ => []
  | n + 1, l => byteOfBits (l.take 8) :: packBytes n (l.drop 8)

/-- `pack(L)`: the bits of `L` left-packed into `ceil8(len L)` bytes, trailing bits 0 (00_scope.md R9). -/
def pack (l : List Bool) : Bytes := packBytes (ceil8 l.length) l

end Sys2Proof.Machine
end

