-- ==== Sys2Proof/Syntax.lean ====
section
/-! DEFINITION. The commands of the core, one constructor per row of spec/opcode_table.json, with their operand
types, and the interactions of the host. -/

namespace Sys2Proof

/-- The six fixed permutation tables that PERM selects (30_encoding.md R79; 42_permutation.md R151). -/
inductive PermTable where
  | ip | fp | e | p | pc1 | pc2
deriving DecidableEq, Repr

/-- The eight S-boxes S1 to S8 (30_encoding.md R79; 42_permutation.md R166). -/
inductive Box where
  | s1 | s2 | s3 | s4 | s5 | s6 | s7 | s8
deriving DecidableEq, Repr

/-- The cipher strategy, a two-valued tag (10_state.md R29; 30_encoding.md R79). -/
inductive Strategy where
  | encrypt | decrypt
deriving DecidableEq, Repr

/-- The assigned opcodes by name (30_encoding.md R74). -/
inductive Op where
  | getbit | setbit | extend | xor | getbits | setbits | rotl | separate | concat | tostring
  | perm | permt | sbox
  | subkeys | worker | rdkey
  | ffunc | round | transform
deriving DecidableEq, Repr

/-- The commands (30_encoding.md R72). Buffer operands are register numbers, immediates are the integers the
command word's 12-bit fields stand for (R73), selectors are the names of R79. -/
inductive Instr where
  | getbit (ra : BufIx) (position : Int)
  | setbit (rd : BufIx) (position value : Int)
  | extend (rd ra : BufIx) (newLength : Int)
  | xor (rd ra rb : BufIx)
  | getbits (rd ra : BufIx) (start count : Int)
  | setbits (rd ra : BufIx) (destStart srcStart count : Int)
  | rotl (rd ra : BufIx) (len shift : Int)
  | separate (rd ra : BufIx) (groupSize : Int)
  | concat (rd ra rb : BufIx) (firstCount secondCount : Int)
  | tostring (rd ra : BufIx)
  | perm (rd ra : BufIx) (table : PermTable)
  | permt (rd ra rb : BufIx)
  | sbox (rd ra : BufIx) (box : Box)
  | subkeys (ra : BufIx)
  | worker (ra : BufIx) (strategy : Strategy)
  | rdkey (rd : BufIx) (round : Int)
  | ffunc (rd ra rb : BufIx)
  | round (rd ra rb : BufIx)
  | transform (rd ra : BufIx)
deriving DecidableEq, Repr

/-- The opcode name of a command. -/
def Instr.op : Instr → Op
  | .getbit .. => .getbit
  | .setbit .. => .setbit
  | .extend .. => .extend
  | .xor .. => .xor
  | .getbits .. => .getbits
  | .setbits .. => .setbits
  | .rotl .. => .rotl
  | .separate .. => .separate
  | .concat .. => .concat
  | .tostring .. => .tostring
  | .perm .. => .perm
  | .permt .. => .permt
  | .sbox .. => .sbox
  | .subkeys .. => .subkeys
  | .worker .. => .worker
  | .rdkey .. => .rdkey
  | .ffunc .. => .ffunc
  | .round .. => .round
  | .transform .. => .transform

/-- One interaction the host asks for (60_exceptions.md R250). Buffer indexes are plain numbers, so that an index
outside 0..15 can be asked for and refused. -/
inductive Interaction where
  | issue (cw : CW)
  | writeBuf (i : Nat) (v : Bytes)
  | clearBuf (i : Nat)
  | readBuf (i : Nat)
  | readReg (n : Word)
  | reset
deriving DecidableEq, Repr

/-- The immediates of a command, in the order `I1`, `I2`, `I3` (30_encoding.md R72). -/
def Instr.immediates : Instr → List Int
  | .getbit _ p => [p]
  | .setbit _ p v => [p, v]
  | .extend _ _ n => [n]
  | .xor _ _ _ => []
  | .getbits _ _ s n => [s, n]
  | .setbits _ _ ds ss n => [ds, ss, n]
  | .rotl _ _ l sh => [l, sh]
  | .separate _ _ g => [g]
  | .concat _ _ _ na nc => [na, nc]
  | .tostring _ _ => []
  | .perm _ _ _ => []
  | .permt _ _ _ => []
  | .sbox _ _ _ => []
  | .subkeys _ => []
  | .worker _ _ => []
  | .rdkey _ r => [r]
  | .ffunc _ _ _ => []
  | .round _ _ _ => []
  | .transform _ _ => []

end Sys2Proof
end

