-- ==== Sys2Proof/Config.lean ====
section
/-! DEFINITION. What is fixed for a run and no state of the core (10_state.md R33): the parameters `BUF_CAP` and
`TOSTRING_FMT` (00_scope.md R5, D4, D28) and the host's program. The constant tables are in Machine/Tables.lean. -/

namespace Sys2Proof.Config

/-- How far `BUF_CAP` exceeds its least legal value. A free value: it has no body, so no proof can learn it
(log entry 1, DESIGN CHOICE, safe). -/
opaque bufCapSurplus : Nat

/-- The smallest `BUF_CAP` a model may take (00_scope.md R5: "a model must take `BUF_CAP >= 512`"). -/
def bufCapLeast : Nat := 512

/-- `BUF_CAP`, the largest buffer length in bytes: any value from 512 up (00_scope.md R5; 10_state.md R21). -/
def bufCap : Nat := bufCapSurplus + bufCapLeast

/-- What `TOSTRING_FMT` names: the character codes, the order of the bits in a group, whether a separator stands before
the first and after the last group, and the text of an empty buffer. That each bit has one character and that one
separator stands between bytes is not part of it (41_bitops.md R118). The fields' default values are the spec's
default format (R118, D28). -/
structure TostringFmt where
  zero : Byte := 0x30
  one : Byte := 0x31
  separator : Byte := 0x20
  msbFirst : Bool := true
  leading : Bool := false
  trailing : Bool := false
  empty : Bytes := []
deriving DecidableEq, Repr, Inhabited

/-- `TOSTRING_FMT`, taken as a parameter (93_implementation_defined.md U19). A free value: it has no body, so no proof can
learn it (log entry 2, DESIGN CHOICE, safe). -/
opaque tostringFmt : TostringFmt

/-- The spec's default `TOSTRING_FMT` (41_bitops.md R118). -/
def specFmt : TostringFmt := {}

/-- The host's program: its interactions with the core, in the order it issues them, fixed for a run (10_state.md R33;
60_exceptions.md R252). A free value: it has no body, so what is proved of a run holds for every program (log entry 3). -/
opaque hostProgram : List Interaction

end Sys2Proof.Config
end

