-- ==== Sys2Proof/WellFormed.lean ====
section
/-! DEFINITION. Which commands have a command word: every immediate fits its 12-bit field. -/

namespace Sys2Proof

/-- An integer that a 12-bit two's-complement immediate can hold, -2048..2047 (30_encoding.md R73). -/
def immInRange (v : Int) : Bool := decide (-2048 ≤ v) && decide (v ≤ 2047)

/-- A well-formed command: each of its immediates is in range. Register numbers and selectors are legal by their
types (30_encoding.md R73, R79). -/
def Instr.wellFormed (i : Instr) : Bool := i.immediates.all immInRange

end Sys2Proof
end

