-- ==== Sys2Proof/Decode.lean ====
section
/-! DEFINITION. The decoder of command words (total, rejecting by name), the encoder, and the big-endian byte form of
a command word (30_encoding.md R70 to R79; 20_memory.md R52). -/

namespace Sys2Proof

/-- Why a command word is illegal (30_encoding.md R75, its cases 1 to 4), or a byte form is no command word. -/
inductive DecodeReject where
  /-- `OPC` is unassigned (R75 case 1). -/
  | unassignedOpcode
  /-- `RSV` is not 0 (R75 case 2). -/
  | reservedNonzero
  /-- A field unused by the command is not 0 (R75 case 3). -/
  | unusedFieldNonzero
  /-- `SEL` is outside the command's legal values (R75 case 4, R79). -/
  | illegalSelector
  /-- A byte form with fewer than the eight bytes of a command word (20_memory.md R52). -/
  | truncated
deriving DecidableEq, Repr

/-- The nine fields of a command word, each as an unsigned number (30_encoding.md R71). -/
structure Fields where
  opc : Nat := 0
  rd : Nat := 0
  ra : Nat := 0
  rb : Nat := 0
  sel : Nat := 0
  rsv : Nat := 0
  i1 : Nat := 0
  i2 : Nat := 0
  i3 : Nat := 0
deriving DecidableEq, Repr

/-- `CW[lo+width-1 : lo]` as an unsigned number (00_scope.md R7, R9). -/
def cwField (cw : CW) (lo width : Nat) : Nat := cw.toNat / 2 ^ lo % 2 ^ width

/-- The fields of a command word (30_encoding.md R71). -/
def fieldsOf (cw : CW) : Fields where
  opc := cwField cw 56 8
  rd := cwField cw 52 4
  ra := cwField cw 48 4
  rb := cwField cw 44 4
  sel := cwField cw 40 4
  rsv := cwField cw 36 4
  i1 := cwField cw 24 12
  i2 := cwField cw 12 12
  i3 := cwField cw 0 12

/-- The command word with given fields: the formula of 30_encoding.md R71, its shifts written as products. -/
def Fields.word (f : Fields) : CW :=
  BitVec.ofNat 64 (f.opc * 2 ^ 56 + f.rd * 2 ^ 52 + f.ra * 2 ^ 48 + f.rb * 2 ^ 44 + f.sel * 2 ^ 40
    + f.rsv * 2 ^ 36 + f.i1 * 2 ^ 24 + f.i2 * 2 ^ 12 + f.i3)

/-- `sext_12(v)`: the integer whose 12-bit two's-complement form is `v` (00_scope.md R9). -/
def sext12 (v : Nat) : Int := if v < 2048 then (v : Int) else (v : Int) - 4096

/-- The 12-bit two's-complement form of an integer: its value mod 4096 (30_encoding.md R73, R80). -/
def imm12 (v : Int) : Nat := (v % 4096).toNat

/-- The opcode map (30_encoding.md R74); `none` is an unassigned opcode. -/
def opOf (opc : Nat) : Option Op :=
  match opc with
  | 0x01 => some .getbit
  | 0x02 => some .setbit
  | 0x03 => some .extend
  | 0x04 => some .xor
  | 0x05 => some .getbits
  | 0x06 => some .setbits
  | 0x07 => some .rotl
  | 0x08 => some .separate
  | 0x09 => some .concat
  | 0x0A => some .tostring
  | 0x10 => some .perm
  | 0x11 => some .permt
  | 0x12 => some .sbox
  | 0x20 => some .subkeys
  | 0x21 => some .worker
  | 0x22 => some .rdkey
  | 0x30 => some .ffunc
  | 0x31 => some .round
  | 0x32 => some .transform
  | _ => none

/-- The opcode value of a command (30_encoding.md R72, R74). -/
def opcodeOf (op : Op) : Nat :=
  match op with
  | .getbit => 0x01
  | .setbit => 0x02
  | .extend => 0x03
  | .xor => 0x04
  | .getbits => 0x05
  | .setbits => 0x06
  | .rotl => 0x07
  | .separate => 0x08
  | .concat => 0x09
  | .tostring => 0x0A
  | .perm => 0x10
  | .permt => 0x11
  | .sbox => 0x12
  | .subkeys => 0x20
  | .worker => 0x21
  | .rdkey => 0x22
  | .ffunc => 0x30
  | .round => 0x31
  | .transform => 0x32

/-- The values, in a word with fields `f`, of the fields that R72 marks unused (`-`) for the command: the columns
`RD`, `RA`, `RB`, `SEL`, `I1`, `I2`, `I3` of its row that hold no operand (30_encoding.md R72). -/
def unusedFields (op : Op) (f : Fields) : List Nat :=
  match op with
  | .getbit => [f.rd, f.rb, f.sel, f.i2, f.i3]
  | .setbit => [f.ra, f.rb, f.sel, f.i3]
  | .extend => [f.rb, f.sel, f.i2, f.i3]
  | .xor => [f.sel, f.i1, f.i2, f.i3]
  | .getbits => [f.rb, f.sel, f.i3]
  | .setbits => [f.rb, f.sel]
  | .rotl => [f.rb, f.sel, f.i3]
  | .separate => [f.rb, f.sel, f.i2, f.i3]
  | .concat => [f.sel, f.i3]
  | .tostring => [f.rb, f.sel, f.i1, f.i2, f.i3]
  | .perm => [f.rb, f.i1, f.i2, f.i3]
  | .permt => [f.sel, f.i1, f.i2, f.i3]
  | .sbox => [f.rb, f.i1, f.i2, f.i3]
  | .subkeys => [f.rd, f.rb, f.sel, f.i1, f.i2, f.i3]
  | .worker => [f.rd, f.rb, f.i1, f.i2, f.i3]
  | .rdkey => [f.ra, f.rb, f.sel, f.i2, f.i3]
  | .ffunc => [f.sel, f.i1, f.i2, f.i3]
  | .round => [f.sel, f.i1, f.i2, f.i3]
  | .transform => [f.rb, f.sel, f.i1, f.i2, f.i3]

/-- The permutation table a `SEL` value names (30_encoding.md R79). -/
def permTableOf (sel : Nat) : Option PermTable :=
  match sel with
  | 0 => some .ip
  | 1 => some .fp
  | 2 => some .e
  | 3 => some .p
  | 4 => some .pc1
  | 5 => some .pc2
  | _ => none

/-- The `SEL` value of a permutation table (30_encoding.md R79). -/
def permTableSel (t : PermTable) : Nat :=
  match t with
  | .ip => 0
  | .fp => 1
  | .e => 2
  | .p => 3
  | .pc1 => 4
  | .pc2 => 5

/-- The S-box a `SEL` value names (30_encoding.md R79). -/
def boxOf (sel : Nat) : Option Box :=
  match sel with
  | 0 => some .s1
  | 1 => some .s2
  | 2 => some .s3
  | 3 => some .s4
  | 4 => some .s5
  | 5 => some .s6
  | 6 => some .s7
  | 7 => some .s8
  | _ => none

/-- The `SEL` value of an S-box (30_encoding.md R79). -/
def boxSel (k : Box) : Nat :=
  match k with
  | .s1 => 0
  | .s2 => 1
  | .s3 => 2
  | .s4 => 3
  | .s5 => 4
  | .s6 => 5
  | .s7 => 6
  | .s8 => 7

/-- The strategy a `SEL` value names (30_encoding.md R79). -/
def strategyOf (sel : Nat) : Option Strategy :=
  match sel with
  | 0 => some .encrypt
  | 1 => some .decrypt
  | _ => none

/-- The `SEL` value of a strategy (30_encoding.md R79). -/
def strategySel (t : Strategy) : Nat :=
  match t with
  | .encrypt => 0
  | .decrypt => 1

/-- The buffer register a 4-bit field names (30_encoding.md R73). -/
def bufIx (n : Nat) : BufIx := Fin.ofNat 16 n

/-- The command with opcode `op` whose operands are the fields `f`; `none` where `SEL` is outside the command's legal
values (30_encoding.md R72, R73, R79). -/
def buildInstr (op : Op) (f : Fields) : Option Instr :=
  match op with
  | .getbit => some (.getbit (bufIx f.ra) (sext12 f.i1))
  | .setbit => some (.setbit (bufIx f.rd) (sext12 f.i1) (sext12 f.i2))
  | .extend => some (.extend (bufIx f.rd) (bufIx f.ra) (sext12 f.i1))
  | .xor => some (.xor (bufIx f.rd) (bufIx f.ra) (bufIx f.rb))
  | .getbits => some (.getbits (bufIx f.rd) (bufIx f.ra) (sext12 f.i1) (sext12 f.i2))
  | .setbits => some (.setbits (bufIx f.rd) (bufIx f.ra) (sext12 f.i1) (sext12 f.i2) (sext12 f.i3))
  | .rotl => some (.rotl (bufIx f.rd) (bufIx f.ra) (sext12 f.i1) (sext12 f.i2))
  | .separate => some (.separate (bufIx f.rd) (bufIx f.ra) (sext12 f.i1))
  | .concat => some (.concat (bufIx f.rd) (bufIx f.ra) (bufIx f.rb) (sext12 f.i1) (sext12 f.i2))
  | .tostring => some (.tostring (bufIx f.rd) (bufIx f.ra))
  | .perm => (permTableOf f.sel).map (.perm (bufIx f.rd) (bufIx f.ra))
  | .permt => some (.permt (bufIx f.rd) (bufIx f.ra) (bufIx f.rb))
  | .sbox => (boxOf f.sel).map (.sbox (bufIx f.rd) (bufIx f.ra))
  | .subkeys => some (.subkeys (bufIx f.ra))
  | .worker => (strategyOf f.sel).map (.worker (bufIx f.ra))
  | .rdkey => some (.rdkey (bufIx f.rd) (sext12 f.i1))
  | .ffunc => some (.ffunc (bufIx f.rd) (bufIx f.ra) (bufIx f.rb))
  | .round => some (.round (bufIx f.rd) (bufIx f.ra) (bufIx f.rb))
  | .transform => some (.transform (bufIx f.rd) (bufIx f.ra))

/-- The decoder: the command a word stands for, or why the word is illegal (30_encoding.md R75). -/
def decode (cw : CW) : Except DecodeReject Instr :=
  match opOf (fieldsOf cw).opc with
  | none => .error .unassignedOpcode
  | some op =>
    if (fieldsOf cw).rsv ≠ 0 then .error .reservedNonzero
    else if (unusedFields op (fieldsOf cw)).any (· ≠ 0) then .error .unusedFieldNonzero
    else
      match buildInstr op (fieldsOf cw) with
      | none => .error .illegalSelector
      | some i => .ok i

/-- The big-endian number of a byte sequence: byte 0 is the most significant (20_memory.md R52). -/
def bigEndian (bs : Bytes) : Nat := bs.foldl (fun n b => 256 * n + b.toNat) 0

/-- The decoder on bytes: a command word is the first eight, byte 0 being `CW[63:56]` (20_memory.md R52; every word
is 64 bits, 30_encoding.md R78). It answers the command and the bytes after it. -/
def decodeBytes (bs : Bytes) : Except DecodeReject (Instr × Bytes) :=
  if bs.length < 8 then .error .truncated
  else
    match decode (BitVec.ofNat 64 (bigEndian (bs.take 8))) with
    | .error r => .error r
    | .ok i => .ok (i, bs.drop 8)

/-- The host's view of the decoder: the word's bits above `nbits` are 0. A command word is one 64-bit integer handed
to the core whole, so the table's numbering is `CW`'s own (00_scope.md R7; 20_memory.md R52). -/
def decodeTableWord (nbits w : Nat) : Option Instr :=
  match decode (BitVec.ofNat 64 (w % 2 ^ nbits)) with
  | .ok i => some i
  | .error _ => none

/-- The fields of a command's word: operands where R72 puts them, 0 elsewhere (30_encoding.md R72, R75). -/
def instrFields (i : Instr) : Fields :=
  match i with
  | .getbit ra p => { opc := opcodeOf .getbit, ra := ra, i1 := imm12 p }
  | .setbit rd p v => { opc := opcodeOf .setbit, rd := rd, i1 := imm12 p, i2 := imm12 v }
  | .extend rd ra n => { opc := opcodeOf .extend, rd := rd, ra := ra, i1 := imm12 n }
  | .xor rd ra rb => { opc := opcodeOf .xor, rd := rd, ra := ra, rb := rb }
  | .getbits rd ra s n => { opc := opcodeOf .getbits, rd := rd, ra := ra, i1 := imm12 s, i2 := imm12 n }
  | .setbits rd ra ds ss n => { opc := opcodeOf .setbits, rd := rd, ra := ra, i1 := imm12 ds, i2 := imm12 ss, i3 := imm12 n }
  | .rotl rd ra l sh => { opc := opcodeOf .rotl, rd := rd, ra := ra, i1 := imm12 l, i2 := imm12 sh }
  | .separate rd ra g => { opc := opcodeOf .separate, rd := rd, ra := ra, i1 := imm12 g }
  | .concat rd ra rb na nc => { opc := opcodeOf .concat, rd := rd, ra := ra, rb := rb, i1 := imm12 na, i2 := imm12 nc }
  | .tostring rd ra => { opc := opcodeOf .tostring, rd := rd, ra := ra }
  | .perm rd ra t => { opc := opcodeOf .perm, rd := rd, ra := ra, sel := permTableSel t }
  | .permt rd ra rb => { opc := opcodeOf .permt, rd := rd, ra := ra, rb := rb }
  | .sbox rd ra k => { opc := opcodeOf .sbox, rd := rd, ra := ra, sel := boxSel k }
  | .subkeys ra => { opc := opcodeOf .subkeys, ra := ra }
  | .worker ra t => { opc := opcodeOf .worker, ra := ra, sel := strategySel t }
  | .rdkey rd r => { opc := opcodeOf .rdkey, rd := rd, i1 := imm12 r }
  | .ffunc rd ra rb => { opc := opcodeOf .ffunc, rd := rd, ra := ra, rb := rb }
  | .round rd ra rb => { opc := opcodeOf .round, rd := rd, ra := ra, rb := rb }
  | .transform rd ra => { opc := opcodeOf .transform, rd := rd, ra := ra }

/-- The encoder: the command word of a command (30_encoding.md R71 to R74). -/
def encode (i : Instr) : CW := (instrFields i).word

/-- The command word as bytes, byte 0 being `CW[63:56]` (20_memory.md R52). -/
def wordBytes (cw : CW) : Bytes :=
  [56, 48, 40, 32, 24, 16, 8, 0].map fun lo => BitVec.ofNat 8 (cwField cw lo 8)

/-- A command's word as bytes (20_memory.md R52). -/
def encodeBytes (i : Instr) : Bytes := wordBytes (encode i)

end Sys2Proof
end

