-- ==== Sys2Proof/Machine/State.lean ====
section
/-! DEFINITION. The state of the core as plain data, its reset value, what the host gets back, and the reasons
a step could stop. -/

namespace Sys2Proof.Machine

/-- A fault with which a command of the core ends (60_exceptions.md R230). Taking one is a NEXT state of the machine
(R232), so this type is not the machine's `Fault`. -/
inductive CmdFault where
  /-- Code 1: an absent buffer, a bad count, length, value, shift, group size or round, an overlapping in-place copy. -/
  | invalidArgument
  /-- Code 2: a position, range, table entry or result outside its buffer. -/
  | outOfRange
  /-- Code 3: no round-key schedule. -/
  | invalidState
  /-- Code 4: an illegal command word. -/
  | illegalCommand
deriving DecidableEq, Repr

/-- What the host gets back from one interaction (60_exceptions.md R250). -/
inductive Reply where
  /-- The interaction was performed and returns no value. -/
  | nothing
  /-- `READBUF`: `ABSENT` or the bytes. -/
  | buffer (v : Buffer)
  /-- `READREG`: the register's value. -/
  | register (w : Word)
  /-- The interface refused the request and nothing changed. -/
  | refused
deriving DecidableEq, Repr

/-- The state of the core (10_state.md R21 to R30), and the host's side of its interface. -/
structure State where
  /-- `B0` .. `B15` (R21). -/
  bufs : Vector Buffer 16
  /-- `STATUS` (R26). -/
  status : Word
  /-- `RESULT` (R27). -/
  result : Word
  /-- `ERRFLAGS` (R28). -/
  errflags : Word
  /-- `CTX` (R29). -/
  ctx : Word
  /-- `KS[1]` .. `KS[16]`, entry `r` at index `r - 1` (R30). -/
  ks : Vector Buffer 16
  /-- The interaction put on the core's port from outside the host's program, if any: the next step performs it in the
  place of the program's own (10_state.md R23: the host hands the core one command word at a time; 60_exceptions.md R251;
  the model's own field, log entry 3). -/
  port : Option Interaction
  /-- What the host got back, newest first, one entry an interaction (the model's own field: 60_exceptions.md R250;
  log entry 3). The host waits for each (R251), so their number is the index of its next one. -/
  replies : List Reply
deriving DecidableEq, Repr

/-- Reasons for the machine to stop with a fault. There are none: every interaction returns (60_exceptions.md R252),
and a command's fault is a next state (R232). Safe: nothing is cut off. -/
inductive Fault where
deriving DecidableEq, Repr

/-- Reasons for the machine to refuse an instruction. -/
inductive Refusal where
  /-- Raised by `exec` for a command that has no meaning yet, by its mnemonic. Safe: the machine stops. Every command
  has a meaning, so no arm raises it. -/
  | notModelled (mnemonic : String)
deriving DecidableEq, Repr

/-- The core after reset and at power-on: every buffer and round key `ABSENT`, every register 0 (10_state.md R34;
70_reset_and_hazards.md R270). The port is empty and the host has got nothing back yet (log entries 3 and 4). -/
def State.reset : State where
  bufs := Vector.replicate 16 none
  status := 0
  result := 0
  errflags := 0
  ctx := 0
  ks := Vector.replicate 16 none
  port := none
  replies := []

end Sys2Proof.Machine
end

