-- ==== Sys2Proof/Machine/Flags.lean ====
section
/-! DEFINITION. The status registers `STATUS`, `RESULT`, `ERRFLAGS` and `CTX`: their fields, the fault codes, and the
host's numbered view of them (10_state.md R25 to R29; 60_exceptions.md R230, R232). -/

namespace Sys2Proof.Machine

/-- A fault's code in `STATUS.CODE` (10_state.md R26; 60_exceptions.md R230). -/
def CmdFault.code (e : CmdFault) : Nat :=
  match e with
  | .invalidArgument => 1
  | .outOfRange => 2
  | .invalidState => 3
  | .illegalCommand => 4

/-- A fault's bit of `ERRFLAGS`, `1 << (c - 1)` (10_state.md R28; 60_exceptions.md R232). -/
def CmdFault.flag (e : CmdFault) : Word := 1#32 <<< (e.code - 1)

/-- `STATUS.CODE`, bits [2:0] (10_state.md R26). -/
def State.code (s : State) : Nat := s.status.toNat % 8

/-- `STATUS.CODE <- c`; the reserved bits are hardwired 0 (10_state.md R26). -/
def State.setCode (s : State) (c : Nat) : State := { s with status := BitVec.ofNat 32 (c % 8) }

/-- `RESULT <- zext_32(v)`; bits [31:1] are always 0 (10_state.md R27; 41_bitops.md R100). -/
def State.setResult (s : State) (v : Bool) : State := { s with result := (BitVec.ofBool v).setWidth 32 }

/-- `ERRFLAGS <- ERRFLAGS | (1 << (c - 1))`: sticky, only ever set (10_state.md R28; 60_exceptions.md R232). -/
def State.setErrflag (s : State) (e : CmdFault) : State := { s with errflags := s.errflags ||| e.flag }

/-- `CTX.KSV`, bit 0: `KS` holds a schedule (10_state.md R29). -/
def State.ksv (s : State) : Bool := s.ctx.getLsbD 0

/-- `CTX.STRAT`, bit 1: 0 ENCRYPT, 1 DECRYPT (10_state.md R29). -/
def State.strat (s : State) : Strategy := if s.ctx.getLsbD 1 then .decrypt else .encrypt

/-- `CTX.KSV <- 1` (10_state.md R29). -/
def State.setKsv (s : State) : State := { s with ctx := s.ctx ||| 1#32 }

/-- `CTX.STRAT <- SEL` (10_state.md R29; 43_key_schedule.md R186). -/
def State.setStrat (s : State) (t : Strategy) : State :=
  match t with
  | .encrypt => { s with ctx := s.ctx &&& ~~~2#32 }
  | .decrypt => { s with ctx := s.ctx ||| 2#32 }

/-- The stored word of a status register by number (10_state.md R25). -/
def State.regWord (s : State) (n : Nat) : Word :=
  match n with
  | 0 => s.status
  | 1 => s.result
  | 2 => s.errflags
  | 3 => s.ctx
  | _ => 0

/-- The bits of a status register that are not reserved (10_state.md R26 to R29). -/
def regImplemented (n : Nat) : Word :=
  match n with
  | 0 => 0x7#32
  | 1 => 0x1#32
  | 2 => 0xF#32
  | 3 => 0x3#32
  | _ => 0

/-- `READREG(n)`: the register's value with its reserved bits hardwired 0; 0 for every number from 4 up
(10_state.md R25; 60_exceptions.md R250). -/
def State.readReg (s : State) (n : Word) : Word := s.regWord n.toNat &&& regImplemented n.toNat

end Sys2Proof.Machine
end

