-- ==== Sys2Proof/Machine/Ops.lean ====
section
/-! DEFINITION. The shared operations of the core: buffer registers and the round-key file, taking a fault, and the
five steps of a command (30_encoding.md R76; 60_exceptions.md R232). -/

namespace Sys2Proof.Machine

/-- `B[i]` (00_scope.md R9; 10_state.md R21). -/
def State.buf (s : State) (i : BufIx) : Buffer := s.bufs[i]

/-- `B[i] <- v`, or `B[i] <- ABSENT` (00_scope.md R9; 60_exceptions.md R250). -/
def State.setBuf (s : State) (i : BufIx) (v : Buffer) : State := { s with bufs := s.bufs.set i v }

/-- `KS[r]` for `r` in 1..16 (10_state.md R30). -/
def State.roundKey (s : State) (r : Nat) : Buffer := (s.ks[r - 1]?).getD none

/-- `[KS[1], ..., KS[16]] <- ks`: all sixteen entries at once (10_state.md R30; 43_key_schedule.md R184). -/
def State.setSchedule (s : State) (ks : List Bytes) : State :=
  { s with ks := Vector.ofFn fun r : Fin 16 => ks[r.val]? }

/-- TAKING A FAULT: `STATUS.CODE` gets the code and `ERRFLAGS` its bit; nothing else is written (60_exceptions.md
R232). There is no return from a fault: the next command runs as it would have (R235). -/
def State.raise (s : State) (e : CmdFault) : State := (s.setErrflag e).setCode e.code

/-- Whether a result of `n` bytes is longer than `BUF_CAP`. Up to 512 bytes it never is, whatever the `BUF_CAP`
(00_scope.md R5; 30_encoding.md R76 step 4). -/
def tooLong (n : Nat) : Bool := decide (Config.bufCapLeast < n) && decide (Config.bufCap < n)

/-- A buffer result: the check against `BUF_CAP`, then the write (30_encoding.md R76 steps 4 and 5). -/
def commitBuf (s : State) (rd : BufIx) (v : Bytes) : Except CmdFault State :=
  if tooLong v.length then .error .outOfRange else .ok (s.setBuf rd v)

/-- The end of a command whose rule gave `r`: the results committed and `STATUS.CODE <- 0`, or the fault taken in the
state before the command (30_encoding.md R76; 20_memory.md R55). -/
def finish (s : State) (r : Except CmdFault State) : Host.Outcome State Fault Refusal :=
  match r with
  | .ok t => .next (t.setCode 0)
  | .error e => .next (s.raise e)

end Sys2Proof.Machine
end

