-- ==== Sys2Proof/Machine/Operands.lean ====
section
/-! DEFINITION. Reading the operands of a command: the buffer operands `B[RA]`, `B[RB]`, `B[RD]` and the round keys
(30_encoding.md R76 step 2). Immediates reach the meanings as integers, sign-extended by the decoder (R73). -/

namespace Sys2Proof.Machine

/-- A source buffer; `ABSENT` raises InvalidArgument (60_exceptions.md R230). -/
def operand (s : State) (i : BufIx) : Except CmdFault Bytes :=
  match s.buf i with
  | some b => .ok b
  | none => .error .invalidArgument

/-- A round key as an operand. With `CTX.KSV = 1` every `KS[r]` holds a value in every state a run reaches; a missing
one raises InvalidState, the fault of a missing schedule (60_exceptions.md R230; log entry 7). -/
def roundKeyOperand (s : State) (r : Nat) : Except CmdFault Bytes :=
  match s.roundKey r with
  | some k => .ok k
  | none => .error .invalidState

/-- The schedule as an operand: InvalidState where `CTX.KSV = 0` (43_key_schedule.md R188; 44_feistel.md R204). -/
def requireSchedule (s : State) : Except CmdFault Unit :=
  if s.ksv then .ok () else .error .invalidState

/-- An operand of exactly `n` bytes; another length raises InvalidArgument (43_key_schedule.md R184; 44_feistel.md
R200, R202, R204). -/
def requireLength (b : Bytes) (n : Nat) : Except CmdFault Unit :=
  if b.length = n then .ok () else .error .invalidArgument

end Sys2Proof.Machine
end

