-- ==== Sys2Proof/Machine/BitOps.lean ====
section
/-! DEFINITION. BitOps: the bit-range extractor and setter (41_bitops.md). First the rules as functions of byte
sequences with their faults in check order (00_scope.md R10), then one meaning per command. -/

namespace Sys2Proof.Machine

/-- A bit position outside its buffer: negative, or in no byte of it (41_bitops.md R100). -/
def positionOutside (b : Bytes) (p : Int) : Bool := decide (p < 0) || decide ((b.length : Int) ≤ p / 8)

/-- A bit range that leaves its buffer (41_bitops.md R108, R110). -/
def rangeOutside (b : Bytes) (start count : Int) : Bool :=
  decide (start < 0) || decide (8 * (b.length : Int) < start + count)

/-- GETBIT's bit (41_bitops.md R100). -/
def getBitF (b : Bytes) (p : Int) : Except CmdFault Bool :=
  if positionOutside b p then .error .outOfRange else .ok (bit b p.toNat)

/-- SETBIT's buffer (41_bitops.md R102). -/
def setBitF (b : Bytes) (p v : Int) : Except CmdFault Bytes :=
  if v ≠ 0 ∧ v ≠ 1 then .error .invalidArgument
  else if positionOutside b p then .error .outOfRange
  else .ok (memWrite b p.toNat (decide (v = 1)))

/-- EXTEND's buffer (41_bitops.md R104). -/
def extendF (b : Bytes) (n : Int) : Except CmdFault Bytes :=
  if n ≤ 0 then .error .invalidArgument
  else if n < b.length then .error .outOfRange
  else .ok (b ++ zeros (n.toNat - b.length))

/-- A buffer lengthened to `n` bytes with zero bytes (41_bitops.md R106). -/
def padTo (b : Bytes) (n : Nat) : Bytes := b ++ zeros (n - b.length)

/-- `XOR_f`: the bytewise exclusive or, the shorter one zero-extended (41_bitops.md R106). It cannot fault. -/
def xorF (a c : Bytes) : Bytes :=
  List.zipWith (· ^^^ ·) (padTo a (max a.length c.length)) (padTo c (max a.length c.length))

/-- `GETBITS_f` (41_bitops.md R108). -/
def getBitsF (b : Bytes) (start count : Int) : Except CmdFault Bytes :=
  if count ≤ 0 then .error .invalidArgument
  else if rangeOutside b start count then .error .outOfRange
  else .ok (pack (memRead b start.toNat count.toNat))

/-- Two ranges of `n` bits in one buffer share a bit (41_bitops.md R110; 70_reset_and_hazards.md R273). -/
def rangesOverlap (ds ss n : Int) : Bool := decide (ds < ss + n) && decide (ss < ds + n)

/-- SETBITS's buffer; `same` says that source and destination are one register (41_bitops.md R110). -/
def setBitsF (same : Bool) (d src : Bytes) (ds ss n : Int) : Except CmdFault Bytes :=
  if n ≤ 0 then .error .invalidArgument
  else if same && rangesOverlap ds ss n then .error .invalidArgument
  else if rangeOutside src ss n then .error .outOfRange
  else if rangeOutside d ds n then .error .outOfRange
  else .ok (memWriteRange d ds.toNat (memRead src ss.toNat n.toNat))

/-- The ring of 41_bitops.md R112: bit `i` of the result is bit `(i + sh) mod L` of `x`, `L` its length. -/
def rotateBits (x : List Bool) (sh : Nat) : List Bool :=
  (List.range x.length).map fun i => x.getD ((i + sh) % x.length) false

/-- `ROTL_f` (41_bitops.md R112). -/
def rotlF (b : Bytes) (len sh : Int) : Except CmdFault Bytes :=
  if len ≤ 0 then .error .invalidArgument
  else if sh < 0 then .error .invalidArgument
  else if 8 * (b.length : Int) < len then .error .outOfRange
  else .ok (pack (rotateBits (memRead b 0 len.toNat) sh.toNat))

/-- `SEPARATE_f`: one byte a group, each group left-packed (41_bitops.md R114). -/
def separateF (b : Bytes) (g : Int) : Except CmdFault Bytes :=
  if g ≤ 0 ∨ 8 < g then .error .invalidArgument
  else if 8 * b.length % g.toNat ≠ 0 then .error .outOfRange
  else .ok ((List.range (8 * b.length / g.toNat)).map fun k =>
    (pack (memRead b (k * g.toNat) g.toNat)).headD 0)

/-- `CONCAT_f` (41_bitops.md R116). -/
def concatF (a : Bytes) (na : Int) (c : Bytes) (nc : Int) : Except CmdFault Bytes :=
  if na ≤ 0 ∨ nc ≤ 0 then .error .invalidArgument
  else if 8 * (a.length : Int) < na ∨ 8 * (c.length : Int) < nc then .error .outOfRange
  else .ok (pack (memRead a 0 na.toNat ++ memRead c 0 nc.toNat))

/-- The eight characters of a byte in a format (41_bitops.md R118). -/
def byteText (f : Config.TostringFmt) (x : Byte) : Bytes :=
  (List.range 8).map fun j => if x.getLsbD (if f.msbFirst then 7 - j else j) then f.one else f.zero

/-- The characters of all bytes, one separator between bytes (41_bitops.md R118). -/
def groupsText (f : Config.TostringFmt) : Bytes → Bytes
  | [] => []
  | [x] => byteText f x
  | x :: y :: rest => byteText f x ++ f.separator :: groupsText f (y :: rest)

/-- A separator at an end of the text, where the format has one there. -/
def endText (f : Config.TostringFmt) (present : Bool) : Bytes := if present then [f.separator] else []

/-- TOSTRING's text in a format (41_bitops.md R118, R119). -/
def tostringText (f : Config.TostringFmt) (b : Bytes) : Bytes :=
  if b.isEmpty then f.empty else endText f f.leading ++ (groupsText f b ++ endText f f.trailing)

/-- The commit of TOSTRING's text. A text of 1 to 56 bytes has at most 505 characters in every format, so it is
written without looking at the format; this is `commitBuf` of the text (`commitText_eq`; 30_encoding.md R76 step 4). -/
def commitText (s : State) (rd : BufIx) (b : Bytes) : Except CmdFault State :=
  if 0 < b.length ∧ b.length ≤ 56 then .ok (s.setBuf rd (some (tostringText Config.tostringFmt b)))
  else commitBuf s rd (tostringText Config.tostringFmt b)

/-- GETBIT (41_bitops.md R100). -/
def execGetbit (ra : BufIx) (position : Int) (s : State) : Host.Outcome State Fault Refusal :=
  finish s do
    let b ← operand s ra
    let v ← getBitF b position
    .ok (s.setResult v)

/-- SETBIT (41_bitops.md R102). -/
def execSetbit (rd : BufIx) (position value : Int) (s : State) : Host.Outcome State Fault Refusal :=
  finish s do
    let b ← operand s rd
    let v ← setBitF b position value
    commitBuf s rd v

/-- EXTEND (41_bitops.md R104). -/
def execExtend (rd ra : BufIx) (newLength : Int) (s : State) : Host.Outcome State Fault Refusal :=
  finish s do
    let b ← operand s ra
    let v ← extendF b newLength
    commitBuf s rd v

/-- XOR (41_bitops.md R106). -/
def execXor (rd ra rb : BufIx) (s : State) : Host.Outcome State Fault Refusal :=
  finish s do
    let a ← operand s ra
    let c ← operand s rb
    commitBuf s rd (xorF a c)

/-- GETBITS (41_bitops.md R108). -/
def execGetbits (rd ra : BufIx) (start count : Int) (s : State) : Host.Outcome State Fault Refusal :=
  finish s do
    let b ← operand s ra
    let v ← getBitsF b start count
    commitBuf s rd v

/-- SETBITS (41_bitops.md R110). -/
def execSetbits (rd ra : BufIx) (destStart srcStart count : Int) (s : State) : Host.Outcome State Fault Refusal :=
  finish s do
    let d ← operand s rd
    let src ← operand s ra
    let v ← setBitsF (decide (rd = ra)) d src destStart srcStart count
    commitBuf s rd v

/-- ROTL (41_bitops.md R112). -/
def execRotl (rd ra : BufIx) (len shift : Int) (s : State) : Host.Outcome State Fault Refusal :=
  finish s do
    let b ← operand s ra
    let v ← rotlF b len shift
    commitBuf s rd v

/-- SEPARATE (41_bitops.md R114). -/
def execSeparate (rd ra : BufIx) (groupSize : Int) (s : State) : Host.Outcome State Fault Refusal :=
  finish s do
    let b ← operand s ra
    let v ← separateF b groupSize
    commitBuf s rd v

/-- CONCAT (41_bitops.md R116). -/
def execConcat (rd ra rb : BufIx) (firstCount secondCount : Int) (s : State) : Host.Outcome State Fault Refusal :=
  finish s do
    let a ← operand s ra
    let c ← operand s rb
    let v ← concatF a firstCount c secondCount
    commitBuf s rd v

/-- TOSTRING, in the `TOSTRING_FMT` of the configuration (41_bitops.md R118; 10_state.md R33). -/
def execTostring (rd ra : BufIx) (s : State) : Host.Outcome State Fault Refusal :=
  finish s do
    let b ← operand s ra
    commitText s rd b

end Sys2Proof.Machine
end

