-- ==== Sys2Proof/Machine/Permutation.lean ====
section
/-! DEFINITION. The permutation engine and the S-boxes (42_permutation.md). -/

namespace Sys2Proof.Machine

/-- `PERMUTE_f(b, T)`: output bit `i` is input bit `T[i]`, entries 0-based; an entry outside the input raises
OutOfRange (42_permutation.md R150). -/
def permuteF (b : Bytes) (t : List Nat) : Except CmdFault Bytes :=
  if t.any (fun e => decide (8 * b.length ≤ e)) then .error .outOfRange
  else .ok (pack (t.map (bit b)))

/-- `SBOX_f(k, g)` of a 6-bit group `g`: row from the outer bits, column from the inner four (42_permutation.md
R155). -/
def sboxF (k : Box) (g : Nat) : Nat :=
  ((boxRows k).getD (2 * ((g >>> 5) % 2) + g % 2) []).getD ((g >>> 1) % 16) 0

/-- The group a byte holds left-packed, `b[0] >> 2` (42_permutation.md R155). -/
def groupOf (x : Byte) : Nat := x.toNat >>> 2

/-- SBOX's byte: the 4-bit value in bits 0..3, bits 4..7 zero (42_permutation.md R155). -/
def sboxByte (k : Box) (b : Bytes) : Except CmdFault Bytes :=
  match b with
  | [] => .error .outOfRange
  | x :: _ => .ok [BitVec.ofNat 8 (sboxF k (groupOf x) <<< 4)]

/-- PERM (42_permutation.md R151). -/
def execPerm (rd ra : BufIx) (table : PermTable) (s : State) : Host.Outcome State Fault Refusal :=
  finish s do
    let b ← operand s ra
    let v ← permuteF b (table0 table)
    commitBuf s rd v

/-- PERMT: each byte of the table buffer is one unsigned 0-based entry (42_permutation.md R153). -/
def execPermt (rd ra rb : BufIx) (s : State) : Host.Outcome State Fault Refusal :=
  finish s do
    let b ← operand s ra
    let t ← operand s rb
    let v ← permuteF b (t.map BitVec.toNat)
    commitBuf s rd v

/-- SBOX (42_permutation.md R155). -/
def execSbox (rd ra : BufIx) (box : Box) (s : State) : Host.Outcome State Fault Refusal :=
  finish s do
    let b ← operand s ra
    let v ← sboxByte box b
    commitBuf s rd v

end Sys2Proof.Machine
end

