-- ==== Sys2Proof/Machine/KeySchedule.lean ====
section
/-! DEFINITION. The key schedule and the worker context (43_key_schedule.md). The halves C and D are values inside one
command (10_state.md R32). -/

namespace Sys2Proof.Machine

/-- `SHIFT[r]` (00_scope.md R5; 43_key_schedule.md R181). -/
def shiftAmount (r : Nat) : Nat := if r = 1 ∨ r = 2 ∨ r = 9 ∨ r = 16 then 1 else 2

/-- The rounds of 43_key_schedule.md R180 from the halves the previous round left: rotate both, join them, and
compress by PC2. -/
def scheduleRounds : List Nat → Bytes → Bytes → Except CmdFault (List Bytes)
  | [], _, _ => .ok []
  | r :: rs, c, d => do
    let c' ← rotlF c 28 (shiftAmount r)
    let d' ← rotlF d 28 (shiftAmount r)
    let cd ← concatF c' 28 d' 28
    let k ← permuteF cd (table0 .pc2)
    let ks ← scheduleRounds rs c' d'
    .ok (k :: ks)

/-- The rounds 1 to 16 in order. -/
def roundNumbers : List Nat := [1, 2, 3, 4, 5, 6, 7, 8, 9, 10, 11, 12, 13, 14, 15, 16]

/-- `KS(k)`: the sixteen round keys of a key, round 1 first (43_key_schedule.md R180). -/
def keySchedule (key : Bytes) : Except CmdFault (List Bytes) := do
  let cd ← permuteF key (table0 .pc1)
  let c ← getBitsF cd 0 28
  let d ← getBitsF cd 28 28
  scheduleRounds roundNumbers c d

/-- The key operand of SUBKEYS and WORKER, 8 bytes, and its schedule (43_key_schedule.md R184, R186). -/
def scheduleOperand (s : State) (ra : BufIx) : Except CmdFault (List Bytes) := do
  let k ← operand s ra
  requireLength k 8
  keySchedule k

/-- SUBKEYS (43_key_schedule.md R184): `CTX.STRAT` is unchanged. -/
def execSubkeys (ra : BufIx) (s : State) : Host.Outcome State Fault Refusal :=
  finish s do
    let ks ← scheduleOperand s ra
    .ok (s.setSchedule ks).setKsv

/-- WORKER (43_key_schedule.md R186). -/
def execWorker (ra : BufIx) (strategy : Strategy) (s : State) : Host.Outcome State Fault Refusal :=
  finish s do
    let ks ← scheduleOperand s ra
    .ok ((s.setSchedule ks).setKsv.setStrat strategy)

/-- RDKEY (43_key_schedule.md R188). -/
def execRdkey (rd : BufIx) (round : Int) (s : State) : Host.Outcome State Fault Refusal :=
  finish s do
    if round < 1 ∨ 16 < round then .error .invalidArgument
    else do
      requireSchedule s
      let k ← roundKeyOperand s round.toNat
      commitBuf s rd k

end Sys2Proof.Machine
end

