-- ==== Sys2Proof/Machine/Feistel.lean ====
section
/-! DEFINITION. The Feistel engine (44_feistel.md). L, R and the round counter are values inside one command
(10_state.md R32; 44_feistel.md R207). -/

namespace Sys2Proof.Machine

/-- The four bits of an S-box output, most significant first (44_feistel.md R200). -/
def nibbleBits (v : Nat) : List Bool := [v.testBit 3, v.testBit 2, v.testBit 1, v.testBit 0]

/-- The eight S-box outputs of eight left-packed groups as one bit list (44_feistel.md R200). -/
def substitute (groups : Bytes) : List Bool :=
  (List.zipWith (fun k x => nibbleBits (sboxF k (groupOf x))) allBoxes groups).flatten

/-- The round function `F(R, K)`: expand, exclusive or, substitute, permute (44_feistel.md R200). -/
def feistelF (r k : Bytes) : Except CmdFault Bytes := do
  let e ← permuteF r (table0 .e)
  let g ← separateF (xorF e k) 6
  permuteF (pack (substitute g)) (table0 .p)

/-- One Feistel round on the halves: new L is old R, new R is old L xor `F(R, K)` (44_feistel.md R202, R204). -/
def feistelRound (k : Bytes) (l r : Bytes) : Except CmdFault (Bytes × Bytes) := do
  let f ← feistelF r k
  .ok (r, xorF l f)

/-- The rounds of TRANSFORM: one Feistel round for each round number, with the key `key` gives it (44_feistel.md
R204 step 3). -/
def feistelRounds (key : Nat → Except CmdFault Bytes) : List Nat → Bytes → Bytes → Except CmdFault (Bytes × Bytes)
  | [], l, r => .ok (l, r)
  | n :: ns, l, r => do
    let k ← key n
    let lr ← feistelRound k l r
    feistelRounds key ns lr.1 lr.2

/-- The order in which the round keys are used: 1..16, or 16..1 for decryption (44_feistel.md R204). -/
def keyOrder (t : Strategy) : List Nat :=
  match t with
  | .encrypt => roundNumbers
  | .decrypt => roundNumbers.map (17 - ·)

/-- The transformation of one block under a strategy and the round keys `key` gives: initial permutation, split,
sixteen rounds, swap, join and final permutation (44_feistel.md R204). -/
def transformBlock (t : Strategy) (key : Nat → Except CmdFault Bytes) (blk : Bytes) : Except CmdFault Bytes := do
  let x ← permuteF blk (table0 .ip)
  let l ← getBitsF x 0 32
  let r ← getBitsF x 32 32
  let lr ← feistelRounds key (keyOrder t) l r
  let y ← concatF lr.2 32 lr.1 32
  permuteF y (table0 .fp)

/-- FFUNC (44_feistel.md R200). -/
def execFfunc (rd ra rb : BufIx) (s : State) : Host.Outcome State Fault Refusal :=
  finish s do
    let r ← operand s ra
    let k ← operand s rb
    requireLength r 4
    requireLength k 6
    let v ← feistelF r k
    commitBuf s rd v

/-- ROUND (44_feistel.md R202). -/
def execRound (rd ra rb : BufIx) (s : State) : Host.Outcome State Fault Refusal :=
  finish s do
    let blk ← operand s ra
    let k ← operand s rb
    requireLength blk 8
    requireLength k 6
    let lr ← feistelRound k (blk.take 4) (blk.drop 4)
    commitBuf s rd (lr.1 ++ lr.2)

/-- TRANSFORM (44_feistel.md R204). -/
def execTransform (rd ra : BufIx) (s : State) : Host.Outcome State Fault Refusal :=
  finish s do
    let blk ← operand s ra
    requireLength blk 8
    requireSchedule s
    let v ← transformBlock s.strat (roundKeyOperand s) blk
    commitBuf s rd v

end Sys2Proof.Machine
end

