-- ==== Sys2Proof/Machine/Dispatch.lean ====
section
/-! DEFINITION. The dispatch: one arm per command, each a direct call of its meaning. -/

namespace Sys2Proof.Machine

/-- What a command does (30_encoding.md R76, from its step 2 on; the decoder has done step 1). -/
def exec (i : Instr) (s : State) : Host.Outcome State Fault Refusal :=
  match i with
  | .getbit ra position => Sys2Proof.Machine.execGetbit ra position s
  | .setbit rd position value => Sys2Proof.Machine.execSetbit rd position value s
  | .extend rd ra newLength => Sys2Proof.Machine.execExtend rd ra newLength s
  | .xor rd ra rb => Sys2Proof.Machine.execXor rd ra rb s
  | .getbits rd ra start count => Sys2Proof.Machine.execGetbits rd ra start count s
  | .setbits rd ra destStart srcStart count => Sys2Proof.Machine.execSetbits rd ra destStart srcStart count s
  | .rotl rd ra len shift => Sys2Proof.Machine.execRotl rd ra len shift s
  | .separate rd ra groupSize => Sys2Proof.Machine.execSeparate rd ra groupSize s
  | .concat rd ra rb firstCount secondCount => Sys2Proof.Machine.execConcat rd ra rb firstCount secondCount s
  | .tostring rd ra => Sys2Proof.Machine.execTostring rd ra s
  | .perm rd ra table => Sys2Proof.Machine.execPerm rd ra table s
  | .permt rd ra rb => Sys2Proof.Machine.execPermt rd ra rb s
  | .sbox rd ra box => Sys2Proof.Machine.execSbox rd ra box s
  | .subkeys ra => Sys2Proof.Machine.execSubkeys ra s
  | .worker ra strategy => Sys2Proof.Machine.execWorker ra strategy s
  | .rdkey rd round => Sys2Proof.Machine.execRdkey rd round s
  | .ffunc rd ra rb => Sys2Proof.Machine.execFfunc rd ra rb s
  | .round rd ra rb => Sys2Proof.Machine.execRound rd ra rb s
  | .transform rd ra => Sys2Proof.Machine.execTransform rd ra s

end Sys2Proof.Machine
end

