-- ==== Sys2Proof/Machine/HostPort.lean ====
section
/-! DEFINITION. The host interface: the six interactions, each one atomic step (60_exceptions.md R250, R251). -/

namespace Sys2Proof.Machine

/-- The host gets `r` back (60_exceptions.md R250). -/
def State.reply (s : State) (r : Reply) : State := { s with replies := r :: s.replies }

/-- The buffer register a host index names; `none` outside 0..15 (60_exceptions.md R250). -/
def hostIx (i : Nat) : Option BufIx := if h : i < 16 then some ⟨i, h⟩ else none

/-- `ISSUE(cw)`: an illegal word takes IllegalCommand before any state is read, a legal one runs its command
(30_encoding.md R76 step 1). -/
def issue (cw : CW) (s : State) : Host.Outcome State Fault Refusal :=
  match decode cw with
  | .error _ => finish s (.error .illegalCommand)
  | .ok i => exec i s

/-- `WRITEBUF(i, v)`: `B[i] <- v`, and nothing else; refused where `v` is longer than `BUF_CAP` or the index is
outside 0..15 (60_exceptions.md R250). -/
def hostWriteBuf (i : Nat) (v : Bytes) (s : State) : State :=
  match hostIx i with
  | some r => if tooLong v.length then s.reply .refused else (s.setBuf r v).reply .nothing
  | none => s.reply .refused

/-- `CLEARBUF(i)`: `B[i] <- ABSENT` (60_exceptions.md R250; the refusal: log entry 5). -/
def hostClearBuf (i : Nat) (s : State) : State :=
  match hostIx i with
  | some r => (s.setBuf r none).reply .nothing
  | none => s.reply .refused

/-- `READBUF(i)`: the core does nothing, the host gets `B[i]` (60_exceptions.md R250; the refusal: log entry 5). -/
def hostReadBuf (i : Nat) (s : State) : State :=
  match hostIx i with
  | some r => s.reply (.buffer (s.buf r))
  | none => s.reply .refused

/-- `READREG(n)`: the core does nothing, the host gets the register (60_exceptions.md R250). -/
def hostReadReg (n : Word) (s : State) : State := s.reply (.register (s.readReg n))

/-- `RESET`: every state of the core at its reset value (70_reset_and_hazards.md R270; 10_state.md R34). What is on the
port and what the host got back stay (log entry 6). -/
def hostReset (s : State) : State :=
  { State.reset with port := s.port, replies := .nothing :: s.replies }

/-- One interaction, in a state whose port no longer holds it (60_exceptions.md R250). `ISSUE` returns nothing: the
host reads `STATUS`. -/
def interact (q : Interaction) (s : State) : Host.Outcome State Fault Refusal :=
  match q with
  | .issue cw => issue cw (s.reply .nothing)
  | .writeBuf i v => .next (hostWriteBuf i v s)
  | .clearBuf i => .next (hostClearBuf i s)
  | .readBuf i => .next (hostReadBuf i s)
  | .readReg n => .next (hostReadReg n s)
  | .reset => .next (hostReset s)

/-- The interaction the core performs next: the one on the port, else the one of the host's program at the index the host
keeps. That index is the number of replies it has got (10_state.md R23; 60_exceptions.md R251; log entry 3). -/
def State.upcoming (s : State) : Option Interaction :=
  match s.port with
  | some q => some q
  | none => Config.hostProgram[s.replies.length]?

/-- The state with an `ISSUE` of `cw` as the next interaction. -/
def State.withIssue (s : State) (cw : CW) : State := { s with port := some (.issue cw) }

end Sys2Proof.Machine
end

