-- ==== Sys2Proof/Machine/Step.lean ====
section
/-! DEFINITION. One step of the machine: the host's next interaction. -/

namespace Sys2Proof.Machine

/-- One step: the host's next interaction is performed as one atomic transition (10_state.md R20; 20_memory.md R59;
30_encoding.md R76). Once the host's program is over the core is idle and keeps all state
(60_exceptions.md R243, R252). -/
def step (s : State) : Host.Outcome State Fault Refusal :=
  match s.upcoming with
  | none => .next s
  | some q => interact q { s with port := none }

/-- The state in which the host's next interaction issues the command word `w`, its bits above `nbits` 0: the core
fetches nothing, the host hands it one word at a time (10_state.md R23; log entry 4). -/
def State.withFetchWord (s : State) (nbits w : Nat) : State := s.withIssue (BitVec.ofNat 64 (w % 2 ^ nbits))

end Sys2Proof.Machine
end

