-- ==== Sys2Proof/Laws/Bits.lean ====
section
/-! SUPPORT. The laws of bit strings: the bits of a packed list, of a range read, of a written bit and of a joined,
padded or truncated buffer. -/

namespace Sys2Proof.Machine

@[simp] theorem zeros_length (n : Nat) : (zeros n).length = n := by simp [zeros]

@[simp] theorem memRead_length (b : Bytes) (p n : Nat) : (memRead b p n).length = n := by simp [memRead]

@[simp] theorem memRead_getElem (b : Bytes) (p n i : Nat) (h : i < (memRead b p n).length) :
    (memRead b p n)[i] = bit b (p + i) := by simp [memRead]

theorem memRead_getD (b : Bytes) (p n i : Nat) :
    (memRead b p n).getD i false = (decide (i < n) && bit b (p + i)) := by
  by_cases h : i < n
  · have h' : i < (memRead b p n).length := by simpa using h
    simp [List.getD_eq_getElem?_getD, h]
  · simp [List.getD_eq_getElem?_getD, h]

@[simp] theorem byteSetBit_same (x : Byte) (k : Nat) (v : Bool) (h : k < 8) : (byteSetBit x k v).getLsbD k = v := by
  cases v <;> simp [byteSetBit, h]

theorem byteSetBit_other (x : Byte) {j k : Nat} (v : Bool) (h : j ≠ k) :
    (byteSetBit x k v).getLsbD j = x.getLsbD j := by
  cases v
  · by_cases hj : j < 8
    · have : ¬(j < k) → j - k ≠ 0 := by omega
      by_cases hk : j < k <;> simp [byteSetBit, hj, hk, this]
    · simp [byteSetBit, Nat.not_lt.mp hj]
  · have : ¬(j < k) → j - k ≠ 0 := by omega
    by_cases hk : j < k <;> simp [byteSetBit, hk, this]

@[simp] theorem memWrite_length (b : Bytes) (p : Nat) (v : Bool) : (memWrite b p v).length = b.length := by
  simp [memWrite]

/-- The bit just written (00_scope.md R9). -/
theorem memWrite_bit_same (b : Bytes) (p : Nat) (v : Bool) (h : p < 8 * b.length) : bit (memWrite b p v) p = v := by
  have hp : p / 8 < b.length := by omega
  have hk : 7 - p % 8 < 8 := by omega
  have e : (memWrite b p v).getD (p / 8) 0 = byteSetBit b[p / 8] (7 - p % 8) v := by
    simp [memWrite, List.getD_eq_getElem?_getD, hp]
  rw [bit, e, byteSetBit_same _ _ _ hk]

/-- Every other bit (00_scope.md R9). -/
theorem memWrite_bit_other (b : Bytes) {p q : Nat} (v : Bool) (h : q ≠ p) : bit (memWrite b p v) q = bit b q := by
  by_cases hq : p / 8 = q / 8
  · have hk : 7 - q % 8 ≠ 7 - p % 8 := by omega
    by_cases hl : q / 8 < b.length
    · simp [bit, memWrite, List.getD_eq_getElem?_getD, hq, hl, byteSetBit_other _ v hk]
    · simp [bit, memWrite, List.getD_eq_getElem?_getD, hq, Nat.not_lt.mp hl]
  · simp [bit, memWrite, List.getD_eq_getElem?_getD, hq]

@[simp] theorem memWriteRange_length (b : Bytes) (p : Nat) (vs : List Bool) :
    (memWriteRange b p vs).length = b.length := by
  induction vs generalizing b p with
  | nil => rfl
  | cons v vs ih => simp [memWriteRange, ih]

/-- The bits after a range was written: the written values inside it, the old bits outside (41_bitops.md R110). -/
theorem memWriteRange_bit (b : Bytes) (p : Nat) (vs : List Bool) (q : Nat) (h : p + vs.length ≤ 8 * b.length) :
    bit (memWriteRange b p vs) q = if p ≤ q ∧ q < p + vs.length then vs.getD (q - p) false else bit b q := by
  induction vs generalizing b p with
  | nil => simp [memWriteRange, show ¬(p ≤ q ∧ q < p) by omega]
  | cons v vs ih =>
    simp only [List.length_cons] at h
    rw [memWriteRange, ih _ _ (by simp; omega)]
    rcases lt_trichotomy q p with hq | rfl | hq
    · simp [show ¬ p ≤ q by omega, show ¬ p + 1 ≤ q by omega, memWrite_bit_other b v (show q ≠ p by omega)]
    · simp [memWrite_bit_same b q v (by omega)]
    · have e : q - p = (q - (p + 1)) + 1 := by omega
      have e2 : (p + 1 ≤ q ∧ q < p + 1 + vs.length) ↔ (p ≤ q ∧ q < p + (v :: vs).length) := by
        simp only [List.length_cons]; omega
      simp only [e2, e, List.getD_cons_succ, memWrite_bit_other b v (show q ≠ p by omega)]

theorem byteOfBits_toNat_bits : ∀ a b c d e f g h : Bool, ∀ j : Fin 8,
    (byteOfBits [a, b, c, d, e, f, g, h]).getLsbD (7 - j) = [a, b, c, d, e, f, g, h].getD j false := by
  decide +kernel

/-- A short list packs as if it were filled with zeros. -/
theorem byteOfBits_fill (l : List Bool) : byteOfBits l =
    byteOfBits [l.getD 0 false, l.getD 1 false, l.getD 2 false, l.getD 3 false,
      l.getD 4 false, l.getD 5 false, l.getD 6 false, l.getD 7 false] := by
  simp [byteOfBits, List.range_succ]

theorem byteOfBits_bit (l : List Bool) (j : Nat) (h : j < 8) : (byteOfBits l).getLsbD (7 - j) = l.getD j false := by
  rw [byteOfBits_fill]
  have := byteOfBits_toNat_bits (l.getD 0 false) (l.getD 1 false) (l.getD 2 false) (l.getD 3 false)
    (l.getD 4 false) (l.getD 5 false) (l.getD 6 false) (l.getD 7 false) ⟨j, h⟩
  rw [this]
  clear this
  interval_cases j <;> rfl

@[simp] theorem packBytes_length (n : Nat) (l : List Bool) : (packBytes n l).length = n := by
  induction n generalizing l with
  | zero => rfl
  | succ n ih => simp [packBytes, ih]

theorem packBytes_bit (n : Nat) (l : List Bool) (p : Nat) (h : p < 8 * n) :
    bit (packBytes n l) p = l.getD p false := by
  induction n generalizing l p with
  | zero => omega
  | succ n ih =>
    by_cases hp : p < 8
    · have h0 : p / 8 = 0 := by omega
      have h1 : p % 8 = p := by omega
      simp only [bit, packBytes, h0, List.getD_cons_zero, h1, byteOfBits_bit _ _ hp]
      simp [List.getD_eq_getElem?_getD, hp]
    · have e : p / 8 = (p - 8) / 8 + 1 := by omega
      have e2 : p % 8 = (p - 8) % 8 := by omega
      have := ih (l.drop 8) (p - 8) (by omega)
      simp only [bit] at this
      simp only [bit, packBytes, e, List.getD_cons_succ, e2, this]
      simp [List.getD_eq_getElem?_getD, show 8 + (p - 8) = p by omega]

@[simp] theorem pack_length (l : List Bool) : (pack l).length = ceil8 l.length := by simp [pack]

/-- `pack`: bit `i` of the result is `L[i]`, and 0 past its end (00_scope.md R9). -/
theorem pack_bit (l : List Bool) (p : Nat) : bit (pack l) p = l.getD p false := by
  by_cases h : p < 8 * ceil8 l.length
  · exact packBytes_bit _ _ _ h
  · have h' : 8 * ceil8 l.length ≤ p := Nat.not_lt.mp h
    have hl : l.length ≤ p := by simp only [ceil8] at h'; omega
    have hb : (pack l).length ≤ p / 8 := by simp only [pack_length]; omega
    have e1 : l.getD p false = false := by simp [List.getD_eq_getElem?_getD, List.getElem?_eq_none hl]
    have e2 : (pack l).getD (p / 8) 0 = 0 := by
      rw [List.getD_eq_getElem?_getD, List.getElem?_eq_none hb]; rfl
    rw [bit, e1, e2]; exact BitVec.getLsbD_zero

/-- A bit past the end of a buffer reads 0 (log entry 8). -/
theorem bit_outside (b : Bytes) (p : Nat) (h : 8 * b.length ≤ p) : bit b p = false := by
  have h' : b.length ≤ p / 8 := by omega
  have e : b.getD (p / 8) 0 = 0 := by rw [List.getD_eq_getElem?_getD, List.getElem?_eq_none h']; rfl
  rw [bit, e]; exact BitVec.getLsbD_zero

/-- Two buffers of one length with equal bits are equal: a buffer is its bit string (00_scope.md R6). -/
theorem bytes_ext {a b : Bytes} (hl : a.length = b.length) (h : ∀ p < 8 * a.length, bit a p = bit b p) : a = b := by
  apply List.ext_getElem hl
  intro i h1 h2
  apply BitVec.eq_of_getLsbD_eq
  intro k hk
  have := h (8 * i + (7 - k)) (by omega)
  have e1 : (8 * i + (7 - k)) / 8 = i := by omega
  have e2 : 7 - (8 * i + (7 - k)) % 8 = k := by omega
  simp only [bit, e1, e2, List.getD_eq_getElem?_getD, List.getElem?_eq_getElem h1, List.getElem?_eq_getElem h2,
    Option.getD_some] at this
  exact this

theorem bit_append_left (a b : Bytes) (p : Nat) (h : p < 8 * a.length) : bit (a ++ b) p = bit a p := by
  have h' : p / 8 < a.length := by omega
  simp [bit, List.getD_eq_getElem?_getD, List.getElem?_append_left h']

theorem bit_append_right (a b : Bytes) (p : Nat) : bit (a ++ b) (8 * a.length + p) = bit b p := by
  have e1 : (8 * a.length + p) / 8 = a.length + p / 8 := by omega
  have e2 : (8 * a.length + p) % 8 = p % 8 := by omega
  simp [bit, e1, e2, List.getD_eq_getElem?_getD, List.getElem?_append_right]

theorem bit_zeros (n p : Nat) : bit (zeros n) p = false := by
  by_cases h : p / 8 < n <;> simp [bit, zeros, List.getD_eq_getElem?_getD, h]

theorem bit_take (b : Bytes) (n p : Nat) (h : p < 8 * n) : bit (b.take n) p = bit b p := by
  have h' : p / 8 < n := by omega
  simp [bit, List.getD_eq_getElem?_getD, h']

theorem bit_drop (b : Bytes) (n p : Nat) : bit (b.drop n) p = bit b (8 * n + p) := by
  have e1 : (8 * n + p) / 8 = n + p / 8 := by omega
  have e2 : (8 * n + p) % 8 = p % 8 := by omega
  simp [bit, e1, e2, List.getD_eq_getElem?_getD]

end Sys2Proof.Machine
end

