-- ==== Sys2Proof/Laws/State.lean ====
section
/-! SUPPORT. One lemma per field per update of State, and the laws of the buffer registers: no later proof unfolds a
record update. -/

namespace Sys2Proof.Machine

@[simp] theorem setBuf_bufs (s : State) (i : BufIx) (v : Buffer) : (s.setBuf i v).bufs = s.bufs.set i v := rfl
@[simp] theorem setBuf_status (s : State) (i : BufIx) (v : Buffer) : (s.setBuf i v).status = s.status := rfl
@[simp] theorem setBuf_result (s : State) (i : BufIx) (v : Buffer) : (s.setBuf i v).result = s.result := rfl
@[simp] theorem setBuf_errflags (s : State) (i : BufIx) (v : Buffer) : (s.setBuf i v).errflags = s.errflags := rfl
@[simp] theorem setBuf_ctx (s : State) (i : BufIx) (v : Buffer) : (s.setBuf i v).ctx = s.ctx := rfl
@[simp] theorem setBuf_ks (s : State) (i : BufIx) (v : Buffer) : (s.setBuf i v).ks = s.ks := rfl
@[simp] theorem setBuf_port (s : State) (i : BufIx) (v : Buffer) : (s.setBuf i v).port = s.port := rfl
@[simp] theorem setBuf_replies (s : State) (i : BufIx) (v : Buffer) : (s.setBuf i v).replies = s.replies := rfl

@[simp] theorem setCode_bufs (s : State) (c : Nat) : (s.setCode c).bufs = s.bufs := rfl
@[simp] theorem setCode_status (s : State) (c : Nat) : (s.setCode c).status = BitVec.ofNat 32 (c % 8) := rfl
@[simp] theorem setCode_result (s : State) (c : Nat) : (s.setCode c).result = s.result := rfl
@[simp] theorem setCode_errflags (s : State) (c : Nat) : (s.setCode c).errflags = s.errflags := rfl
@[simp] theorem setCode_ctx (s : State) (c : Nat) : (s.setCode c).ctx = s.ctx := rfl
@[simp] theorem setCode_ks (s : State) (c : Nat) : (s.setCode c).ks = s.ks := rfl
@[simp] theorem setCode_port (s : State) (c : Nat) : (s.setCode c).port = s.port := rfl
@[simp] theorem setCode_replies (s : State) (c : Nat) : (s.setCode c).replies = s.replies := rfl

@[simp] theorem setResult_bufs (s : State) (v : Bool) : (s.setResult v).bufs = s.bufs := rfl
@[simp] theorem setResult_status (s : State) (v : Bool) : (s.setResult v).status = s.status := rfl
@[simp] theorem setResult_result (s : State) (v : Bool) : (s.setResult v).result = (BitVec.ofBool v).setWidth 32 := rfl
@[simp] theorem setResult_errflags (s : State) (v : Bool) : (s.setResult v).errflags = s.errflags := rfl
@[simp] theorem setResult_ctx (s : State) (v : Bool) : (s.setResult v).ctx = s.ctx := rfl
@[simp] theorem setResult_ks (s : State) (v : Bool) : (s.setResult v).ks = s.ks := rfl
@[simp] theorem setResult_port (s : State) (v : Bool) : (s.setResult v).port = s.port := rfl
@[simp] theorem setResult_replies (s : State) (v : Bool) : (s.setResult v).replies = s.replies := rfl

@[simp] theorem setErrflag_bufs (s : State) (e : CmdFault) : (s.setErrflag e).bufs = s.bufs := rfl
@[simp] theorem setErrflag_status (s : State) (e : CmdFault) : (s.setErrflag e).status = s.status := rfl
@[simp] theorem setErrflag_result (s : State) (e : CmdFault) : (s.setErrflag e).result = s.result := rfl
@[simp] theorem setErrflag_errflags (s : State) (e : CmdFault) : (s.setErrflag e).errflags = s.errflags ||| e.flag := rfl
@[simp] theorem setErrflag_ctx (s : State) (e : CmdFault) : (s.setErrflag e).ctx = s.ctx := rfl
@[simp] theorem setErrflag_ks (s : State) (e : CmdFault) : (s.setErrflag e).ks = s.ks := rfl
@[simp] theorem setErrflag_port (s : State) (e : CmdFault) : (s.setErrflag e).port = s.port := rfl
@[simp] theorem setErrflag_replies (s : State) (e : CmdFault) : (s.setErrflag e).replies = s.replies := rfl

@[simp] theorem setSchedule_bufs (s : State) (l : List Bytes) : (s.setSchedule l).bufs = s.bufs := rfl
@[simp] theorem setSchedule_status (s : State) (l : List Bytes) : (s.setSchedule l).status = s.status := rfl
@[simp] theorem setSchedule_result (s : State) (l : List Bytes) : (s.setSchedule l).result = s.result := rfl
@[simp] theorem setSchedule_errflags (s : State) (l : List Bytes) : (s.setSchedule l).errflags = s.errflags := rfl
@[simp] theorem setSchedule_ctx (s : State) (l : List Bytes) : (s.setSchedule l).ctx = s.ctx := rfl
@[simp] theorem setSchedule_ks (s : State) (l : List Bytes) : (s.setSchedule l).ks = Vector.ofFn fun r : Fin 16 => l[r.val]? := rfl
@[simp] theorem setSchedule_port (s : State) (l : List Bytes) : (s.setSchedule l).port = s.port := rfl
@[simp] theorem setSchedule_replies (s : State) (l : List Bytes) : (s.setSchedule l).replies = s.replies := rfl

@[simp] theorem setKsv_bufs (s : State) : s.setKsv.bufs = s.bufs := rfl
@[simp] theorem setKsv_status (s : State) : s.setKsv.status = s.status := rfl
@[simp] theorem setKsv_result (s : State) : s.setKsv.result = s.result := rfl
@[simp] theorem setKsv_errflags (s : State) : s.setKsv.errflags = s.errflags := rfl
@[simp] theorem setKsv_ctx (s : State) : s.setKsv.ctx = s.ctx ||| 1#32 := rfl
@[simp] theorem setKsv_ks (s : State) : s.setKsv.ks = s.ks := rfl
@[simp] theorem setKsv_port (s : State) : s.setKsv.port = s.port := rfl
@[simp] theorem setKsv_replies (s : State) : s.setKsv.replies = s.replies := rfl

@[simp] theorem reply_bufs (s : State) (r : Reply) : (s.reply r).bufs = s.bufs := rfl
@[simp] theorem reply_status (s : State) (r : Reply) : (s.reply r).status = s.status := rfl
@[simp] theorem reply_result (s : State) (r : Reply) : (s.reply r).result = s.result := rfl
@[simp] theorem reply_errflags (s : State) (r : Reply) : (s.reply r).errflags = s.errflags := rfl
@[simp] theorem reply_ctx (s : State) (r : Reply) : (s.reply r).ctx = s.ctx := rfl
@[simp] theorem reply_ks (s : State) (r : Reply) : (s.reply r).ks = s.ks := rfl
@[simp] theorem reply_port (s : State) (r : Reply) : (s.reply r).port = s.port := rfl
@[simp] theorem reply_replies (s : State) (r : Reply) : (s.reply r).replies = r :: s.replies := rfl

@[simp] theorem withIssue_bufs (s : State) (cw : CW) : (s.withIssue cw).bufs = s.bufs := rfl
@[simp] theorem withIssue_status (s : State) (cw : CW) : (s.withIssue cw).status = s.status := rfl
@[simp] theorem withIssue_result (s : State) (cw : CW) : (s.withIssue cw).result = s.result := rfl
@[simp] theorem withIssue_errflags (s : State) (cw : CW) : (s.withIssue cw).errflags = s.errflags := rfl
@[simp] theorem withIssue_ctx (s : State) (cw : CW) : (s.withIssue cw).ctx = s.ctx := rfl
@[simp] theorem withIssue_ks (s : State) (cw : CW) : (s.withIssue cw).ks = s.ks := rfl
@[simp] theorem withIssue_port (s : State) (cw : CW) : (s.withIssue cw).port = some (.issue cw) := rfl
@[simp] theorem withIssue_replies (s : State) (cw : CW) : (s.withIssue cw).replies = s.replies := rfl

@[simp] theorem withIssue_upcoming (s : State) (cw : CW) : (s.withIssue cw).upcoming = some (.issue cw) := rfl

@[simp] theorem setStrat_bufs (s : State) (t : Strategy) : (s.setStrat t).bufs = s.bufs := by cases t <;> rfl
@[simp] theorem setStrat_status (s : State) (t : Strategy) : (s.setStrat t).status = s.status := by cases t <;> rfl
@[simp] theorem setStrat_result (s : State) (t : Strategy) : (s.setStrat t).result = s.result := by cases t <;> rfl
@[simp] theorem setStrat_errflags (s : State) (t : Strategy) : (s.setStrat t).errflags = s.errflags := by cases t <;> rfl
@[simp] theorem setStrat_ctx (s : State) (t : Strategy) :
    (s.setStrat t).ctx = (match t with | .encrypt => s.ctx &&& ~~~2#32 | .decrypt => s.ctx ||| 2#32) := by
  cases t <;> rfl
@[simp] theorem setStrat_ks (s : State) (t : Strategy) : (s.setStrat t).ks = s.ks := by cases t <;> rfl
@[simp] theorem setStrat_port (s : State) (t : Strategy) : (s.setStrat t).port = s.port := by cases t <;> rfl
@[simp] theorem setStrat_replies (s : State) (t : Strategy) : (s.setStrat t).replies = s.replies := by cases t <;> rfl

@[simp] theorem raise_bufs (s : State) (e : CmdFault) : (s.raise e).bufs = s.bufs := rfl
@[simp] theorem raise_status (s : State) (e : CmdFault) : (s.raise e).status = BitVec.ofNat 32 e.code := by cases e <;> rfl
@[simp] theorem raise_result (s : State) (e : CmdFault) : (s.raise e).result = s.result := rfl
@[simp] theorem raise_errflags (s : State) (e : CmdFault) : (s.raise e).errflags = s.errflags ||| e.flag := rfl
@[simp] theorem raise_ctx (s : State) (e : CmdFault) : (s.raise e).ctx = s.ctx := rfl
@[simp] theorem raise_ks (s : State) (e : CmdFault) : (s.raise e).ks = s.ks := rfl
@[simp] theorem raise_port (s : State) (e : CmdFault) : (s.raise e).port = s.port := rfl
@[simp] theorem raise_replies (s : State) (e : CmdFault) : (s.raise e).replies = s.replies := rfl

/-- What is on the port comes before the host's program. -/
theorem upcoming_port {s : State} {q : Interaction} (h : s.port = some q) : s.upcoming = some q := by
  simp [State.upcoming, h]

/-- With the port empty the host's program goes on at the index the host keeps. -/
theorem upcoming_program {s : State} (h : s.port = none) : s.upcoming = Config.hostProgram[s.replies.length]? := by
  simp [State.upcoming, h]

/-- Two states with equal fields are equal. -/
@[ext] theorem State.ext_fields {s t : State} (bufs : s.bufs = t.bufs) (status : s.status = t.status)
    (result : s.result = t.result) (errflags : s.errflags = t.errflags) (ctx : s.ctx = t.ctx) (ks : s.ks = t.ks)
    (port : s.port = t.port) (replies : s.replies = t.replies) : s = t := by
  cases s; cases t; simp_all

theorem buf_congr {s t : State} (h : s.bufs = t.bufs) (i : BufIx) : s.buf i = t.buf i := by simp [State.buf, h]

theorem roundKey_congr {s t : State} (h : s.ks = t.ks) (r : Nat) : s.roundKey r = t.roundKey r := by
  simp [State.roundKey, h]

theorem ksv_congr {s t : State} (h : s.ctx = t.ctx) : s.ksv = t.ksv := by simp [State.ksv, h]

theorem strat_congr {s t : State} (h : s.ctx = t.ctx) : s.strat = t.strat := by simp [State.strat, h]

/-- Reading the register just written. -/
@[simp] theorem setBuf_buf_same (s : State) (i : BufIx) (v : Buffer) : (s.setBuf i v).buf i = v := by
  simp [State.buf, State.setBuf]

/-- A write leaves every other register alone. -/
theorem setBuf_buf_other (s : State) {i j : BufIx} (v : Buffer) (h : j ≠ i) : (s.setBuf i v).buf j = s.buf j := by
  have h' : (i : Nat) ≠ j := fun e => h (Fin.ext e.symm)
  simp [State.buf, State.setBuf, h']

theorem setBuf_buf (s : State) (i j : BufIx) (v : Buffer) :
    (s.setBuf i v).buf j = if j = i then v else s.buf j := by
  by_cases h : j = i
  · subst h; simp
  · simp [h, setBuf_buf_other]

@[simp] theorem setCode_buf (s : State) (c : Nat) (i : BufIx) : (s.setCode c).buf i = s.buf i := rfl
@[simp] theorem setResult_buf (s : State) (v : Bool) (i : BufIx) : (s.setResult v).buf i = s.buf i := rfl
@[simp] theorem setErrflag_buf (s : State) (e : CmdFault) (i : BufIx) : (s.setErrflag e).buf i = s.buf i := rfl
@[simp] theorem setSchedule_buf (s : State) (l : List Bytes) (i : BufIx) : (s.setSchedule l).buf i = s.buf i := rfl
@[simp] theorem setKsv_buf (s : State) (i : BufIx) : s.setKsv.buf i = s.buf i := rfl
@[simp] theorem setStrat_buf (s : State) (t : Strategy) (i : BufIx) : (s.setStrat t).buf i = s.buf i := by
  cases t <;> rfl
@[simp] theorem raise_buf (s : State) (e : CmdFault) (i : BufIx) : (s.raise e).buf i = s.buf i := rfl
@[simp] theorem reply_buf (s : State) (r : Reply) (i : BufIx) : (s.reply r).buf i = s.buf i := rfl

/-- The round keys of a schedule just written (10_state.md R30). -/
theorem setSchedule_roundKey (s : State) (l : List Bytes) {r : Nat} (h1 : 1 ≤ r) (h16 : r ≤ 16) :
    (s.setSchedule l).roundKey r = l[r - 1]? := by
  have h : r - 1 < 16 := by omega
  simp [State.roundKey, State.setSchedule, h]

@[simp] theorem setKsv_roundKey (s : State) (r : Nat) : s.setKsv.roundKey r = s.roundKey r := rfl
@[simp] theorem setStrat_roundKey (s : State) (t : Strategy) (r : Nat) : (s.setStrat t).roundKey r = s.roundKey r := by
  cases t <;> rfl
@[simp] theorem setCode_roundKey (s : State) (c r : Nat) : (s.setCode c).roundKey r = s.roundKey r := rfl

@[simp] theorem setKsv_ksv (s : State) : s.setKsv.ksv = true := by
  simp [State.ksv, State.setKsv]

@[simp] theorem setStrat_ksv (s : State) (t : Strategy) : (s.setStrat t).ksv = s.ksv := by
  cases t <;> simp [State.ksv, State.setStrat]

@[simp] theorem setStrat_strat (s : State) (t : Strategy) : (s.setStrat t).strat = t := by
  cases t <;> simp [State.strat, State.setStrat]

@[simp] theorem setKsv_strat (s : State) : s.setKsv.strat = s.strat := by
  simp [State.strat, State.setKsv]

@[simp] theorem reset_buf (i : BufIx) : State.reset.buf i = none := by
  simp [State.buf, State.reset]

@[simp] theorem reset_roundKey (r : Nat) : State.reset.roundKey r = none := by
  by_cases h : r - 1 < 16 <;> simp [State.roundKey, State.reset, h]

end Sys2Proof.Machine
end

