-- ==== Sys2Proof/Laws/Ops.lean ====
section
/-! SUPPORT. The laws of the shared operations: the `BUF_CAP` check, the commit of a command, taking a fault, and
reading operands. -/

namespace Sys2Proof.Machine

/-- `BUF_CAP >= 512`, whatever it is (00_scope.md R5). -/
theorem bufCap_ge : 512 ≤ Config.bufCap := by simp [Config.bufCap, Config.bufCapLeast]

@[simp] theorem tooLong_iff (n : Nat) : tooLong n = true ↔ Config.bufCap < n := by
  have := bufCap_ge
  simp only [tooLong, Bool.and_eq_true, decide_eq_true_eq]
  simp only [Config.bufCapLeast]
  omega

theorem tooLong_false (n : Nat) (h : n ≤ Config.bufCap) : tooLong n = false := by
  rw [Bool.eq_false_iff, Ne, tooLong_iff]; omega

theorem tooLong_small (n : Nat) (h : n ≤ 512) : tooLong n = false := tooLong_false n (h.trans bufCap_ge)

theorem commitBuf_ok (s : State) (rd : BufIx) (v : Bytes) (h : v.length ≤ Config.bufCap) :
    commitBuf s rd v = .ok (s.setBuf rd v) := by simp [commitBuf, tooLong_false _ h]

theorem commitBuf_error (s : State) (rd : BufIx) (v : Bytes) (h : Config.bufCap < v.length) :
    commitBuf s rd v = .error .outOfRange := by simp [commitBuf, (tooLong_iff _).2 h]

/-- Everything a buffer commit can do. -/
theorem commitBuf_cases (s : State) (rd : BufIx) (v : Bytes) :
    (v.length ≤ Config.bufCap ∧ commitBuf s rd v = .ok (s.setBuf rd v)) ∨
    (Config.bufCap < v.length ∧ commitBuf s rd v = .error .outOfRange) := by
  rcases Nat.lt_or_ge Config.bufCap v.length with h | h
  · exact .inr ⟨h, commitBuf_error s rd v h⟩
  · exact .inl ⟨h, commitBuf_ok s rd v h⟩

@[simp] theorem finish_ok (s t : State) : finish s (.ok t) = .next (t.setCode 0) := rfl
@[simp] theorem finish_error (s : State) (e : CmdFault) : finish s (.error e) = .next (s.raise e) := rfl

/-- A command always ends in a next state: its results committed, or its fault taken in the state before it. -/
theorem finish_cases {s t : State} {r : Except CmdFault State} (h : finish s r = .next t) :
    (∃ u, r = .ok u ∧ t = u.setCode 0) ∨ (∃ e, r = .error e ∧ t = s.raise e) := by
  cases r with
  | ok u => exact .inl ⟨u, rfl, by simpa using h.symm⟩
  | error e => exact .inr ⟨e, rfl, by simpa using h.symm⟩

theorem finish_total (s : State) (r : Except CmdFault State) : ∃ t, finish s r = .next t := by
  cases r <;> exact ⟨_, rfl⟩

@[simp] theorem bind_ok {α β : Type} (a : α) (f : α → Except CmdFault β) : (Except.ok a >>= f) = f a := rfl
@[simp] theorem bind_error {α β : Type} (e : CmdFault) (f : α → Except CmdFault β) :
    ((Except.error e : Except CmdFault α) >>= f) = .error e := rfl

/-- A sequence that succeeds has a first part that does. -/
theorem bind_eq_ok {α β : Type} {x : Except CmdFault α} {f : α → Except CmdFault β} {b : β} (h : (x >>= f) = .ok b) :
    ∃ a, x = .ok a ∧ f a = .ok b := by
  cases x with
  | ok a => exact ⟨a, rfl, h⟩
  | error e => simp at h

/-- A sequence that faults does so in its first part or in its second. -/
theorem bind_eq_error {α β : Type} {x : Except CmdFault α} {f : α → Except CmdFault β} {e : CmdFault}
    (h : (x >>= f) = .error e) : x = .error e ∨ ∃ a, x = .ok a ∧ f a = .error e := by
  cases x with
  | ok a => exact .inr ⟨a, rfl, h⟩
  | error e' => exact .inl (by simpa using h)

@[simp] theorem operand_some {s : State} {i : BufIx} {b : Bytes} (h : s.buf i = some b) : operand s i = .ok b := by
  simp [operand, h]

@[simp] theorem operand_none {s : State} {i : BufIx} (h : s.buf i = none) : operand s i = .error .invalidArgument := by
  simp [operand, h]

theorem operand_eq_ok {s : State} {i : BufIx} {b : Bytes} (h : operand s i = .ok b) : s.buf i = some b := by
  unfold operand at h; split at h <;> simp_all

@[simp] theorem requireSchedule_true {s : State} (h : s.ksv = true) : requireSchedule s = .ok () := by
  simp [requireSchedule, h]

@[simp] theorem requireSchedule_false {s : State} (h : s.ksv = false) :
    requireSchedule s = .error .invalidState := by simp [requireSchedule, h]

@[simp] theorem requireLength_eq {b : Bytes} {n : Nat} (h : b.length = n) : requireLength b n = .ok () := by
  simp [requireLength, h]

@[simp] theorem requireLength_ne {b : Bytes} {n : Nat} (h : b.length ≠ n) :
    requireLength b n = .error .invalidArgument := by simp [requireLength, h]

theorem requireLength_eq_ok {b : Bytes} {n : Nat} {u : Unit} (h : requireLength b n = .ok u) : b.length = n := by
  unfold requireLength at h; split at h <;> simp_all

@[simp] theorem roundKeyOperand_some {s : State} {r : Nat} {k : Bytes} (h : s.roundKey r = some k) :
    roundKeyOperand s r = .ok k := by simp [roundKeyOperand, h]

/-- Operands are read from `B` alone. -/
theorem operand_congr {s t : State} (h : s.bufs = t.bufs) (i : BufIx) : operand s i = operand t i := by
  simp [operand, buf_congr h]

theorem roundKeyOperand_congr {s t : State} (h : s.ks = t.ks) (r : Nat) :
    roundKeyOperand s r = roundKeyOperand t r := by
  simp [roundKeyOperand, roundKey_congr h]

theorem requireSchedule_congr {s t : State} (h : s.ctx = t.ctx) : requireSchedule s = requireSchedule t := by
  simp [requireSchedule, ksv_congr h]

end Sys2Proof.Machine
end

