-- ==== Sys2Proof/Laws/BitOps.lean ====
section
/-! SUPPORT. The laws of the BitOps functions: each one's value where its checks pass, and the length and the bits of
that value. The commands and the cipher cite these instead of unfolding the functions. -/

namespace Sys2Proof.Machine

theorem positionOutside_false {b : Bytes} {p : Int} (h0 : 0 ≤ p) (h : p < 8 * (b.length : Int)) :
    positionOutside b p = false := by
  simp only [positionOutside, Bool.or_eq_false_iff, decide_eq_false_iff_not]
  omega

theorem positionOutside_true {b : Bytes} {p : Int} (h : p < 0 ∨ 8 * (b.length : Int) ≤ p) :
    positionOutside b p = true := by
  simp only [positionOutside, Bool.or_eq_true, decide_eq_true_eq]
  omega

theorem rangeOutside_false {b : Bytes} {st n : Int} (h0 : 0 ≤ st) (h : st + n ≤ 8 * (b.length : Int)) :
    rangeOutside b st n = false := by
  simp only [rangeOutside, Bool.or_eq_false_iff, decide_eq_false_iff_not]
  omega

theorem rangeOutside_true {b : Bytes} {st n : Int} (h : st < 0 ∨ 8 * (b.length : Int) < st + n) :
    rangeOutside b st n = true := by
  simp only [rangeOutside, Bool.or_eq_true, decide_eq_true_eq]
  omega

theorem getBitF_ok {b : Bytes} {p : Int} (h0 : 0 ≤ p) (h : p < 8 * (b.length : Int)) :
    getBitF b p = .ok (bit b p.toNat) := by simp [getBitF, positionOutside_false h0 h]

theorem setBitF_ok {b : Bytes} {p v : Int} (hv : v = 0 ∨ v = 1) (h0 : 0 ≤ p) (h : p < 8 * (b.length : Int)) :
    setBitF b p v = .ok (memWrite b p.toNat (decide (v = 1))) := by
  have : ¬(v ≠ 0 ∧ v ≠ 1) := by omega
  simp [setBitF, positionOutside_false h0 h, this]

theorem extendF_ok {b : Bytes} {n : Int} (h0 : 0 < n) (h : (b.length : Int) ≤ n) :
    extendF b n = .ok (b ++ zeros (n.toNat - b.length)) := by
  simp [extendF, show ¬ n ≤ 0 by omega, show ¬ n < (b.length : Int) by omega]

theorem getBitsF_ok {b : Bytes} {st n : Int} (hn : 0 < n) (h0 : 0 ≤ st) (h : st + n ≤ 8 * (b.length : Int)) :
    getBitsF b st n = .ok (pack (memRead b st.toNat n.toNat)) := by
  simp [getBitsF, show ¬ n ≤ 0 by omega, rangeOutside_false h0 h]

theorem rotlF_ok {b : Bytes} {len sh : Int} (hl : 0 < len) (hs : 0 ≤ sh) (h : len ≤ 8 * (b.length : Int)) :
    rotlF b len sh = .ok (pack (rotateBits (memRead b 0 len.toNat) sh.toNat)) := by
  simp [rotlF, show ¬ len ≤ 0 by omega, show ¬ sh < 0 by omega, show ¬ 8 * (b.length : Int) < len by omega]

theorem separateF_ok {b : Bytes} {g : Int} (h0 : 0 < g) (h8 : g ≤ 8) (h : 8 * b.length % g.toNat = 0) :
    separateF b g = .ok ((List.range (8 * b.length / g.toNat)).map fun k =>
      (pack (memRead b (k * g.toNat) g.toNat)).headD 0) := by
  simp [separateF, show ¬(g ≤ 0 ∨ 8 < g) by omega, h]

theorem concatF_ok {a c : Bytes} {na nc : Int} (ha : 0 < na) (hc : 0 < nc) (la : na ≤ 8 * (a.length : Int))
    (lc : nc ≤ 8 * (c.length : Int)) :
    concatF a na c nc = .ok (pack (memRead a 0 na.toNat ++ memRead c 0 nc.toNat)) := by
  simp [concatF, show ¬(na ≤ 0 ∨ nc ≤ 0) by omega,
    show ¬(8 * (a.length : Int) < na ∨ 8 * (c.length : Int) < nc) by omega]

@[simp] theorem padTo_length (b : Bytes) (n : Nat) : (padTo b n).length = max b.length n := by
  simp [padTo]; omega

@[simp] theorem xorF_length (a c : Bytes) : (xorF a c).length = max a.length c.length := by
  simp [xorF]

theorem padTo_bit (b : Bytes) (n p : Nat) : bit (padTo b n) p = bit b p := by
  by_cases h : p < 8 * b.length
  · exact bit_append_left _ _ _ h
  · have e : p = 8 * b.length + (p - 8 * b.length) := by omega
    rw [bit_outside b p (by omega), padTo, e, bit_append_right, bit_zeros]

/-- The bits of an exclusive or; a bit past a buffer's end counts as 0 (41_bitops.md R106). -/
theorem xorF_bit (a c : Bytes) (p : Nat) : bit (xorF a c) p = (bit a p ^^ bit c p) := by
  by_cases h : p < 8 * max a.length c.length
  · have h' : p / 8 < max a.length c.length := by omega
    rw [← padTo_bit a (max a.length c.length) p, ← padTo_bit c (max a.length c.length) p]
    have ha : p / 8 < (padTo a (max a.length c.length)).length := by rw [padTo_length]; omega
    have hc : p / 8 < (padTo c (max a.length c.length)).length := by rw [padTo_length]; omega
    simp only [bit, xorF, List.getD_eq_getElem?_getD, List.getElem?_zipWith, List.getElem?_eq_getElem ha,
      List.getElem?_eq_getElem hc, Option.getD_some, BitVec.getLsbD_xor]
  · rw [bit_outside _ p (by rw [xorF_length]; omega), bit_outside a p (by omega), bit_outside c p (by omega)]; rfl

@[simp] theorem rotateBits_length (x : List Bool) (sh : Nat) : (rotateBits x sh).length = x.length := by
  simp [rotateBits]

theorem rotateBits_getD (x : List Bool) (sh i : Nat) :
    (rotateBits x sh).getD i false = (decide (i < x.length) && x.getD ((i + sh) % x.length) false) := by
  by_cases h : i < x.length
  · simp [rotateBits, List.getD_eq_getElem?_getD, h]
  · simp [rotateBits, List.getD_eq_getElem?_getD, h]

/-- The bits of a range read and left-packed (41_bitops.md R108). -/
theorem pack_memRead_bit (b : Bytes) (st n p : Nat) :
    bit (pack (memRead b st n)) p = (decide (p < n) && bit b (st + p)) := by rw [pack_bit, memRead_getD]

theorem headD_packBit (l : List Bool) (j : Nat) (hj : j < 8) : ((pack l).headD 0).getLsbD (7 - j) = l.getD j false := by
  rw [← pack_bit]
  have e1 : j / 8 = 0 := by omega
  have e2 : j % 8 = j := by omega
  simp only [bit, e1, e2]
  cases pack l <;> rfl

/-- The bits of a separated stream: group `k` lies left-packed in byte `k` (41_bitops.md R114). -/
theorem separate_bit (b : Bytes) (g m k j : Nat) (hk : k < m) (hj : j < 8) :
    bit ((List.range m).map fun k => (pack (memRead b (k * g) g)).headD 0) (8 * k + j)
      = (decide (j < g) && bit b (k * g + j)) := by
  have e1 : (8 * k + j) / 8 = k := by omega
  have e2 : (8 * k + j) % 8 = j := by omega
  have e3 : ((List.range m).map fun k => (pack (memRead b (k * g) g)).headD 0).getD k 0
      = (pack (memRead b (k * g) g)).headD 0 := by
    simp [List.getD_eq_getElem?_getD, hk]
  rw [bit, e1, e2, e3, headD_packBit _ _ hj, memRead_getD]

/-- The bits of a rotated range (41_bitops.md R112). -/
theorem rotl_bit (b : Bytes) (len sh p : Nat) :
    bit (pack (rotateBits (memRead b 0 len) sh)) p = (decide (p < len) && bit b ((p + sh) % len)) := by
  rw [pack_bit, rotateBits_getD, memRead_length, memRead_getD]
  by_cases h : p < len
  · simp [h, Nat.mod_lt _ (show 0 < len by omega)]
  · simp [h]

/-- The bits of two joined series (41_bitops.md R116). -/
theorem concat_bit (a c : Bytes) (na nc p : Nat) :
    bit (pack (memRead a 0 na ++ memRead c 0 nc)) p
      = if p < na then bit a p else (decide (p < na + nc) && bit c (p - na)) := by
  rw [pack_bit]
  by_cases h : p < na
  · have h' : p < (memRead a 0 na).length := by simpa using h
    rw [List.getD_eq_getElem?_getD, List.getElem?_append_left h', ← List.getD_eq_getElem?_getD, memRead_getD]
    simp [h]
  · have h' : (memRead a 0 na).length ≤ p := by simpa using h
    rw [List.getD_eq_getElem?_getD, List.getElem?_append_right h', ← List.getD_eq_getElem?_getD, memRead_getD,
      memRead_length]
    simp [h, show p - na < nc ↔ p < na + nc by omega]

@[simp] theorem byteText_length (f : Config.TostringFmt) (x : Byte) : (byteText f x).length = 8 := by simp [byteText]

theorem groupsText_length (f : Config.TostringFmt) (b : Bytes) : (groupsText f b).length = 9 * b.length - 1 := by
  induction b using groupsText.induct with
  | case1 => rfl
  | case2 x => simp [groupsText]
  | case3 x y rest ih =>
    rw [groupsText, List.length_append, List.length_cons, ih, byteText_length]; simp only [List.length_cons]; omega

@[simp] theorem endText_length (f : Config.TostringFmt) (p : Bool) : (endText f p).length = p.toNat := by
  cases p <;> rfl

@[simp] theorem tostringText_nil (f : Config.TostringFmt) : tostringText f [] = f.empty := rfl

/-- The text of a buffer that is not empty: its ends and its groups (41_bitops.md R118). -/
theorem tostringText_ne_nil (f : Config.TostringFmt) {b : Bytes} (h : 0 < b.length) :
    tostringText f b = endText f f.leading ++ (groupsText f b ++ endText f f.trailing) := by
  cases b with
  | nil => simp at h
  | cons x rest => rfl

theorem tostringText_length (f : Config.TostringFmt) {b : Bytes} (h : 0 < b.length) :
    (tostringText f b).length = f.leading.toNat + (9 * b.length - 1) + f.trailing.toNat := by
  rw [tostringText_ne_nil f h]; simp only [List.length_append, endText_length, groupsText_length]; omega

/-- The commit of a text is the commit of any buffer result (30_encoding.md R76 step 4). -/
theorem commitText_eq (s : State) (rd : BufIx) (b : Bytes) :
    commitText s rd b = commitBuf s rd (tostringText Config.tostringFmt b) := by
  unfold commitText
  split
  · rename_i h
    have h1 := Bool.toNat_le Config.tostringFmt.leading
    have h2 := Bool.toNat_le Config.tostringFmt.trailing
    have h3 := bufCap_ge
    rw [commitBuf_ok _ _ _ (by rw [tostringText_length _ h.1]; omega)]
  · rfl

end Sys2Proof.Machine
end

