-- ==== Sys2Proof/Laws/Cipher.lean ====
section
/-! SUPPORT. The laws of the permutation engine, the key schedule and the Feistel engine: what each function answers
on operands of the checked lengths. -/

namespace Sys2Proof.Machine

theorem permuteF_ok {b : Bytes} {t : List Nat} (h : ∀ e ∈ t, e < 8 * b.length) :
    permuteF b t = .ok (pack (t.map (bit b))) := by
  have : t.any (fun e => decide (8 * b.length ≤ e)) = false := by
    simp only [List.any_eq_false, decide_eq_true_eq]
    intro e he; have := h e he; omega
  simp [permuteF, this]

theorem permuteF_error {b : Bytes} {t : List Nat} {e : Nat} (he : e ∈ t) (h : 8 * b.length ≤ e) :
    permuteF b t = .error .outOfRange := by
  have : t.any (fun e => decide (8 * b.length ≤ e)) = true := by
    simp only [List.any_eq_true, decide_eq_true_eq]
    exact ⟨e, he, h⟩
  simp [permuteF, this]

/-- Output bit `i` is input bit `T[i]` (42_permutation.md R150). -/
theorem permute_bit (b : Bytes) (t : List Nat) (i : Nat) (h : i < t.length) :
    bit (pack (t.map (bit b))) i = bit b t[i] := by
  rw [pack_bit]; simp [List.getD_eq_getElem?_getD, h]

/-- How many input bits a fixed table needs (42_permutation.md R151). -/
def tableNeeds (t : PermTable) : Nat :=
  match t with
  | .ip => 64
  | .fp => 64
  | .e => 32
  | .p => 32
  | .pc1 => 64
  | .pc2 => 56

/-- How many output bits a fixed table gives (42_permutation.md R151). -/
def tableSize (t : PermTable) : Nat :=
  match t with
  | .ip => 64
  | .fp => 64
  | .e => 48
  | .p => 32
  | .pc1 => 56
  | .pc2 => 48

theorem table0_lt (t : PermTable) : ∀ e ∈ table0 t, e < tableNeeds t := by cases t <;> decide

theorem table0_length (t : PermTable) : (table0 t).length = tableSize t := by cases t <;> rfl

/-- A fixed table on an input that is long enough. -/
theorem permuteTable_ok {b : Bytes} {t : PermTable} (h : tableNeeds t ≤ 8 * b.length) :
    permuteF b (table0 t) = .ok (pack ((table0 t).map (bit b))) :=
  permuteF_ok fun e he => (table0_lt t e he).trans_le h

@[simp] theorem permuteTable_length (b : Bytes) (t : PermTable) :
    (pack ((table0 t).map (bit b))).length = ceil8 (tableSize t) := by simp [table0_length]

@[simp] theorem nibbleBits_length (v : Nat) : (nibbleBits v).length = 4 := rfl

theorem substitute_length {g : Bytes} (h : g.length = 8) : (substitute g).length = 32 := by
  match g, h with
  | [_, _, _, _, _, _, _, _], _ => rfl

/-- The 48 bits that go into the S-boxes: the expanded half xor the key (44_feistel.md R200). -/
def expandXor (r k : Bytes) : Bytes := xorF (pack ((table0 .e).map (bit r))) k

/-- The eight left-packed groups of those bits (44_feistel.md R200). -/
def feistelGroups (r k : Bytes) : Bytes :=
  (List.range 8).map fun j => (pack (memRead (expandXor r k) (j * 6) 6)).headD 0

/-- The round function's value on a 4-byte half and a 6-byte key (44_feistel.md R200). -/
def feistelValue (r k : Bytes) : Bytes := pack ((table0 .p).map (bit (pack (substitute (feistelGroups r k)))))

@[simp] theorem feistelValue_length (r k : Bytes) : (feistelValue r k).length = 4 := permuteTable_length _ .p

/-- The round function on a 4-byte half and a 6-byte key: no inner call faults (00_scope.md R10). -/
theorem feistelF_ok {r k : Bytes} (hr : r.length = 4) (hk : k.length = 6) :
    feistelF r k = .ok (feistelValue r k) := by
  have h1 : tableNeeds .e ≤ 8 * r.length := by rw [hr]; decide
  have hx : (expandXor r k).length = 6 := by rw [expandXor, xorF_length, permuteTable_length, hk]; rfl
  have h2 : separateF (expandXor r k) 6 = .ok (feistelGroups r k) := by
    rw [separateF_ok (by decide) (by decide) (by rw [hx]; rfl), hx]; rfl
  rw [feistelF, permuteTable_ok h1, bind_ok, ← expandXor, h2, bind_ok]
  apply permuteTable_ok
  rw [pack_length, substitute_length (by simp [feistelGroups])]
  decide

/-- One round on two 4-byte halves: new L is old R, new R is old L xor `F(R, K)` (44_feistel.md R202). -/
theorem feistelRound_ok {k l r : Bytes} (hl : l.length = 4) (hr : r.length = 4) (hk : k.length = 6) :
    feistelRound k l r = .ok (r, xorF l (feistelValue r k)) ∧ (xorF l (feistelValue r k)).length = 4 :=
  ⟨by simp [feistelRound, feistelF_ok hr hk], by simp [hl]⟩

/-- Rounds with keys that are all there keep both halves 4 bytes long. -/
theorem feistelRounds_ok {key : Nat → Except CmdFault Bytes} (ns : List Nat) (l r : Bytes) (hl : l.length = 4)
    (hr : r.length = 4) (hk : ∀ n ∈ ns, ∃ k, key n = .ok k ∧ k.length = 6) :
    ∃ l' r', feistelRounds key ns l r = .ok (l', r') ∧ l'.length = 4 ∧ r'.length = 4 := by
  induction ns generalizing l r with
  | nil => exact ⟨l, r, rfl, hl, hr⟩
  | cons n ns ih =>
    obtain ⟨k, hkey, hklen⟩ := hk n (by simp)
    obtain ⟨hround, hx⟩ := feistelRound_ok hl hr hklen
    obtain ⟨l', r', h, h1, h2⟩ := ih r (xorF l (feistelValue r k)) hr hx fun m hm => hk m (by simp [hm])
    exact ⟨l', r', by simp [feistelRounds, hkey, hround, h], h1, h2⟩

theorem keyOrder_range (t : Strategy) : ∀ n ∈ keyOrder t, 1 ≤ n ∧ n ≤ 16 := by cases t <;> decide

/-- The left half of a permuted block (44_feistel.md R204 step 2). -/
def leftHalf (blk : Bytes) : Bytes := pack (memRead (pack ((table0 .ip).map (bit blk))) 0 32)

/-- The right half of a permuted block (44_feistel.md R204 step 2). -/
def rightHalf (blk : Bytes) : Bytes := pack (memRead (pack ((table0 .ip).map (bit blk))) 32 32)

/-- The swap, the join and the final permutation (44_feistel.md R204 step 4). -/
def finalBlock (l r : Bytes) : Bytes := pack ((table0 .fp).map (bit (pack (memRead r 0 32 ++ memRead l 0 32))))

@[simp] theorem leftHalf_length (blk : Bytes) : (leftHalf blk).length = 4 := by simp [leftHalf, ceil8]
@[simp] theorem rightHalf_length (blk : Bytes) : (rightHalf blk).length = 4 := by simp [rightHalf, ceil8]
@[simp] theorem finalBlock_length (l r : Bytes) : (finalBlock l r).length = 8 := permuteTable_length _ .fp

/-- TRANSFORM's function on an 8-byte block: the rounds between the split and the join. -/
theorem transformBlock_eq {t : Strategy} {key : Nat → Except CmdFault Bytes} {blk l r : Bytes} (hb : blk.length = 8)
    (h : feistelRounds key (keyOrder t) (leftHalf blk) (rightHalf blk) = .ok (l, r)) (hl : l.length = 4)
    (hr : r.length = 4) : transformBlock t key blk = .ok (finalBlock l r) := by
  have h1 : tableNeeds .ip ≤ 8 * blk.length := by rw [hb]; decide
  have hx : (pack ((table0 .ip).map (bit blk))).length = 8 := permuteTable_length blk .ip
  have h2 : getBitsF (pack ((table0 .ip).map (bit blk))) 0 32 = .ok (leftHalf blk) :=
    getBitsF_ok (by decide) (by decide) (by rw [hx]; decide)
  have h3 : getBitsF (pack ((table0 .ip).map (bit blk))) 32 32 = .ok (rightHalf blk) :=
    getBitsF_ok (by decide) (by decide) (by rw [hx]; decide)
  have h5 : concatF r 32 l 32 = .ok (pack (memRead r 0 32 ++ memRead l 0 32)) :=
    concatF_ok (by decide) (by decide) (by rw [hr]; decide) (by rw [hl]; decide)
  rw [transformBlock, permuteTable_ok h1, bind_ok, h2, bind_ok, h3, bind_ok, h, bind_ok, h5, bind_ok]
  apply permuteTable_ok
  simp [ceil8, tableNeeds]

/-- TRANSFORM's function on an 8-byte block with all sixteen keys there. -/
theorem transformBlock_ok {t : Strategy} {key : Nat → Except CmdFault Bytes} {blk : Bytes} (hb : blk.length = 8)
    (hk : ∀ n, 1 ≤ n → n ≤ 16 → ∃ k, key n = .ok k ∧ k.length = 6) :
    ∃ v, transformBlock t key blk = .ok v ∧ v.length = 8 := by
  obtain ⟨l, r, h, hl, hr⟩ := feistelRounds_ok (key := key) (keyOrder t) (leftHalf blk) (rightHalf blk) (by simp)
    (by simp) fun n hn => hk n (keyOrder_range t n hn).1 (keyOrder_range t n hn).2
  exact ⟨_, transformBlock_eq hb h hl hr, finalBlock_length l r⟩

theorem shiftAmount_pos (r : Nat) : 1 ≤ shiftAmount r ∧ shiftAmount r ≤ 2 := by
  unfold shiftAmount; split <;> decide

/-- A half rotated for round `r` (43_key_schedule.md R180). -/
def rotHalf (c : Bytes) (r : Nat) : Bytes := pack (rotateBits (memRead c 0 28) (shiftAmount r))

/-- The round key of two rotated halves (43_key_schedule.md R180). -/
def halvesKey (c d : Bytes) : Bytes := pack ((table0 .pc2).map (bit (pack (memRead c 0 28 ++ memRead d 0 28))))

@[simp] theorem rotHalf_length (c : Bytes) (r : Nat) : (rotHalf c r).length = 4 := by simp [rotHalf, ceil8]
@[simp] theorem halvesKey_length (c d : Bytes) : (halvesKey c d).length = 6 := permuteTable_length _ .pc2

theorem rotlF_half {c : Bytes} (hc : c.length = 4) (r : Nat) : rotlF c 28 (shiftAmount r) = .ok (rotHalf c r) := by
  rw [rotlF_ok (by decide) (by omega) (by rw [hc]; decide)]; rfl

/-- One round of the key schedule on two 4-byte halves. -/
theorem scheduleRounds_cons {r : Nat} {rs : List Nat} {c d : Bytes} (hc : c.length = 4) (hd : d.length = 4) :
    scheduleRounds (r :: rs) c d = (do
      let ks ← scheduleRounds rs (rotHalf c r) (rotHalf d r)
      .ok (halvesKey (rotHalf c r) (rotHalf d r) :: ks)) := by
  have h3 : concatF (rotHalf c r) 28 (rotHalf d r) 28
      = .ok (pack (memRead (rotHalf c r) 0 28 ++ memRead (rotHalf d r) 0 28)) :=
    concatF_ok (by decide) (by decide) (by rw [rotHalf_length]; decide) (by rw [rotHalf_length]; decide)
  have h4 : permuteF (pack (memRead (rotHalf c r) 0 28 ++ memRead (rotHalf d r) 0 28)) (table0 .pc2)
      = .ok (halvesKey (rotHalf c r) (rotHalf d r)) := permuteTable_ok (by simp [ceil8, tableNeeds])
  rw [scheduleRounds, rotlF_half hc, bind_ok, rotlF_half hd, bind_ok, h3, bind_ok, h4, bind_ok]

/-- The rounds of the key schedule on two 4-byte halves: one 6-byte key a round. -/
theorem scheduleRounds_ok (rs : List Nat) (c d : Bytes) (hc : c.length = 4) (hd : d.length = 4) :
    ∃ ks, scheduleRounds rs c d = .ok ks ∧ ks.length = rs.length ∧ ∀ k ∈ ks, k.length = 6 := by
  induction rs generalizing c d with
  | nil => exact ⟨[], rfl, rfl, by simp⟩
  | cons r rs ih =>
    obtain ⟨ks, h, hlen, hks⟩ := ih (rotHalf c r) (rotHalf d r) (by simp) (by simp)
    refine ⟨halvesKey (rotHalf c r) (rotHalf d r) :: ks, by rw [scheduleRounds_cons hc hd, h, bind_ok], by simp [hlen], ?_⟩
    simp only [List.mem_cons]
    rintro k (rfl | hk)
    · simp
    · exact hks k hk

/-- The C half after PC1 (43_key_schedule.md R180). -/
def cHalf (key : Bytes) : Bytes := pack (memRead (pack ((table0 .pc1).map (bit key))) 0 28)

/-- The D half after PC1 (43_key_schedule.md R180). -/
def dHalf (key : Bytes) : Bytes := pack (memRead (pack ((table0 .pc1).map (bit key))) 28 28)

@[simp] theorem cHalf_length (key : Bytes) : (cHalf key).length = 4 := by simp [cHalf, ceil8]
@[simp] theorem dHalf_length (key : Bytes) : (dHalf key).length = 4 := by simp [dHalf, ceil8]

/-- `KS(k)` of an 8-byte key: the rounds on the two halves (43_key_schedule.md R180). -/
theorem keySchedule_eq {key : Bytes} (h : key.length = 8) :
    keySchedule key = scheduleRounds roundNumbers (cHalf key) (dHalf key) := by
  have h1 : tableNeeds .pc1 ≤ 8 * key.length := by rw [h]; decide
  have hx : (pack ((table0 .pc1).map (bit key))).length = 7 := permuteTable_length key .pc1
  have h2 : getBitsF (pack ((table0 .pc1).map (bit key))) 0 28 = .ok (cHalf key) :=
    getBitsF_ok (by decide) (by decide) (by rw [hx]; decide)
  have h3 : getBitsF (pack ((table0 .pc1).map (bit key))) 28 28 = .ok (dHalf key) :=
    getBitsF_ok (by decide) (by decide) (by rw [hx]; decide)
  rw [keySchedule, permuteTable_ok h1, bind_ok, h2, bind_ok, h3, bind_ok]

/-- `KS(k)` of an 8-byte key: sixteen 6-byte keys (43_key_schedule.md R180, R182). -/
theorem keySchedule_ok {key : Bytes} (h : key.length = 8) :
    ∃ ks, keySchedule key = .ok ks ∧ ks.length = 16 ∧ ∀ k ∈ ks, k.length = 6 := by
  obtain ⟨ks, h4, hlen, hks⟩ := scheduleRounds_ok roundNumbers (cHalf key) (dHalf key) (by simp) (by simp)
  exact ⟨ks, by rw [keySchedule_eq h, h4], hlen.trans rfl, hks⟩

/-- Everything SUBKEYS's and WORKER's operand can be (43_key_schedule.md R184). -/
theorem scheduleOperand_cases (s : State) (ra : BufIx) :
    (∃ key ks, s.buf ra = some key ∧ key.length = 8 ∧ keySchedule key = .ok ks ∧ ks.length = 16 ∧
      (∀ k ∈ ks, k.length = 6) ∧ scheduleOperand s ra = .ok ks) ∨
    ((∀ key, s.buf ra = some key → key.length ≠ 8) ∧ scheduleOperand s ra = .error .invalidArgument) := by
  cases hb : s.buf ra with
  | none => exact .inr ⟨by simp, by simp [scheduleOperand, operand_none hb]⟩
  | some key =>
    by_cases hl : key.length = 8
    · obtain ⟨ks, h1, h2, h3⟩ := keySchedule_ok hl
      exact .inl ⟨key, ks, rfl, hl, h1, h2, h3, by simp [scheduleOperand, operand_some hb, requireLength_eq hl, h1]⟩
    · exact .inr ⟨by simpa using hl, by simp [scheduleOperand, operand_some hb, requireLength_ne hl]⟩

end Sys2Proof.Machine
end

