-- ==== Sys2Proof/Laws/Decode.lean ====
section
/-! SUPPORT. The laws of the command word's fields, immediates and selectors. -/

namespace Sys2Proof

/-- Fields that fit their widths (30_encoding.md R71). -/
def Fields.inRange (f : Fields) : Prop :=
  f.opc < 256 ∧ f.rd < 16 ∧ f.ra < 16 ∧ f.rb < 16 ∧ f.sel < 16 ∧ f.rsv < 16 ∧ f.i1 < 4096 ∧ f.i2 < 4096 ∧ f.i3 < 4096

/-- The fields of the word made from them. -/
theorem fieldsOf_word (f : Fields) (h : f.inRange) : fieldsOf f.word = f := by
  obtain ⟨opc, rd, ra, rb, sel, rsv, i1, i2, i3⟩ := f
  simp only [Fields.inRange] at h
  obtain ⟨h1, h2, h3, h4, h5, h6, h7, h8, h9⟩ := h
  simp only [fieldsOf, cwField, Fields.word, BitVec.toNat_ofNat, Fields.mk.injEq]
  refine ⟨?_, ?_, ?_, ?_, ?_, ?_, ?_, ?_, ?_⟩ <;> omega

/-- The word made from the fields of a word. -/
theorem word_fieldsOf (cw : CW) : (fieldsOf cw).word = cw := by
  apply BitVec.eq_of_toNat_eq
  have := cw.isLt
  simp only [fieldsOf, cwField, Fields.word, BitVec.toNat_ofNat]
  omega

theorem fieldsOf_inRange (cw : CW) : (fieldsOf cw).inRange := by
  have := cw.isLt
  simp only [fieldsOf, cwField, Fields.inRange]
  refine ⟨?_, ?_, ?_, ?_, ?_, ?_, ?_, ?_, ?_⟩ <;> omega

theorem imm12_lt (v : Int) : imm12 v < 4096 := by simp only [imm12]; omega

/-- `sext_12` undoes the 12-bit form of an integer in range (30_encoding.md R73). -/
theorem sext12_imm12 (v : Int) (h : immInRange v = true) : sext12 (imm12 v) = v := by
  simp only [immInRange, Bool.and_eq_true, decide_eq_true_eq] at h
  have e : (imm12 v : Int) = v % 4096 := by simp only [imm12]; omega
  unfold sext12
  split <;> omega

theorem imm12_sext12 (n : Nat) (h : n < 4096) : imm12 (sext12 n) = n := by
  unfold imm12 sext12
  split <;> omega

theorem sext12_inRange (n : Nat) (h : n < 4096) : immInRange (sext12 n) = true := by
  simp only [immInRange, Bool.and_eq_true, decide_eq_true_eq]
  unfold sext12
  split <;> omega

@[simp] theorem bufIx_val (r : BufIx) : bufIx r = r := by simp [bufIx]

theorem bufIx_val_of_lt {n : Nat} (h : n < 16) : (bufIx n : Nat) = n := by simp [bufIx, Nat.mod_eq_of_lt h]

@[simp] theorem permTableOf_sel (t : PermTable) : permTableOf (permTableSel t) = some t := by cases t <;> rfl
@[simp] theorem boxOf_sel (k : Box) : boxOf (boxSel k) = some k := by cases k <;> rfl
@[simp] theorem strategyOf_sel (t : Strategy) : strategyOf (strategySel t) = some t := by cases t <;> rfl
@[simp] theorem opOf_opcodeOf (op : Op) : opOf (opcodeOf op) = some op := by cases op <;> rfl

theorem permTableSel_lt (t : PermTable) : permTableSel t < 16 := by cases t <;> decide
theorem boxSel_lt (k : Box) : boxSel k < 16 := by cases k <;> decide
theorem strategySel_lt (t : Strategy) : strategySel t < 16 := by cases t <;> decide
theorem opcodeOf_lt (op : Op) : opcodeOf op < 256 := by cases op <;> decide

end Sys2Proof
end

