-- ==== Sys2Proof/Safety.lean ====
section
/-! DEFINITION. What holds of every state a run reaches, what a safe run is, and which buffer registers a command reads
and writes. -/

namespace Sys2Proof.Machine

/-- What the spec says of every state of the core: buffers within `BUF_CAP` (10_state.md R21), only legal field values
and reserved bits 0 in the registers (R26 to R29), and `KS` a whole schedule of 6-byte keys exactly when `CTX.KSV = 1`
(R29, R30). -/
structure State.Inv (s : State) : Prop where
  bufs : ∀ (i : BufIx) (b : Bytes), s.buf i = some b → b.length ≤ Config.bufCap
  status : s.status.toNat ≤ 4
  result : s.result.toNat ≤ 1
  errflags : s.errflags.toNat ≤ 15
  ctx : s.ctx.toNat ≤ 3
  schedule : s.ksv = true → ∀ r, 1 ≤ r → r ≤ 16 → ∃ k, s.roundKey r = some k ∧ k.length = 6
  noSchedule : s.ksv = false → ∀ r, 1 ≤ r → r ≤ 16 → s.roundKey r = none

/-- A run of `n` steps is safe when it ends in a state: no step stops (60_exceptions.md R252: every interaction
returns). -/
def SafeRun (n : Nat) (s : State) : Prop := ∃ t, Sys2Proof.core.run n s = .next t

/-- The buffer register a command writes on success (10_state.md R22). -/
def dest : Instr → Option BufIx
  | .getbit _ _ => none
  | .setbit rd _ _ => some rd
  | .extend rd _ _ => some rd
  | .xor rd _ _ => some rd
  | .getbits rd _ _ _ => some rd
  | .setbits rd _ _ _ _ => some rd
  | .rotl rd _ _ _ => some rd
  | .separate rd _ _ => some rd
  | .concat rd _ _ _ _ => some rd
  | .tostring rd _ => some rd
  | .perm rd _ _ => some rd
  | .permt rd _ _ => some rd
  | .sbox rd _ _ => some rd
  | .subkeys _ => none
  | .worker _ _ => none
  | .rdkey rd _ => some rd
  | .ffunc rd _ _ => some rd
  | .round rd _ _ => some rd
  | .transform rd _ => some rd

/-- The buffer operands a command reads (10_state.md R22). -/
def sources : Instr → List BufIx
  | .getbit ra _ => [ra]
  | .setbit rd _ _ => [rd]
  | .extend _ ra _ => [ra]
  | .xor _ ra rb => [ra, rb]
  | .getbits _ ra _ _ => [ra]
  | .setbits rd ra _ _ _ => [rd, ra]
  | .rotl _ ra _ _ => [ra]
  | .separate _ ra _ => [ra]
  | .concat _ ra rb _ _ => [ra, rb]
  | .tostring _ ra => [ra]
  | .perm _ ra _ => [ra]
  | .permt _ ra rb => [ra, rb]
  | .sbox _ ra _ => [ra]
  | .subkeys ra => [ra]
  | .worker ra _ => [ra]
  | .rdkey _ _ => []
  | .ffunc _ ra rb => [ra, rb]
  | .round _ ra rb => [ra, rb]
  | .transform _ ra => [ra]

end Sys2Proof.Machine
end

