-- ==== Sys2Proof/Laws/Step.lean ====
section
/-! SUPPORT. What a command and a step can do, each said once: the invariants and frames of the machine cite these. -/

namespace Sys2Proof.Machine

/-- What a command writes on success, before `STATUS` (10_state.md R22; 30_encoding.md R76 step 5). -/
inductive Committed (s : State) : Instr → State → Prop
  | result (ra p v) : Committed s (.getbit ra p) (s.setResult v)
  | buffer {i rd} (v : Bytes) (hd : dest i = some rd) (hv : v.length ≤ Config.bufCap) :
      Committed s i (s.setBuf rd (some v))
  | subkeys (ra key ks) (hb : s.buf ra = some key) (hk : keySchedule key = .ok ks) (hlen : ks.length = 16)
      (h6 : ∀ k ∈ ks, k.length = 6) : Committed s (.subkeys ra) (s.setSchedule ks).setKsv
  | worker (ra key ks t) (hb : s.buf ra = some key) (hk : keySchedule key = .ok ks) (hlen : ks.length = 16)
      (h6 : ∀ k ∈ ks, k.length = 6) : Committed s (.worker ra t) ((s.setSchedule ks).setKsv.setStrat t)

theorem committed_of_commitBuf {s u : State} {i : Instr} {rd : BufIx} {v : Bytes} (hd : dest i = some rd)
    (h : commitBuf s rd v = .ok u) : Committed s i u := by
  rcases commitBuf_cases s rd v with ⟨hv, e⟩ | ⟨-, e⟩
  · rw [e] at h; cases h; exact .buffer v hd hv
  · rw [e] at h; cases h

/-- A computation that does not raise IllegalCommand. -/
def Legal {α : Type} (x : Except CmdFault α) : Prop := x ≠ .error .illegalCommand

theorem legal_ok {α : Type} (a : α) : Legal (.ok a : Except CmdFault α) := by simp [Legal]

theorem legal_bind {α β : Type} {x : Except CmdFault α} {f : α → Except CmdFault β} (hx : Legal x)
    (hf : ∀ a, Legal (f a)) : Legal (x >>= f) := by
  cases x with
  | ok a => exact hf a
  | error e => simpa [Legal] using hx

theorem legal_operand (s : State) (i : BufIx) : Legal (operand s i) := by
  unfold operand; split <;> simp [Legal]
theorem legal_commitBuf (s : State) (i : BufIx) (v : Bytes) : Legal (commitBuf s i v) := by
  unfold commitBuf; split <;> simp [Legal]
theorem legal_requireLength (b : Bytes) (n : Nat) : Legal (requireLength b n) := by
  unfold requireLength; split <;> simp [Legal]
theorem legal_requireSchedule (s : State) : Legal (requireSchedule s) := by
  unfold requireSchedule; split <;> simp [Legal]
theorem legal_roundKeyOperand (s : State) (r : Nat) : Legal (roundKeyOperand s r) := by
  unfold roundKeyOperand; split <;> simp [Legal]
theorem legal_getBitF (b : Bytes) (p : Int) : Legal (getBitF b p) := by
  unfold getBitF; split <;> simp [Legal]
theorem legal_setBitF (b : Bytes) (p v : Int) : Legal (setBitF b p v) := by
  unfold setBitF; split_ifs <;> simp [Legal]
theorem legal_extendF (b : Bytes) (n : Int) : Legal (extendF b n) := by
  unfold extendF; split_ifs <;> simp [Legal]
theorem legal_getBitsF (b : Bytes) (st n : Int) : Legal (getBitsF b st n) := by
  unfold getBitsF; split_ifs <;> simp [Legal]
theorem legal_setBitsF (same : Bool) (d src : Bytes) (ds ss n : Int) : Legal (setBitsF same d src ds ss n) := by
  unfold setBitsF; split_ifs <;> simp [Legal]
theorem legal_rotlF (b : Bytes) (len sh : Int) : Legal (rotlF b len sh) := by
  unfold rotlF; split_ifs <;> simp [Legal]
theorem legal_separateF (b : Bytes) (g : Int) : Legal (separateF b g) := by
  unfold separateF; split_ifs <;> simp [Legal]
theorem legal_concatF (a : Bytes) (na : Int) (c : Bytes) (nc : Int) : Legal (concatF a na c nc) := by
  unfold concatF; split_ifs <;> simp [Legal]
theorem legal_permuteF (b : Bytes) (t : List Nat) : Legal (permuteF b t) := by
  unfold permuteF; split_ifs <;> simp [Legal]
theorem legal_sboxByte (k : Box) (b : Bytes) : Legal (sboxByte k b) := by
  unfold sboxByte; split <;> simp [Legal]
theorem legal_feistelF (r k : Bytes) : Legal (feistelF r k) :=
  legal_bind (legal_permuteF _ _) fun _ => legal_bind (legal_separateF _ _) fun _ => legal_permuteF _ _
theorem legal_feistelRound (k l r : Bytes) : Legal (feistelRound k l r) :=
  legal_bind (legal_feistelF _ _) fun _ => legal_ok _
theorem legal_feistelRounds {key : Nat → Except CmdFault Bytes} (hk : ∀ n, Legal (key n)) (ns : List Nat)
    (l r : Bytes) : Legal (feistelRounds key ns l r) := by
  induction ns generalizing l r with
  | nil => exact legal_ok _
  | cons n ns ih => exact legal_bind (hk n) fun _ => legal_bind (legal_feistelRound _ _ _) fun _ => ih _ _
theorem legal_transformBlock (t : Strategy) {key : Nat → Except CmdFault Bytes} (hk : ∀ n, Legal (key n))
    (blk : Bytes) : Legal (transformBlock t key blk) :=
  legal_bind (legal_permuteF _ _) fun _ => legal_bind (legal_getBitsF _ _ _) fun _ =>
    legal_bind (legal_getBitsF _ _ _) fun _ => legal_bind (legal_feistelRounds hk _ _ _) fun _ =>
      legal_bind (legal_concatF _ _ _ _) fun _ => legal_permuteF _ _

/-- A rule that ends in a buffer commit. -/
theorem committed_of_bind {α : Type} {s u : State} {i : Instr} {x : Except CmdFault α}
    {f : α → Except CmdFault State} (hf : ∀ a u, f a = .ok u → Committed s i u) (h : (x >>= f) = .ok u) :
    Committed s i u := by
  obtain ⟨a, -, h'⟩ := bind_eq_ok h
  exact hf a u h'

/-- The rule of a command as one value: `exec` is `finish` of it. It commits what R22 lists, and it never raises
IllegalCommand, which only the decoder does (60_exceptions.md R230). -/
theorem exec_eq_finish (i : Instr) (s : State) :
    ∃ r, exec i s = finish s r ∧ (∀ u, r = .ok u → Committed s i u) ∧ Legal r := by
  cases i with
  | getbit ra p =>
    refine ⟨_, rfl, fun u h => ?_, legal_bind (legal_operand _ _) fun _ => legal_bind (legal_getBitF _ _) fun _ => legal_ok _⟩
    obtain ⟨b, -, h⟩ := bind_eq_ok h
    obtain ⟨v, -, h⟩ := bind_eq_ok h
    cases h
    exact .result ra p v
  | setbit rd p v =>
    exact ⟨_, rfl, fun u => committed_of_bind fun _ u => committed_of_bind fun _ u => committed_of_commitBuf rfl,
      legal_bind (legal_operand _ _) fun _ => legal_bind (legal_setBitF _ _ _) fun _ => legal_commitBuf _ _ _⟩
  | extend rd ra n =>
    exact ⟨_, rfl, fun u => committed_of_bind fun _ u => committed_of_bind fun _ u => committed_of_commitBuf rfl,
      legal_bind (legal_operand _ _) fun _ => legal_bind (legal_extendF _ _) fun _ => legal_commitBuf _ _ _⟩
  | xor rd ra rb =>
    exact ⟨_, rfl, fun u => committed_of_bind fun _ u => committed_of_bind fun _ u => committed_of_commitBuf rfl,
      legal_bind (legal_operand _ _) fun _ => legal_bind (legal_operand _ _) fun _ => legal_commitBuf _ _ _⟩
  | getbits rd ra st n =>
    exact ⟨_, rfl, fun u => committed_of_bind fun _ u => committed_of_bind fun _ u => committed_of_commitBuf rfl,
      legal_bind (legal_operand _ _) fun _ => legal_bind (legal_getBitsF _ _ _) fun _ => legal_commitBuf _ _ _⟩
  | setbits rd ra ds ss n =>
    exact ⟨_, rfl, fun u => committed_of_bind fun _ u => committed_of_bind fun _ u => committed_of_bind fun _ u =>
        committed_of_commitBuf rfl,
      legal_bind (legal_operand _ _) fun _ => legal_bind (legal_operand _ _) fun _ =>
        legal_bind (legal_setBitsF _ _ _ _ _ _) fun _ => legal_commitBuf _ _ _⟩
  | rotl rd ra len sh =>
    exact ⟨_, rfl, fun u => committed_of_bind fun _ u => committed_of_bind fun _ u => committed_of_commitBuf rfl,
      legal_bind (legal_operand _ _) fun _ => legal_bind (legal_rotlF _ _ _) fun _ => legal_commitBuf _ _ _⟩
  | separate rd ra g =>
    exact ⟨_, rfl, fun u => committed_of_bind fun _ u => committed_of_bind fun _ u => committed_of_commitBuf rfl,
      legal_bind (legal_operand _ _) fun _ => legal_bind (legal_separateF _ _) fun _ => legal_commitBuf _ _ _⟩
  | concat rd ra rb na nc =>
    exact ⟨_, rfl, fun u => committed_of_bind fun _ u => committed_of_bind fun _ u => committed_of_bind fun _ u =>
        committed_of_commitBuf rfl,
      legal_bind (legal_operand _ _) fun _ => legal_bind (legal_operand _ _) fun _ =>
        legal_bind (legal_concatF _ _ _ _) fun _ => legal_commitBuf _ _ _⟩
  | tostring rd ra =>
    refine ⟨_, rfl, fun u => committed_of_bind fun b u h => ?_, legal_bind (legal_operand _ _) fun b => ?_⟩
    · rw [commitText_eq] at h; exact committed_of_commitBuf rfl h
    · rw [commitText_eq]; exact legal_commitBuf _ _ _
  | perm rd ra t =>
    exact ⟨_, rfl, fun u => committed_of_bind fun _ u => committed_of_bind fun _ u => committed_of_commitBuf rfl,
      legal_bind (legal_operand _ _) fun _ => legal_bind (legal_permuteF _ _) fun _ => legal_commitBuf _ _ _⟩
  | permt rd ra rb =>
    exact ⟨_, rfl, fun u => committed_of_bind fun _ u => committed_of_bind fun _ u => committed_of_bind fun _ u =>
        committed_of_commitBuf rfl,
      legal_bind (legal_operand _ _) fun _ => legal_bind (legal_operand _ _) fun _ =>
        legal_bind (legal_permuteF _ _) fun _ => legal_commitBuf _ _ _⟩
  | sbox rd ra k =>
    exact ⟨_, rfl, fun u => committed_of_bind fun _ u => committed_of_bind fun _ u => committed_of_commitBuf rfl,
      legal_bind (legal_operand _ _) fun _ => legal_bind (legal_sboxByte _ _) fun _ => legal_commitBuf _ _ _⟩
  | subkeys ra =>
    rcases scheduleOperand_cases s ra with ⟨key, ks, hb, -, hk, hlen, h6, h⟩ | ⟨-, h⟩
    · exact ⟨.ok (s.setSchedule ks).setKsv, by rw [exec, execSubkeys, h, bind_ok],
        fun u hu => by cases hu; exact .subkeys ra key ks hb hk hlen h6, legal_ok _⟩
    · exact ⟨.error .invalidArgument, by rw [exec, execSubkeys, h, bind_error], by simp, by simp [Legal]⟩
  | worker ra t =>
    rcases scheduleOperand_cases s ra with ⟨key, ks, hb, -, hk, hlen, h6, h⟩ | ⟨-, h⟩
    · exact ⟨.ok ((s.setSchedule ks).setKsv.setStrat t), by rw [exec, execWorker, h, bind_ok],
        fun u hu => by cases hu; exact .worker ra key ks t hb hk hlen h6, legal_ok _⟩
    · exact ⟨.error .invalidArgument, by rw [exec, execWorker, h, bind_error], by simp, by simp [Legal]⟩
  | rdkey rd r =>
    refine ⟨_, rfl, fun u h => ?_, ?_⟩
    · split at h
      · cases h
      · exact committed_of_bind (fun _ u => committed_of_bind fun _ u => committed_of_commitBuf rfl) h
    · split
      · simp [Legal]
      · exact legal_bind (legal_requireSchedule _) fun _ => legal_bind (legal_roundKeyOperand _ _) fun _ =>
          legal_commitBuf _ _ _
  | ffunc rd ra rb =>
    exact ⟨_, rfl, fun u => committed_of_bind fun _ u => committed_of_bind fun _ u => committed_of_bind fun _ u =>
        committed_of_bind fun _ u => committed_of_bind fun _ u => committed_of_commitBuf rfl,
      legal_bind (legal_operand _ _) fun _ => legal_bind (legal_operand _ _) fun _ =>
        legal_bind (legal_requireLength _ _) fun _ => legal_bind (legal_requireLength _ _) fun _ =>
          legal_bind (legal_feistelF _ _) fun _ => legal_commitBuf _ _ _⟩
  | round rd ra rb =>
    exact ⟨_, rfl, fun u => committed_of_bind fun _ u => committed_of_bind fun _ u => committed_of_bind fun _ u =>
        committed_of_bind fun _ u => committed_of_bind fun _ u => committed_of_commitBuf rfl,
      legal_bind (legal_operand _ _) fun _ => legal_bind (legal_operand _ _) fun _ =>
        legal_bind (legal_requireLength _ _) fun _ => legal_bind (legal_requireLength _ _) fun _ =>
          legal_bind (legal_feistelRound _ _ _) fun _ => legal_commitBuf _ _ _⟩
  | transform rd ra =>
    exact ⟨_, rfl, fun u => committed_of_bind fun _ u => committed_of_bind fun _ u => committed_of_bind fun _ u =>
        committed_of_bind fun _ u => committed_of_commitBuf rfl,
      legal_bind (legal_operand _ _) fun _ => legal_bind (legal_requireLength _ _) fun _ =>
        legal_bind (legal_requireSchedule _) fun _ =>
          legal_bind (legal_transformBlock _ (legal_roundKeyOperand s) _) fun _ => legal_commitBuf _ _ _⟩

/-- Everything a command can do: its results committed and `STATUS.CODE <- 0`, or its fault taken. -/
theorem exec_cases {i : Instr} {s t : State} (h : exec i s = .next t) :
    (∃ u, Committed s i u ∧ t = u.setCode 0) ∨ (∃ e, e ≠ .illegalCommand ∧ t = s.raise e) := by
  obtain ⟨r, hr, hc, he⟩ := exec_eq_finish i s
  rw [hr] at h
  rcases finish_cases h with ⟨u, hu, rfl⟩ | ⟨e, hu, rfl⟩
  · exact .inl ⟨u, hc u hu, rfl⟩
  · exact .inr ⟨e, fun e' => he (by rw [hu, e']), rfl⟩

/-- A command always ends in a next state. -/
theorem exec_total (i : Instr) (s : State) : ∃ t, exec i s = .next t := by
  obtain ⟨r, hr, -⟩ := exec_eq_finish i s
  rw [hr]; exact finish_total s r

/-- With nothing left to do a step changes nothing (60_exceptions.md R243). -/
theorem step_idle {s : State} (h : s.upcoming = none) : step s = .next s := by simp [step, h]

/-- A step performs the host's next interaction. -/
theorem step_interact {s : State} {q : Interaction} (h : s.upcoming = some q) :
    step s = interact q { s with port := none } := by simp [step, h]

end Sys2Proof.Machine
end

