-- ==== Sys2Proof/Certificates/Slice0/Obligations.lean ====
section
/-! DEFINITION. The statements for the provers. What they are written with comes first: the state a fault leaves, the
state a buffer result leaves, the opcode table, and DES as functions of bits. -/

namespace Sys2Proof.Claims

open Sys2Proof Sys2Proof.Machine

/-- The state a fault with code `c` leaves: `STATUS.CODE`, the bit of `ERRFLAGS`, nothing else (60_exceptions.md
R232). -/
def faulted (s : State) (c : Nat) : State :=
  { s with status := BitVec.ofNat 32 c, errflags := s.errflags ||| (1#32 <<< (c - 1)) }

/-- The state a command leaves that writes `v` to `B[rd]`: that register, `STATUS = 0`, nothing else (30_encoding.md
R76 step 5). -/
def wrote (s : State) (rd : BufIx) (v : Bytes) : State :=
  { s with bufs := s.bufs.set rd (some v), status := 0 }

/-- A length within `BUF_CAP` (10_state.md R21). -/
def fits (n : Nat) : Prop := n ≤ Config.bufCap

/-- The state once the host's next interaction is taken up and its reply given. -/
def taken (s : State) (r : Reply) : State := { s with port := none, replies := r :: s.replies }

/-- The command word with given fields, `RSV` = 0 and immediates mod 4096 (the formula of 30_encoding.md R71; R73). -/
def cwOf (opc rd ra rb sel : Nat) (i1 i2 i3 : Int) : Int :=
  opc * 2 ^ 56 + rd * 2 ^ 52 + ra * 2 ^ 48 + rb * 2 ^ 44 + sel * 2 ^ 40 + i1 % 4096 * 2 ^ 24 + i2 % 4096 * 2 ^ 12
    + i3 % 4096

/-- A command's word as a number. -/
def wordOf (i : Instr) : Int := (encode i).toNat

/-- `CW[43:40]` (30_encoding.md R71). -/
def selOf (cw : CW) : Nat := cw.toNat / 2 ^ 40 % 16

/-- A row of spec/opcode_table.json: the command, its mask and match, and how many `SEL` values from 0 up are legal. -/
structure OpcodeRow where
  op : Op
  mask : CW
  value : CW
  sels : Nat

/-- The rows of spec/opcode_table.json. -/
def opcodeRows : List OpcodeRow :=
  [⟨.getbit, 0xFFF0FFF000FFFFFF#64, 0x0100000000000000#64, 1⟩,
   ⟨.setbit, 0xFF0FFFF000000FFF#64, 0x0200000000000000#64, 1⟩,
   ⟨.extend, 0xFF00FFF000FFFFFF#64, 0x0300000000000000#64, 1⟩,
   ⟨.xor, 0xFF000FFFFFFFFFFF#64, 0x0400000000000000#64, 1⟩,
   ⟨.getbits, 0xFF00FFF000000FFF#64, 0x0500000000000000#64, 1⟩,
   ⟨.setbits, 0xFF00FFF000000000#64, 0x0600000000000000#64, 1⟩,
   ⟨.rotl, 0xFF00FFF000000FFF#64, 0x0700000000000000#64, 1⟩,
   ⟨.separate, 0xFF00FFF000FFFFFF#64, 0x0800000000000000#64, 1⟩,
   ⟨.concat, 0xFF000FF000000FFF#64, 0x0900000000000000#64, 1⟩,
   ⟨.tostring, 0xFF00FFFFFFFFFFFF#64, 0x0A00000000000000#64, 1⟩] ++
  [⟨.perm, 0xFF00F0FFFFFFFFFF#64, 0x1000000000000000#64, 6⟩,
   ⟨.permt, 0xFF000FFFFFFFFFFF#64, 0x1100000000000000#64, 1⟩,
   ⟨.sbox, 0xFF00F0FFFFFFFFFF#64, 0x1200000000000000#64, 8⟩,
   ⟨.subkeys, 0xFFF0FFFFFFFFFFFF#64, 0x2000000000000000#64, 1⟩,
   ⟨.worker, 0xFFF0F0FFFFFFFFFF#64, 0x2100000000000000#64, 2⟩,
   ⟨.rdkey, 0xFF0FFFF000FFFFFF#64, 0x2200000000000000#64, 1⟩,
   ⟨.ffunc, 0xFF000FFFFFFFFFFF#64, 0x3000000000000000#64, 1⟩,
   ⟨.round, 0xFF000FFFFFFFFFFF#64, 0x3100000000000000#64, 1⟩,
   ⟨.transform, 0xFF00FFFFFFFFFFFF#64, 0x3200000000000000#64, 1⟩]

/-- A legal command word by the opcode table, for the command `op` (30_encoding.md R75, R79). -/
def legalFor (cw : CW) (op : Op) : Prop :=
  ∃ row ∈ opcodeRows, row.op = op ∧ cw &&& row.mask = row.value ∧ selOf cw < row.sels

/-- The entries, the output bytes and the smallest input in bytes of a fixed table (the table of 42_permutation.md
R151). -/
def tableShape (t : PermTable) : Nat × Nat × Nat :=
  match t with
  | .ip => (64, 8, 8)
  | .fp => (64, 8, 8)
  | .e => (48, 6, 4)
  | .p => (32, 4, 4)
  | .pc1 => (56, 7, 8)
  | .pc2 => (48, 6, 7)

/-- The `SEL` value of a fixed table (30_encoding.md R79). -/
def permSel (t : PermTable) : Nat :=
  match t with
  | .ip => 0
  | .fp => 1
  | .e => 2
  | .p => 3
  | .pc1 => 4
  | .pc2 => 5

/-- The source bit, 0-based, of output bit `i` of a fixed table (42_permutation.md R160 to R165). -/
def source (t : PermTable) (i : Nat) : Nat := (table1 t).getD i 0 - 1

/-- The entry of an S-box at a row and a column (42_permutation.md R166 to R174). -/
def boxEntry (k : Box) (row col : Nat) : Nat := ((boxRows k).getD row []).getD col 0

/-- The S-box output for a group's six bits, first bit first: row from the outer two, column from the inner four
(42_permutation.md R155). -/
def boxOut (k : Box) (g : Nat → Bool) : Nat :=
  boxEntry k (2 * (g 0).toNat + (g 5).toNat)
    (8 * (g 1).toNat + 4 * (g 2).toNat + 2 * (g 3).toNat + (g 4).toNat)

/-- Bit `i` of the round function `f(R, K)`, all as bits (44_feistel.md R200). -/
def fBit (r k : Nat → Bool) (i : Nat) : Bool :=
  (boxOut (allBoxes.getD (source .p i / 4) .s1) fun j =>
    r (source .e (6 * (source .p i / 4) + j)) ^^ k (6 * (source .p i / 4) + j)).testBit (3 - source .p i % 4)

/-- The halves after a list of rounds: `(L, R) <- (R, L xor f(R, KS[n]))` (44_feistel.md R204 step 3). -/
def desRounds (ks : Nat → Nat → Bool) : List Nat → (Nat → Bool) → (Nat → Bool) → (Nat → Bool) × (Nat → Bool)
  | [], l, r => (l, r)
  | n :: ns, l, r => desRounds ks ns r fun i => l i ^^ fBit r (ks n) i

/-- The order of the round keys (44_feistel.md R204). -/
def desOrder (t : Strategy) : List Nat :=
  match t with
  | .encrypt => [1, 2, 3, 4, 5, 6, 7, 8, 9, 10, 11, 12, 13, 14, 15, 16]
  | .decrypt => [16, 15, 14, 13, 12, 11, 10, 9, 8, 7, 6, 5, 4, 3, 2, 1]

/-- The halves after the sixteen rounds on a block `m` (44_feistel.md R204 steps 1 to 3). -/
def desHalves (t : Strategy) (ks : Nat → Nat → Bool) (m : Nat → Bool) : (Nat → Bool) × (Nat → Bool) :=
  desRounds ks (desOrder t) (fun i => m (source .ip i)) (fun i => m (source .ip (32 + i)))

/-- Bit `i` of DES of the block `m` under the round keys `ks`: swap, join, FP (44_feistel.md R204 step 4). -/
def desBit (t : Strategy) (ks : Nat → Nat → Bool) (m : Nat → Bool) (i : Nat) : Bool :=
  if source .fp i < 32 then (desHalves t ks m).2 (source .fp i) else (desHalves t ks m).1 (source .fp i - 32)

/-- The rotation of both halves after round `r`: the sum of `SHIFT[1..r]` (43_key_schedule.md R181). -/
def totalShift (r : Nat) : Nat :=
  ((List.range r).map fun j => if j + 1 = 1 ∨ j + 1 = 2 ∨ j + 1 = 9 ∨ j + 1 = 16 then 1 else 2).sum

/-- The key bit that is bit `i` of round key `r`: PC2, the rotations, PC1 (43_key_schedule.md R180). -/
def keySource (r i : Nat) : Nat :=
  if source .pc2 i < 28 then source .pc1 ((source .pc2 i + totalShift r) % 28)
  else source .pc1 (28 + (source .pc2 i - 28 + totalShift r) % 28)

/-- Bit `i` of the round key in `KS[r]`. -/
def ksBit (s : State) (r i : Nat) : Bool := bit ((s.roundKey r).getD []) i

/-- `KS` holds a whole schedule (10_state.md R30). -/
def scheduled (s : State) : Prop := ∀ r, 1 ≤ r → r ≤ 16 → ∃ k, s.roundKey r = some k ∧ k.length = 6

/-- The fault codes a command's own rule may end with, 0 for success (the table of 60_exceptions.md R231). -/
def mayEndWith (i : Instr) : List Nat :=
  match i with
  | .xor .. => [0, 1]
  | .subkeys .. => [0, 1]
  | .worker .. => [0, 1]
  | .ffunc .. => [0, 1]
  | .round .. => [0, 1]
  | .rdkey .. => [0, 1, 3]
  | .transform .. => [0, 1, 3]
  | .getbit .. => [0, 1, 2]
  | .setbit .. => [0, 1, 2]
  | .extend .. => [0, 1, 2]
  | .getbits .. => [0, 1, 2]
  | .setbits .. => [0, 1, 2]
  | .rotl .. => [0, 1, 2]
  | .separate .. => [0, 1, 2]
  | .concat .. => [0, 1, 2]
  | .tostring .. => [0, 1, 2]
  | .perm .. => [0, 1, 2]
  | .permt .. => [0, 1, 2]
  | .sbox .. => [0, 1, 2]

/-- The text of R118's pseudocode, in the default format (41_bitops.md R118). -/
def specText (b : Bytes) : Bytes :=
  (List.range b.length).flatMap fun i =>
    (if 0 < i then [0x20#8] else []) ++ (List.range 8).map fun j => BitVec.ofNat 8 (0x30 + (bit b (8 * i + j)).toNat)

/-- How many characters a buffer of `n` bytes has as text in a format (41_bitops.md R118). -/
def textLength (f : Config.TostringFmt) (n : Nat) : Nat :=
  if n = 0 then f.empty.length else f.leading.toNat + (9 * n - 1) + f.trailing.toNat

/-- `v` is the text of `b` in a format, character by character (41_bitops.md R118). -/
def isText (f : Config.TostringFmt) (b v : Bytes) : Prop :=
  v.length = textLength f b.length ∧ (b = [] → v = f.empty) ∧
  (b ≠ [] → (f.leading = true → v.getD 0 0 = f.separator) ∧
    (f.trailing = true → v.getD (v.length - 1) 0 = f.separator)) ∧
  ∀ i < b.length,
    (∀ j < 8, v.getD (f.leading.toNat + 9 * i + j) 0
      = if bit b (8 * i + if f.msbFirst then j else 7 - j) then f.one else f.zero) ∧
    (i + 1 < b.length → v.getD (f.leading.toNat + 9 * i + 8) 0 = f.separator)

/-- The bytes of a present buffer register, as a command reads them. -/
def contents (s : State) (r : BufIx) : Bytes := (s.buf r).getD []

/-- The InvalidArgument causes of a command (60_exceptions.md R231). -/
def badArgument (i : Instr) (s : State) : Prop :=
  (∃ r ∈ sources i, s.buf r = none) ∨
  match i with
  | .getbit _ _ => False
  | .setbit _ _ v => v ≠ 0 ∧ v ≠ 1
  | .extend _ _ n => n ≤ 0
  | .xor _ _ _ => False
  | .getbits _ _ _ n => n ≤ 0
  | .setbits rd ra ds ss n => n ≤ 0 ∨ (rd = ra ∧ ds < ss + n ∧ ss < ds + n)
  | .rotl _ _ len sh => len ≤ 0 ∨ sh < 0
  | .separate _ _ g => g < 1 ∨ 8 < g
  | .concat _ _ _ na nc => na ≤ 0 ∨ nc ≤ 0
  | .tostring _ _ => False
  | .perm _ _ _ => False
  | .permt _ _ _ => False
  | .sbox _ _ _ => False
  | .subkeys ra => (contents s ra).length ≠ 8
  | .worker ra _ => (contents s ra).length ≠ 8
  | .rdkey _ r => r < 1 ∨ 16 < r
  | .ffunc _ ra rb => (contents s ra).length ≠ 4 ∨ (contents s rb).length ≠ 6
  | .round _ ra rb => (contents s ra).length ≠ 8 ∨ (contents s rb).length ≠ 6
  | .transform _ ra => (contents s ra).length ≠ 8

/-- The InvalidState causes of a command: RDKEY and TRANSFORM with `KSV = 0` (60_exceptions.md R231). -/
def badState (i : Instr) (s : State) : Prop :=
  ((∃ rd r, i = .rdkey rd r) ∨ ∃ rd ra, i = .transform rd ra) ∧ s.ctx.getLsbD 0 = false

/-- The OutOfRange causes of a command (60_exceptions.md R231). -/
def outside (i : Instr) (s : State) : Prop :=
  match i with
  | .getbit ra p => p < 0 ∨ 8 * ((contents s ra).length : Int) ≤ p
  | .setbit rd p _ => p < 0 ∨ 8 * ((contents s rd).length : Int) ≤ p
  | .extend _ ra n => n < ((contents s ra).length : Int) ∨ (Config.bufCap : Int) < n
  | .xor _ _ _ => False
  | .getbits _ ra st n => st < 0 ∨ 8 * ((contents s ra).length : Int) < st + n
  | .setbits rd ra ds ss n => ss < 0 ∨ 8 * ((contents s ra).length : Int) < ss + n ∨ ds < 0 ∨
      8 * ((contents s rd).length : Int) < ds + n
  | .rotl _ ra len _ => 8 * ((contents s ra).length : Int) < len
  | .separate _ ra g => 8 * ((contents s ra).length : Int) % g ≠ 0 ∨
      (Config.bufCap : Int) < 8 * ((contents s ra).length : Int) / g
  | .concat _ ra rb na nc => 8 * ((contents s ra).length : Int) < na ∨ 8 * ((contents s rb).length : Int) < nc
  | .tostring _ ra => Config.bufCap < textLength Config.tostringFmt (contents s ra).length
  | .perm _ ra t => (contents s ra).length < (tableShape t).2.2
  | .permt _ ra rb => ∃ e ∈ contents s rb, 8 * (contents s ra).length ≤ e.toNat
  | .sbox _ ra _ => contents s ra = []
  | .subkeys _ => False
  | .worker _ _ => False
  | .rdkey _ _ => False
  | .ffunc _ _ _ => False
  | .round _ _ _ => False
  | .transform _ _ => False

/-- The code with which a legal command ends: that of the first cause it meets, in the order InvalidArgument,
InvalidState, OutOfRange, and 0 where it meets none (60_exceptions.md R231, R234; 10_state.md R26). -/
def endsWith (i : Instr) (s : State) (code : Nat) : Prop :=
  (badArgument i s → code = 1) ∧
  (¬ badArgument i s → badState i s → code = 3) ∧
  (¬ badArgument i s → ¬ badState i s → outside i s → code = 2) ∧
  (¬ badArgument i s → ¬ badState i s → ¬ outside i s → code = 0)

/-- A command that makes a schedule. -/
def makesSchedule (i : Instr) : Prop := (∃ ra, i = .subkeys ra) ∨ (∃ ra t, i = .worker ra t)

end Sys2Proof.Claims

open Sys2Proof Sys2Proof.Machine Sys2Proof.Claims

/-! ## Encoding -/

/-- Decoding a well-formed command's word gives the command back, every operand at every value the encoding admits. -/
def Obligations.DecodeUndoesEncode : Prop :=
  ∀ i : Instr, i.wellFormed = true → decode (encode i) = .ok i

/-- A word has one meaning and is the only word with that meaning: encoding what a word decodes to gives the word. -/
def Obligations.EncodeUndoesDecode : Prop :=
  ∀ (cw : CW) (i : Instr), decode cw = .ok i → encode i = cw ∧ i.wellFormed = true

/-- The decoder takes exactly the words the opcode table calls legal, and gives each its row's command
(30_encoding.md R75, R79, spec/opcode_table.json); issuing any other word takes IllegalCommand whatever the state. -/
def Obligations.IllegalWordsAreExactlyTheOpcodeTables : Prop :=
  (∀ (cw : CW) (op : Op), legalFor cw op ↔ ∃ i, decode cw = .ok i ∧ i.op = op) ∧
  ∀ (s : State) (cw : CW), s.upcoming = some (.issue cw) → (∀ op, ¬ legalFor cw op) →
    step s = .next (faulted (taken s .nothing) 4)

/-- A command word as bytes: byte 0 is `CW[63:56]`, byte 7 is `CW[7:0]`; eight bytes are one command, whatever
follows (20_memory.md R52; 30_encoding.md R78). -/
def Obligations.CommandBytesAreBigEndian : Prop :=
  ∀ (i : Instr) (rest : Bytes), i.wellFormed = true →
    decodeBytes (encodeBytes i ++ rest) = .ok (i, rest) ∧ (encodeBytes i).length = 8 ∧
    ∀ k < 8, ((encodeBytes i).getD k 0).toNat = (encode i).toNat / 2 ^ (56 - 8 * k) % 256

/-- Words written out from the spec's encoding, one or more of each family (30_encoding.md R72, 95_test_vectors.md). -/
def Obligations.DecodesWordsOfTheSpec : Prop :=
  decode 0x010000000E000000#64 = .ok (.getbit 0 14) ∧
  decode 0x0600000008000004#64 = .ok (.setbits 0 0 8 0 4) ∧
  decode 0x0100000FFF000000#64 = .ok (.getbit 0 (-1)) ∧
  decode 0x1065050000000000#64 = .ok (.perm 6 5 .pc2) ∧
  decode 0x1210070000000000#64 = .ok (.sbox 1 0 .s8) ∧
  decode 0x2100010000000000#64 = .ok (.worker 0 .decrypt) ∧
  decode 0x31C7600000000000#64 = .ok (.round 12 7 6) ∧
  decode 0x010000100E000000#64 = .error .reservedNonzero

/-- A step runs the decoded command: where the host's next interaction is an `ISSUE`, its reply is given
and the command runs (port and replies are the model's, log entry 3). -/
def Obligations.StepRunsTheDecodedCommand : Prop :=
  ∀ (s : State) (cw : CW) (i : Instr), s.upcoming = some (.issue cw) → decode cw = .ok i →
    step s = exec i (taken s .nothing)

/-! ## Bit numbering -/

/-- Bit `p` of a buffer is bit `7 - (p mod 8)` of byte `p div 8` (00_scope.md R6), and `MemWrite` keeps the length and
changes no other bit of the buffer (the line of R9 on it). -/
def Obligations.BitZeroIsTheMostSignificantOfByteZero : Prop :=
  ∀ (b : Bytes) (p : Nat), p < 8 * b.length →
    ((bit b p = true) ↔ (b.getD (p / 8) 0).toNat / 2 ^ (7 - p % 8) % 2 = 1) ∧
    ∀ v : Bool, (memWrite b p v).length = b.length ∧
      ∀ q < 8 * b.length, bit (memWrite b p v) q = if q = p then v else bit b q

/-! ## BitOps -/

/-- GETBIT (41_bitops.md R100): its faults, its result, and nothing else written. -/
def Obligations.GetbitReadsOneBitIntoResult : Prop :=
  ∀ (s : State) (ra : BufIx) (p : Int), wordOf (.getbit ra p) = cwOf 0x01 0 ra 0 0 p 0 0 ∧
    (s.buf ra = none → exec (.getbit ra p) s = .next (faulted s 1)) ∧
    ∀ b, s.buf ra = some b →
      (p < 0 ∨ 8 * (b.length : Int) ≤ p → exec (.getbit ra p) s = .next (faulted s 2)) ∧
      (0 ≤ p → p < 8 * (b.length : Int) →
        exec (.getbit ra p) s = .next { s with result := if bit b p.toNat then 1 else 0, status := 0 })

/-- SETBIT (41_bitops.md R102): InvalidArgument before OutOfRange; then that bit alone changes. -/
def Obligations.SetbitWritesOneBitInPlace : Prop :=
  ∀ (s : State) (rd : BufIx) (p v : Int), wordOf (.setbit rd p v) = cwOf 0x02 rd 0 0 0 p v 0 ∧
    (s.buf rd = none → exec (.setbit rd p v) s = .next (faulted s 1)) ∧
    ∀ b, s.buf rd = some b →
      (v ≠ 0 → v ≠ 1 → exec (.setbit rd p v) s = .next (faulted s 1)) ∧
      (v = 0 ∨ v = 1 →
        (p < 0 ∨ 8 * (b.length : Int) ≤ p → exec (.setbit rd p v) s = .next (faulted s 2)) ∧
        (0 ≤ p → p < 8 * (b.length : Int) → fits b.length →
          ∃ c, exec (.setbit rd p v) s = .next (wrote s rd c) ∧ c.length = b.length ∧
            ∀ q < 8 * b.length, bit c q = if (q : Int) = p then decide (v = 1) else bit b q))

/-- EXTEND (41_bitops.md R104): the first bytes verbatim, the rest zero. -/
def Obligations.ExtendAppendsZeroBytes : Prop :=
  ∀ (s : State) (rd ra : BufIx) (n : Int), wordOf (.extend rd ra n) = cwOf 0x03 rd ra 0 0 n 0 0 ∧
    (s.buf ra = none → exec (.extend rd ra n) s = .next (faulted s 1)) ∧
    ∀ b, s.buf ra = some b →
      (n ≤ 0 → exec (.extend rd ra n) s = .next (faulted s 1)) ∧
      (0 < n → n < (b.length : Int) ∨ (Config.bufCap : Int) < n → exec (.extend rd ra n) s = .next (faulted s 2)) ∧
      (0 < n → (b.length : Int) ≤ n → n ≤ (Config.bufCap : Int) →
        exec (.extend rd ra n) s = .next (wrote s rd (b ++ List.replicate (n.toNat - b.length) 0)))

/-- XOR (41_bitops.md R106): bytewise, a byte past the shorter operand's end counting as 0. -/
def Obligations.XorIsBytewiseWithZeroExtension : Prop :=
  ∀ (s : State) (rd ra rb : BufIx), wordOf (.xor rd ra rb) = cwOf 0x04 rd ra rb 0 0 0 0 ∧
    (s.buf ra = none ∨ s.buf rb = none → exec (.xor rd ra rb) s = .next (faulted s 1)) ∧
    ∀ a c, s.buf ra = some a → s.buf rb = some c → fits a.length → fits c.length →
      ∃ v, exec (.xor rd ra rb) s = .next (wrote s rd v) ∧ v.length = max a.length c.length ∧
        ∀ i < v.length, v.getD i 0 = a.getD i 0 ^^^ c.getD i 0

/-- GETBITS (41_bitops.md R108): the range left-packed, trailing bits 0. -/
def Obligations.GetbitsLeftPacksTheRange : Prop :=
  ∀ (s : State) (rd ra : BufIx) (st n : Int), wordOf (.getbits rd ra st n) = cwOf 0x05 rd ra 0 0 st n 0 ∧
    (s.buf ra = none → exec (.getbits rd ra st n) s = .next (faulted s 1)) ∧
    ∀ b, s.buf ra = some b →
      (n ≤ 0 → exec (.getbits rd ra st n) s = .next (faulted s 1)) ∧
      (0 < n → st < 0 ∨ 8 * (b.length : Int) < st + n → exec (.getbits rd ra st n) s = .next (faulted s 2)) ∧
      (0 < n → 0 ≤ st → st + n ≤ 8 * (b.length : Int) → fits b.length →
        ∃ v, exec (.getbits rd ra st n) s = .next (wrote s rd v) ∧ (v.length : Int) = (n + 7) / 8 ∧
          ∀ i < 8 * v.length, bit v i = if (i : Int) < n then bit b (st.toNat + i) else false)

/-- SETBITS (41_bitops.md R110): the range copied, from the old values also within one register; overlapping ranges of
one register fault. -/
def Obligations.SetbitsCopiesTheRangeInPlace : Prop :=
  ∀ (s : State) (rd ra : BufIx) (ds ss n : Int), wordOf (.setbits rd ra ds ss n) = cwOf 0x06 rd ra 0 0 ds ss n ∧
    (s.buf rd = none ∨ s.buf ra = none → exec (.setbits rd ra ds ss n) s = .next (faulted s 1)) ∧
    ∀ d b, s.buf rd = some d → s.buf ra = some b →
      (n ≤ 0 ∨ (rd = ra ∧ ds < ss + n ∧ ss < ds + n) → exec (.setbits rd ra ds ss n) s = .next (faulted s 1)) ∧
      (0 < n → ¬(rd = ra ∧ ds < ss + n ∧ ss < ds + n) →
        (ss < 0 ∨ 8 * (b.length : Int) < ss + n ∨ ds < 0 ∨ 8 * (d.length : Int) < ds + n →
          exec (.setbits rd ra ds ss n) s = .next (faulted s 2)) ∧
        (0 ≤ ss → ss + n ≤ 8 * (b.length : Int) → 0 ≤ ds → ds + n ≤ 8 * (d.length : Int) → fits d.length →
          ∃ v, exec (.setbits rd ra ds ss n) s = .next (wrote s rd v) ∧ v.length = d.length ∧
            ∀ q < 8 * d.length, bit v q =
              if ds ≤ (q : Int) ∧ (q : Int) < ds + n then bit b (ss + (q - ds)).toNat else bit d q))

/-- ROTL (41_bitops.md R112): a ring of the first `len` bits, trailing bits 0. -/
def Obligations.RotlRotatesTheRing : Prop :=
  ∀ (s : State) (rd ra : BufIx) (len sh : Int), wordOf (.rotl rd ra len sh) = cwOf 0x07 rd ra 0 0 len sh 0 ∧
    (s.buf ra = none → exec (.rotl rd ra len sh) s = .next (faulted s 1)) ∧
    ∀ b, s.buf ra = some b →
      (len ≤ 0 ∨ sh < 0 → exec (.rotl rd ra len sh) s = .next (faulted s 1)) ∧
      (0 < len → 0 ≤ sh → 8 * (b.length : Int) < len → exec (.rotl rd ra len sh) s = .next (faulted s 2)) ∧
      (0 < len → 0 ≤ sh → len ≤ 8 * (b.length : Int) → fits b.length →
        ∃ v, exec (.rotl rd ra len sh) s = .next (wrote s rd v) ∧ (v.length : Int) = (len + 7) / 8 ∧
          ∀ i < 8 * v.length, bit v i = if (i : Int) < len then bit b ((i + sh) % len).toNat else false)

/-- SEPARATE (41_bitops.md R114): group `k` left-packed in byte `k`. -/
def Obligations.SeparateGivesOneByteAGroup : Prop :=
  ∀ (s : State) (rd ra : BufIx) (g : Int), wordOf (.separate rd ra g) = cwOf 0x08 rd ra 0 0 g 0 0 ∧
    (s.buf ra = none → exec (.separate rd ra g) s = .next (faulted s 1)) ∧
    ∀ b, s.buf ra = some b →
      (g ≤ 0 ∨ 8 < g → exec (.separate rd ra g) s = .next (faulted s 1)) ∧
      (0 < g → g ≤ 8 → 8 * (b.length : Int) % g ≠ 0 ∨ (Config.bufCap : Int) < 8 * (b.length : Int) / g →
        exec (.separate rd ra g) s = .next (faulted s 2)) ∧
      (0 < g → g ≤ 8 → 8 * (b.length : Int) % g = 0 → 8 * (b.length : Int) / g ≤ (Config.bufCap : Int) →
        ∃ v, exec (.separate rd ra g) s = .next (wrote s rd v) ∧ (v.length : Int) = 8 * (b.length : Int) / g ∧
          ∀ k < v.length, ∀ j < 8, bit v (8 * k + j) = if (j : Int) < g then bit b (k * g.toNat + j) else false)

/-- CONCAT (41_bitops.md R116): the first bits of one buffer, then the first bits of the other, trailing bits 0. The
result is at most 512 bytes with encodable counts (30_encoding.md R77), so it always fits. -/
def Obligations.ConcatJoinsTwoSeries : Prop :=
  ∀ (s : State) (rd ra rb : BufIx) (na nc : Int), wordOf (.concat rd ra rb na nc) = cwOf 0x09 rd ra rb 0 na nc 0 ∧
    (s.buf ra = none ∨ s.buf rb = none → exec (.concat rd ra rb na nc) s = .next (faulted s 1)) ∧
    ∀ a c, s.buf ra = some a → s.buf rb = some c →
      (na ≤ 0 ∨ nc ≤ 0 → exec (.concat rd ra rb na nc) s = .next (faulted s 1)) ∧
      (0 < na → 0 < nc → 8 * (a.length : Int) < na ∨ 8 * (c.length : Int) < nc →
        exec (.concat rd ra rb na nc) s = .next (faulted s 2)) ∧
      (0 < na → 0 < nc → na ≤ 8 * (a.length : Int) → nc ≤ 8 * (c.length : Int) → na ≤ 2047 → nc ≤ 2047 →
        ∃ v, exec (.concat rd ra rb na nc) s = .next (wrote s rd v) ∧ (v.length : Int) = (na + nc + 7) / 8 ∧
          ∀ i < 8 * v.length, bit v i =
            if (i : Int) < na then bit a i else if (i : Int) < na + nc then bit c (i - na.toNat) else false)

/-- TOSTRING in the `TOSTRING_FMT` of the configuration, a parameter (log entry 2): the text in any format character by
character, the text in the default format as R118's pseudocode writes it, and the command (41_bitops.md R118, R119). -/
def Obligations.TostringWritesTheText : Prop :=
  (∀ b : Bytes, tostringText Config.specFmt b = specText b) ∧
  (∀ (f : Config.TostringFmt) (b : Bytes), isText f b (tostringText f b)) ∧
  ∀ (s : State) (rd ra : BufIx), wordOf (.tostring rd ra) = cwOf 0x0A rd ra 0 0 0 0 0 ∧
    (s.buf ra = none → exec (.tostring rd ra) s = .next (faulted s 1)) ∧
    ∀ b, s.buf ra = some b →
      (Config.bufCap < textLength Config.tostringFmt b.length → exec (.tostring rd ra) s = .next (faulted s 2)) ∧
      (fits (textLength Config.tostringFmt b.length) →
        exec (.tostring rd ra) s = .next (wrote s rd (tostringText Config.tostringFmt b)))

/-! ## Permutation engine and S-boxes -/

/-- PERM (42_permutation.md R150, R151): output bit `i` is the input bit the table names; the smallest inputs; the
illegal `SEL` values. -/
def Obligations.PermAppliesTheFixedTable : Prop :=
  (∀ cw : CW, cw.toNat / 2 ^ 56 = 0x10 → 6 ≤ selOf cw → ∃ e, decode cw = .error e) ∧
  ∀ (s : State) (rd ra : BufIx) (t : PermTable), wordOf (.perm rd ra t) = cwOf 0x10 rd ra 0 (permSel t) 0 0 0 ∧
    (s.buf ra = none → exec (.perm rd ra t) s = .next (faulted s 1)) ∧
    ∀ b, s.buf ra = some b →
      (b.length < (tableShape t).2.2 → exec (.perm rd ra t) s = .next (faulted s 2)) ∧
      ((tableShape t).2.2 ≤ b.length →
        ∃ v, exec (.perm rd ra t) s = .next (wrote s rd v) ∧ v.length = (tableShape t).2.1 ∧
          ∀ i < (tableShape t).1, bit v i = bit b (source t i))

/-- PERMT (42_permutation.md R153): the table's bytes are unsigned 0-based entries. -/
def Obligations.PermtAppliesTheTableBuffer : Prop :=
  ∀ (s : State) (rd ra rb : BufIx), wordOf (.permt rd ra rb) = cwOf 0x11 rd ra rb 0 0 0 0 ∧
    (s.buf ra = none ∨ s.buf rb = none → exec (.permt rd ra rb) s = .next (faulted s 1)) ∧
    ∀ b t, s.buf ra = some b → s.buf rb = some t →
      ((∃ e ∈ t, 8 * b.length ≤ e.toNat) → exec (.permt rd ra rb) s = .next (faulted s 2)) ∧
      ((∀ e ∈ t, e.toNat < 8 * b.length) → fits t.length →
        ∃ v, exec (.permt rd ra rb) s = .next (wrote s rd v) ∧ v.length = (t.length + 7) / 8 ∧
          ∀ i < 8 * v.length, bit v i = if i < t.length then bit b (t.getD i 0).toNat else false)

/-- SBOX (42_permutation.md R155): the group is the first six bits, the output lies in the first four. -/
def Obligations.SboxSubstitutesTheFirstSixBits : Prop :=
  (∀ cw : CW, cw.toNat / 2 ^ 56 = 0x12 → 8 ≤ selOf cw → ∃ e, decode cw = .error e) ∧
  ∀ (s : State) (rd ra : BufIx) (k : Box), wordOf (.sbox rd ra k) = cwOf 0x12 rd ra 0 (allBoxes.idxOf k) 0 0 0 ∧
    (s.buf ra = none → exec (.sbox rd ra k) s = .next (faulted s 1)) ∧
    (s.buf ra = some [] → exec (.sbox rd ra k) s = .next (faulted s 2)) ∧
    ∀ x rest, s.buf ra = some (x :: rest) →
      exec (.sbox rd ra k) s = .next (wrote s rd [BitVec.ofNat 8 (16 * boxOut k (bit (x :: rest)))])

/-- The constant tables: FP is the inverse of IP, PC1 names no parity bit, PC2 takes its first half from C and its
second from D, and each row of each S-box is a permutation of 0..15 (the spec's own inferences of 42_permutation.md). -/
def Obligations.ConstantTablesAreConsistent : Prop :=
  (∀ i < 64, source .fp (source .ip i) = i ∧ source .ip (source .fp i) = i) ∧
  (∀ i < 56, source .pc1 i % 8 ≠ 7) ∧
  (∀ i < 24, source .pc2 i < 28 ∧ 28 ≤ source .pc2 (24 + i)) ∧
  ∀ k ∈ allBoxes, ∀ row < 4, ∀ v < 16, ∃ col < 16, boxEntry k row col = v

/-! ## Key schedule and worker context -/

/-- SUBKEYS (43_key_schedule.md R184): the sixteen keys of the schedule in `KS`, `KSV` set, `STRAT` as it was. -/
def Obligations.SubkeysStoresTheSchedule : Prop :=
  ∀ (s : State) (ra : BufIx), wordOf (.subkeys ra) = cwOf 0x20 0 ra 0 0 0 0 0 ∧
    (s.buf ra = none → exec (.subkeys ra) s = .next (faulted s 1)) ∧
    ∀ key, s.buf ra = some key →
      (key.length ≠ 8 → exec (.subkeys ra) s = .next (faulted s 1)) ∧
      (key.length = 8 → ∃ ks : List Bytes, keySchedule key = .ok ks ∧ ks.length = 16 ∧ (∀ k ∈ ks, k.length = 6) ∧
        exec (.subkeys ra) s =
          .next { s with ks := Vector.ofFn fun r : Fin 16 => ks[r.val]?, ctx := s.ctx ||| 1, status := 0 })

/-- WORKER (43_key_schedule.md R186): the schedule, `KSV` set and `STRAT` the strategy; `SEL` 2 to 15 is illegal. -/
def Obligations.WorkerBindsKeyAndStrategy : Prop :=
  (∀ cw : CW, cw.toNat / 2 ^ 56 = 0x21 → 2 ≤ selOf cw → ∃ e, decode cw = .error e) ∧
  ∀ (s : State) (ra : BufIx) (t : Strategy), wordOf (.worker ra t) = cwOf 0x21 0 ra 0 (if t = .decrypt then 1 else 0) 0 0 0 ∧
    (s.buf ra = none → exec (.worker ra t) s = .next (faulted s 1)) ∧
    ∀ key, s.buf ra = some key →
      (key.length ≠ 8 → exec (.worker ra t) s = .next (faulted s 1)) ∧
      (key.length = 8 → ∃ (ks : List Bytes) (c : Word), keySchedule key = .ok ks ∧ ks.length = 16 ∧
        (∀ k ∈ ks, k.length = 6) ∧
        exec (.worker ra t) s = .next { s with ks := Vector.ofFn fun r : Fin 16 => ks[r.val]?, ctx := c, status := 0 } ∧
        c.getLsbD 0 = true ∧ c.getLsbD 1 = decide (t = .decrypt) ∧
        ∀ j, 2 ≤ j → c.getLsbD j = s.ctx.getLsbD j)

/-- RDKEY (43_key_schedule.md R188): InvalidArgument for a round outside 1..16, then InvalidState without a schedule,
else `KS[round]`, whatever the strategy. -/
def Obligations.RdkeyReadsOneRoundKey : Prop :=
  ∀ (s : State) (rd : BufIx) (r : Int), wordOf (.rdkey rd r) = cwOf 0x22 rd 0 0 0 r 0 0 ∧
    (r < 1 ∨ 16 < r → exec (.rdkey rd r) s = .next (faulted s 1)) ∧
    (1 ≤ r → r ≤ 16 → s.ctx.getLsbD 0 = false → exec (.rdkey rd r) s = .next (faulted s 3)) ∧
    (1 ≤ r → r ≤ 16 → s.ctx.getLsbD 0 = true → ∀ k, s.roundKey r.toNat = some k → k.length = 6 →
      exec (.rdkey rd r) s = .next (wrote s rd k))

/-- The round keys in closed form: after SUBKEYS or WORKER with an 8-byte key, bit `i` of `KS[r]` is the key bit that
PC1, the total rotation after round `r` and PC2 name (43_key_schedule.md, the algorithm). -/
def Obligations.RoundKeysAreSelectedKeyBits : Prop :=
  ∀ (s : State) (ra : BufIx) (key : Bytes) (i : Instr), s.buf ra = some key → key.length = 8 →
    i = .subkeys ra ∨ (∃ t, i = .worker ra t) →
    ∃ t, exec i s = .next t ∧ t.code = 0 ∧ t.ksv = true ∧
      ∀ r, 1 ≤ r → r ≤ 16 → ∃ k, t.roundKey r = some k ∧ k.length = 6 ∧
        ∀ j < 48, bit k j = bit key (keySource r j)

/-- The parity bits of the key are never read: keys that differ only there give one schedule, whichever of SUBKEYS and
WORKER makes it (43_key_schedule.md, parity bits). -/
def Obligations.ParityBitsDoNotMatter : Prop :=
  ∀ (s s' : State) (ra ra' : BufIx) (key key' : Bytes) (i i' : Instr), s.buf ra = some key → s'.buf ra' = some key' →
    key.length = 8 → key'.length = 8 → (∀ p < 64, p % 8 ≠ 7 → bit key p = bit key' p) →
    i = .subkeys ra ∨ (∃ t, i = .worker ra t) → i' = .subkeys ra' ∨ (∃ t, i' = .worker ra' t) →
    ∃ t t', exec i s = .next t ∧ exec i' s' = .next t' ∧ t.code = 0 ∧ t'.code = 0 ∧ t.ks = t'.ks

/-! ## Feistel engine -/

/-- FFUNC (44_feistel.md R200): every bit of the round function. -/
def Obligations.FfuncIsTheRoundFunction : Prop :=
  ∀ (s : State) (rd ra rb : BufIx), wordOf (.ffunc rd ra rb) = cwOf 0x30 rd ra rb 0 0 0 0 ∧
    (s.buf ra = none ∨ s.buf rb = none → exec (.ffunc rd ra rb) s = .next (faulted s 1)) ∧
    ∀ r k, s.buf ra = some r → s.buf rb = some k →
      (r.length ≠ 4 ∨ k.length ≠ 6 → exec (.ffunc rd ra rb) s = .next (faulted s 1)) ∧
      (r.length = 4 → k.length = 6 →
        ∃ v, exec (.ffunc rd ra rb) s = .next (wrote s rd v) ∧ v.length = 4 ∧
          ∀ i < 32, bit v i = fBit (bit r) (bit k) i)

/-- ROUND (44_feistel.md R202): new L is old R, new R is old L xor `f`. -/
def Obligations.RoundIsOneFeistelRound : Prop :=
  ∀ (s : State) (rd ra rb : BufIx), wordOf (.round rd ra rb) = cwOf 0x31 rd ra rb 0 0 0 0 ∧
    (s.buf ra = none ∨ s.buf rb = none → exec (.round rd ra rb) s = .next (faulted s 1)) ∧
    ∀ blk k, s.buf ra = some blk → s.buf rb = some k →
      (blk.length ≠ 8 ∨ k.length ≠ 6 → exec (.round rd ra rb) s = .next (faulted s 1)) ∧
      (blk.length = 8 → k.length = 6 →
        ∃ v, exec (.round rd ra rb) s = .next (wrote s rd v) ∧ v.length = 8 ∧
          ∀ i < 32, bit v i = bit blk (32 + i) ∧
            bit v (32 + i) = (bit blk i ^^ fBit (fun j => bit blk (32 + j)) (bit k) i))

/-- TRANSFORM (44_feistel.md R204) is DES on bits, with the round keys in the strategy's order. -/
def Obligations.TransformIsDes : Prop :=
  ∀ (s : State) (rd ra : BufIx), wordOf (.transform rd ra) = cwOf 0x32 rd ra 0 0 0 0 0 ∧
    (s.buf ra = none → exec (.transform rd ra) s = .next (faulted s 1)) ∧
    ∀ blk, s.buf ra = some blk →
      (blk.length ≠ 8 → exec (.transform rd ra) s = .next (faulted s 1)) ∧
      (blk.length = 8 → s.ctx.getLsbD 0 = false → exec (.transform rd ra) s = .next (faulted s 3)) ∧
      (blk.length = 8 → s.ctx.getLsbD 0 = true → scheduled s →
        ∃ v, exec (.transform rd ra) s = .next (wrote s rd v) ∧ v.length = 8 ∧
          ∀ i < 64, bit v i =
            desBit (if s.ctx.getLsbD 1 then .decrypt else .encrypt) (ksBit s) (bit blk) i)

/-- Decryption inverts encryption for every 8-byte key and block, every command ending with code 0 (44_feistel.md,
decryption inverts encryption). -/
def Obligations.DecryptionInvertsEncryption : Prop :=
  ∀ (s : State) (rk rb rc rd : BufIx) (key m : Bytes), s.buf rk = some key → key.length = 8 →
    s.buf rb = some m → m.length = 8 → rc ≠ rk →
    ∃ s1 s2 s3 s4 c, exec (.worker rk .encrypt) s = .next s1 ∧ exec (.transform rc rb) s1 = .next s2 ∧
      s2.buf rc = some c ∧ c.length = 8 ∧ exec (.worker rk .decrypt) s2 = .next s3 ∧
      exec (.transform rd rc) s3 = .next s4 ∧ s4.buf rd = some m ∧
      s1.code = 0 ∧ s2.code = 0 ∧ s3.code = 0 ∧ s4.code = 0

/-! ## Properties of the BitOps and the permutations -/

/-- After SETBIT, GETBIT at the same position gives the value just set, both ending with code 0 (41_bitops.md R103). -/
def Obligations.GetbitAfterSetbitGivesTheValue : Prop :=
  ∀ (s : State) (rd : BufIx) (b : Bytes) (p v : Int), s.buf rd = some b → fits b.length → 0 ≤ p →
    p < 8 * (b.length : Int) → v = 0 ∨ v = 1 →
    ∃ t u, exec (.setbit rd p v) s = .next t ∧ exec (.getbit rd p) t = .next u ∧ t.code = 0 ∧ u.code = 0 ∧
      (u.result.toNat : Int) = v

/-- XOR is commutative, a buffer with itself gives zeros, and with zeros no longer than it gives itself
(41_bitops.md R107). -/
def Obligations.XorAlgebra : Prop :=
  ∀ (s : State) (rd ra rb : BufIx) (a z : Bytes), s.buf ra = some a → fits a.length →
    exec (.xor rd ra rb) s = exec (.xor rd rb ra) s ∧
    exec (.xor rd ra ra) s = .next (wrote s rd (List.replicate a.length 0)) ∧
    (s.buf rb = some z → (∀ x ∈ z, x = 0) → z.length ≤ a.length →
      exec (.xor rd ra rb) s = .next (wrote s rd a))

/-- ROTL by `sh`, then by `(L - sh mod L)`, gives the first `L` bits back, as GETBITS gives them; so does a rotation
by a multiple of `L` (41_bitops.md R113). -/
def Obligations.RotlComesBackRound : Prop :=
  ∀ (s : State) (r1 r2 ra : BufIx) (b : Bytes) (len sh k : Int), s.buf ra = some b → fits b.length → 0 < len →
    len ≤ 8 * (b.length : Int) → 0 ≤ sh → 0 ≤ k →
    (∃ t u w, exec (.rotl r1 ra len sh) s = .next t ∧ exec (.rotl r2 r1 len (len - sh % len)) t = .next u ∧
      exec (.getbits r2 ra 0 len) s = .next w ∧ t.code = 0 ∧ u.code = 0 ∧ w.code = 0 ∧ u.buf r2 = w.buf r2) ∧
    exec (.rotl r2 ra len (k * len)) s = exec (.getbits r2 ra 0 len) s

/-- CONCAT, then GETBITS of its parts, gives the parts back (41_bitops.md R117). -/
def Obligations.ConcatPartsComeBack : Prop :=
  ∀ (s : State) (rd r1 r2 ra rb : BufIx) (a c : Bytes) (na nc : Int), s.buf ra = some a → s.buf rb = some c →
    fits a.length → fits c.length → 0 < na → 0 < nc → na ≤ 8 * (a.length : Int) → nc ≤ 8 * (c.length : Int) →
    na ≤ 2047 → nc ≤ 2047 →
    ∃ t u u' w w', exec (.concat rd ra rb na nc) s = .next t ∧ t.code = 0 ∧ u.code = 0 ∧ u'.code = 0 ∧ w.code = 0 ∧
      w'.code = 0 ∧
      exec (.getbits r1 rd 0 na) t = .next u ∧ exec (.getbits r1 ra 0 na) s = .next u' ∧ u.buf r1 = u'.buf r1 ∧
      exec (.getbits r2 rd na nc) t = .next w ∧ exec (.getbits r2 rb 0 nc) s = .next w' ∧ w.buf r2 = w'.buf r2

/-- PERM FP of PERM IP of an 8-byte block gives the block back, and the other order too, every command ending with code
0 (the spec's own inference, 42_permutation.md R152). -/
def Obligations.FinalPermutationUndoesInitial : Prop :=
  ∀ (s : State) (r1 r2 ra : BufIx) (b : Bytes), s.buf ra = some b → b.length = 8 →
    (∃ t u, exec (.perm r1 ra .ip) s = .next t ∧ exec (.perm r2 r1 .fp) t = .next u ∧ t.code = 0 ∧ u.code = 0 ∧
      u.buf r2 = some b) ∧
    (∃ t u, exec (.perm r1 ra .fp) s = .next t ∧ exec (.perm r2 r1 .ip) t = .next u ∧ t.code = 0 ∧ u.code = 0 ∧
      u.buf r2 = some b)

/-! ## Faults and registers -/

/-- A fault writes `STATUS.CODE` and its bit of `ERRFLAGS` and nothing else of the core: for a command's own faults, and
for an issued word, IllegalCommand with it (60_exceptions.md R232; the port and the replies are the model's, log
entry 3). -/
def Obligations.FaultsWriteOnlyStatusAndErrflags : Prop :=
  (∀ (i : Instr) (s t : State), exec i s = .next t → t.code ≠ 0 → ∃ c, 1 ≤ c ∧ c ≤ 3 ∧ t.code = c ∧ t = faulted s c) ∧
  ∀ (s t : State) (cw : CW), s.upcoming = some (.issue cw) → step s = .next t →
    t.code ≠ 0 → ∃ c, 1 ≤ c ∧ c ≤ 4 ∧ t.code = c ∧ t = faulted (taken s .nothing) c

/-- Every command writes `STATUS`: 0 when it meets no cause of a fault, else the code of the first cause it meets, and
4 for an illegal word; the reserved bits stay 0, codes 5 to 7 are never written, no other interaction but reset writes
it, and reset gives 0 (10_state.md R26; port and replies are the model's, log entry 3). In every state the spec allows. -/
def Obligations.StatusHoldsTheOutcome : Prop :=
  State.reset.status = 0 ∧
  (∀ s : State, (s.readReg 0).toNat < 8) ∧
  (∀ (i : Instr) (s : State), s.Inv → i.wellFormed = true → ∃ t, exec i s = .next t ∧ endsWith i s t.status.toNat) ∧
  (∀ (s t : State) (cw : CW), s.upcoming = some (.issue cw) → step s = .next t →
    t.status.toNat ≤ 4 ∧ t.code = t.status.toNat ∧ (t.errflags = s.errflags ∨ t.code ≠ 0) ∧
    (∀ i, decode cw = .ok i → s.Inv → endsWith i s t.status.toNat) ∧
    (∀ e, decode cw = .error e → t.status.toNat = 4)) ∧
  ∀ (s t : State) (q : Interaction), s.upcoming = some q → step s = .next t →
    (∀ cw, q ≠ .issue cw) → q ≠ .reset → t.status = s.status

/-- Only a successful GETBIT and reset write `RESULT`, and a GETBIT writes the bit it reads (10_state.md R27). -/
def Obligations.ResultIsWrittenOnlyByGetbit : Prop :=
  State.reset.result = 0 ∧
  (∀ s : State, (s.readReg 1).toNat < 2) ∧
  ∀ (s t : State) (q : Interaction), s.upcoming = some q → step s = .next t →
    t.result ≠ s.result → q = .reset ∨
      ∃ cw ra p b, q = .issue cw ∧ decode cw = .ok (.getbit ra p) ∧ t.code = 0 ∧ s.buf ra = some b ∧
        t.result = if bit b p.toNat then 1 else 0

/-- The bits of `ERRFLAGS` are sticky: a faulting command sets its bit, and nothing but reset clears one
(10_state.md R28). -/
def Obligations.ErrflagsAreSticky : Prop :=
  State.reset.errflags = 0 ∧
  (∀ s : State, (s.readReg 2).toNat < 16) ∧
  (∀ (s t : State) (cw : CW), s.upcoming = some (.issue cw) → step s = .next t →
    t.code ≠ 0 → t.errflags.getLsbD (t.code - 1) = true ∧
      ∀ j, j ≠ t.code - 1 → t.errflags.getLsbD j = s.errflags.getLsbD j) ∧
  ∀ (s t : State), step s = .next t → s.upcoming ≠ some .reset →
    ∀ j, s.errflags.getLsbD j = true → t.errflags.getLsbD j = true

/-- `CTX` and `KS` are written only by a successful SUBKEYS or WORKER and by reset; `STRAT` only by WORKER, and `KSV`
is never cleared but by reset (10_state.md R29, R30). -/
def Obligations.WorkerContextIsWrittenOnlyBySubkeysAndWorker : Prop :=
  State.reset.ctx = 0 ∧ (∀ r, State.reset.roundKey r = none) ∧
  (∀ s : State, (s.readReg 3).toNat < 4) ∧
  ∀ (s t : State) (q : Interaction), s.upcoming = some q → step s = .next t →
    q ≠ .reset →
    (s.ctx.getLsbD 0 = true → t.ctx.getLsbD 0 = true) ∧
    (t.ctx ≠ s.ctx ∨ t.ks ≠ s.ks → ∃ cw i, q = .issue cw ∧ decode cw = .ok i ∧ makesSchedule i ∧ t.code = 0 ∧
      t.ctx.getLsbD 0 = true ∧ scheduled t) ∧
    (t.ctx.getLsbD 1 ≠ s.ctx.getLsbD 1 → ∃ cw ra u, q = .issue cw ∧ decode cw = .ok (.worker ra u) ∧ t.code = 0)

/-- No command reads `STATUS`, `RESULT` or `ERRFLAGS`: with other values there it does the same to everything else and
reports the same code (10_state.md R24; 60_exceptions.md R235). -/
def Obligations.NoCommandReadsTheOutcomeRegisters : Prop :=
  ∀ (i : Instr) (s t : State) (st rs ef : Word), exec i s = .next t →
    ∃ u, exec i { s with status := st, result := rs, errflags := ef } = .next u ∧
      u.status = t.status ∧ u.bufs = t.bufs ∧ u.ctx = t.ctx ∧ u.ks = t.ks ∧ u.port = t.port ∧
      u.replies = t.replies ∧ (t.code ≠ 0 → u.result = rs ∧ u.errflags = ef ||| (1#32 <<< (t.code - 1))) ∧
      (t.code = 0 → u.errflags = ef ∧ (dest i ≠ none ∨ makesSchedule i → u.result = rs) ∧
        (dest i = none → ¬ makesSchedule i → u.result = t.result))

/-- Which command can end with which fault, in every state the spec allows (60_exceptions.md, the table of causes; with
30_encoding.md R77, the table of fault codes; the encodable immediates). -/
def Obligations.CommandsRaiseOnlyTheirFaults : Prop :=
  ∀ (i : Instr) (s t : State), s.Inv → i.wellFormed = true → exec i s = .next t → t.code ∈ mayEndWith i

/-- A command changes no buffer register but its destination, whatever its outcome (10_state.md R22). -/
def Obligations.CommandsWriteOnlyTheirDestination : Prop :=
  ∀ (i : Instr) (s t : State) (r : BufIx), exec i s = .next t → dest i ≠ some r →
    t.buf r = s.buf r ∧ t.port = s.port ∧ t.replies = s.replies

/-- A command reads no buffer register but its sources: with other values elsewhere it ends with the same code and
writes the same result (10_state.md R22). -/
def Obligations.CommandsReadOnlyTheirSources : Prop :=
  ∀ (i : Instr) (s s' t : State), (∀ r ∈ sources i, s'.buf r = s.buf r) → s'.ctx = s.ctx → s'.ks = s.ks →
    exec i s = .next t →
    ∃ t', exec i s' = .next t' ∧ t'.code = t.code ∧ t'.ctx = t.ctx ∧ t'.ks = t.ks ∧
      (t.code = 0 → ∀ r, dest i = some r → t'.buf r = t.buf r) ∧
      (t.code = 0 → dest i = none → ¬ makesSchedule i → t'.result = t.result)

/-- Commands other than SETBIT, SETBITS, SUBKEYS and WORKER are idempotent when `RD` differs from their sources (the
spec's own inference, 20_memory.md R56). -/
def Obligations.CommandsAreIdempotent : Prop :=
  ∀ (i : Instr) (s t : State), (∀ r, dest i = some r → r ∉ sources i) → ¬ makesSchedule i →
    exec i s = .next t → exec i t = .next t

/-! ## The machine -/

/-- After reset every piece of state has its reset value (10_state.md R34). -/
def Obligations.ResetValues : Prop :=
  (∀ i : BufIx, State.reset.buf i = none) ∧ State.reset.status = 0 ∧ State.reset.result = 0 ∧
  State.reset.errflags = 0 ∧ State.reset.ctx = 0 ∧ ∀ r, State.reset.roundKey r = none

/-- The host's interactions: what each does to the core and what the host gets back (60_exceptions.md R250). -/
def Obligations.HostInteractionsDoWhatTheyShould : Prop :=
  ∀ s : State,
    (∀ cw, s.upcoming = some (.issue cw) →
      (∀ i, decode cw = .ok i → step s = exec i (taken s .nothing)) ∧
      (∀ e, decode cw = .error e → step s = .next (faulted (taken s .nothing) 4))) ∧
    (∀ (i : BufIx) v, s.upcoming = some (.writeBuf i v) → fits v.length →
      step s = .next { taken s .nothing with bufs := s.bufs.set i (some v) }) ∧
    (∀ i v, s.upcoming = some (.writeBuf i v) → 16 ≤ i ∨ ¬ fits v.length →
      ∃ r, step s = .next (taken s r)) ∧
    (∀ i : BufIx, s.upcoming = some (.clearBuf i) →
      step s = .next { taken s .nothing with bufs := s.bufs.set i none }) ∧
    (∀ i : BufIx, s.upcoming = some (.readBuf i) → step s = .next (taken s (.buffer (s.bufs[i])))) ∧
    (∀ n, s.upcoming = some (.readReg n) → ∃ w, step s = .next (taken s (.register w)) ∧
      (n = 0 → w = s.status &&& 7) ∧ (n = 1 → w = s.result &&& 1) ∧ (n = 2 → w = s.errflags &&& 15) ∧
      (n = 3 → w = s.ctx &&& 3) ∧ (4 ≤ n.toNat → w = 0)) ∧
    (s.upcoming = some .reset → ∃ p r, step s = .next { State.reset with port := p, replies := r })

/-- With no interaction to perform the core is idle and keeps all state (60_exceptions.md R243; that the host's program is
then over rests on log entry 3). -/
def Obligations.IdleCoreKeepsItsState : Prop :=
  ∀ s : State, s.upcoming = none → step s = .next s

/-- Every interaction returns: a step answers a next state from every state, and a run of any length is safe
(60_exceptions.md R252). That the host's index, the number of its replies, goes up by one at each rests on log entry 3 (port
and replies are the model's own) and, for RESET, on log entry 6 (RESET keeps the replies). -/
def Obligations.EveryInteractionReturns : Prop :=
  (∀ s : State, ∃ t, step s = .next t ∧ t.port = none ∧
    (s.upcoming ≠ none → t.replies.length = s.replies.length + 1)) ∧ ∀ (n : Nat) (s : State), SafeRun n s

/-- The host's program is performed in its order, one interaction a step, faulting or not: from a state whose port is
empty, `n` steps later the next interaction is the one `n` places on, and none once the program is over (10_state.md R23;
20_memory.md R59). It holds for every program, which is configuration and no state (10_state.md R33). That the index is
the number of replies rests on log entry 3, that RESET keeps it on log entry 6. -/
def Obligations.HostProgramRunsInOrder : Prop :=
  ∀ (n : Nat) (s : State), s.port = none → ∃ t, Sys2Proof.core.run n s = .next t ∧ t.port = none ∧
    t.upcoming = Config.hostProgram[s.replies.length + n]?

/-- Reset meets the invariant. -/
def Obligations.ResetMeetsTheInvariant : Prop := State.reset.Inv

/-- Every step keeps the invariant: buffers within `BUF_CAP`, legal field values and reserved bits 0, and `KS` a whole
schedule exactly when `KSV = 1` (10_state.md R21, R26 to R30). -/
def Obligations.EveryStepKeepsTheInvariant : Prop :=
  ∀ s t : State, s.Inv → step s = .next t → t.Inv
end

