-- ==== Sys2Proof/Laws/PerInstr.lean ====
section
/-! SUPPORT. Statements about every command, one lemma per constructor of Instr. -/

namespace Sys2Proof.Laws.WordFields

/-- A command's word holds the command's fields, each at its place and none cut off (30_encoding.md R71, R72). -/
def Statement (i : Instr) : Prop := fieldsOf (encode i) = instrFields i

/-- The fields of every command fit their widths. -/
theorem statement_of_inRange {i : Instr} (h : (instrFields i).inRange) : Statement i := fieldsOf_word _ h

theorem getbit (ra : BufIx) (p : Int) : Statement (.getbit ra p) :=
  statement_of_inRange (by simp [instrFields, Fields.inRange, opcodeOf, imm12_lt])
theorem setbit (rd : BufIx) (p : Int) (v : Int) : Statement (.setbit rd p v) :=
  statement_of_inRange (by simp [instrFields, Fields.inRange, opcodeOf, imm12_lt])
theorem extend (rd : BufIx) (ra : BufIx) (n : Int) : Statement (.extend rd ra n) :=
  statement_of_inRange (by simp [instrFields, Fields.inRange, opcodeOf, imm12_lt])
theorem xor (rd : BufIx) (ra : BufIx) (rb : BufIx) : Statement (.xor rd ra rb) :=
  statement_of_inRange (by simp [instrFields, Fields.inRange, opcodeOf])
theorem getbits (rd : BufIx) (ra : BufIx) (s : Int) (n : Int) : Statement (.getbits rd ra s n) :=
  statement_of_inRange (by simp [instrFields, Fields.inRange, opcodeOf, imm12_lt])
theorem setbits (rd : BufIx) (ra : BufIx) (ds : Int) (ss : Int) (n : Int) : Statement (.setbits rd ra ds ss n) :=
  statement_of_inRange (by simp [instrFields, Fields.inRange, opcodeOf, imm12_lt])
theorem rotl (rd : BufIx) (ra : BufIx) (l : Int) (sh : Int) : Statement (.rotl rd ra l sh) :=
  statement_of_inRange (by simp [instrFields, Fields.inRange, opcodeOf, imm12_lt])
theorem separate (rd : BufIx) (ra : BufIx) (g : Int) : Statement (.separate rd ra g) :=
  statement_of_inRange (by simp [instrFields, Fields.inRange, opcodeOf, imm12_lt])
theorem concat (rd : BufIx) (ra : BufIx) (rb : BufIx) (na : Int) (nc : Int) : Statement (.concat rd ra rb na nc) :=
  statement_of_inRange (by simp [instrFields, Fields.inRange, opcodeOf, imm12_lt])
theorem tostring (rd : BufIx) (ra : BufIx) : Statement (.tostring rd ra) :=
  statement_of_inRange (by simp [instrFields, Fields.inRange, opcodeOf])
theorem perm (rd : BufIx) (ra : BufIx) (t : PermTable) : Statement (.perm rd ra t) :=
  statement_of_inRange (by simp [instrFields, Fields.inRange, opcodeOf, permTableSel_lt])
theorem permt (rd : BufIx) (ra : BufIx) (rb : BufIx) : Statement (.permt rd ra rb) :=
  statement_of_inRange (by simp [instrFields, Fields.inRange, opcodeOf])
theorem sbox (rd : BufIx) (ra : BufIx) (k : Box) : Statement (.sbox rd ra k) :=
  statement_of_inRange (by simp [instrFields, Fields.inRange, opcodeOf, boxSel_lt])
theorem subkeys (ra : BufIx) : Statement (.subkeys ra) :=
  statement_of_inRange (by simp [instrFields, Fields.inRange, opcodeOf])
theorem worker (ra : BufIx) (t : Strategy) : Statement (.worker ra t) :=
  statement_of_inRange (by simp [instrFields, Fields.inRange, opcodeOf, strategySel_lt])
theorem rdkey (rd : BufIx) (r : Int) : Statement (.rdkey rd r) :=
  statement_of_inRange (by simp [instrFields, Fields.inRange, opcodeOf, imm12_lt])
theorem ffunc (rd : BufIx) (ra : BufIx) (rb : BufIx) : Statement (.ffunc rd ra rb) :=
  statement_of_inRange (by simp [instrFields, Fields.inRange, opcodeOf])
theorem round (rd : BufIx) (ra : BufIx) (rb : BufIx) : Statement (.round rd ra rb) :=
  statement_of_inRange (by simp [instrFields, Fields.inRange, opcodeOf])
theorem transform (rd : BufIx) (ra : BufIx) : Statement (.transform rd ra) :=
  statement_of_inRange (by simp [instrFields, Fields.inRange, opcodeOf])

/-- The family holds of every command. -/
theorem all (i : Instr) : Statement i := by
  cases i with
  | getbit ra p => exact getbit ra p
  | setbit rd p v => exact setbit rd p v
  | extend rd ra n => exact extend rd ra n
  | xor rd ra rb => exact xor rd ra rb
  | getbits rd ra s n => exact getbits rd ra s n
  | setbits rd ra ds ss n => exact setbits rd ra ds ss n
  | rotl rd ra l sh => exact rotl rd ra l sh
  | separate rd ra g => exact separate rd ra g
  | concat rd ra rb na nc => exact concat rd ra rb na nc
  | tostring rd ra => exact tostring rd ra
  | perm rd ra t => exact perm rd ra t
  | permt rd ra rb => exact permt rd ra rb
  | sbox rd ra k => exact sbox rd ra k
  | subkeys ra => exact subkeys ra
  | worker ra t => exact worker ra t
  | rdkey rd r => exact rdkey rd r
  | ffunc rd ra rb => exact ffunc rd ra rb
  | round rd ra rb => exact round rd ra rb
  | transform rd ra => exact transform rd ra

end Sys2Proof.Laws.WordFields
end

