-- ==== Sys2Proof/Machine/Assembler.lean ====
section
/-! DEFINITION. The assembler notation of the spec: command lines (30_encoding.md R80) and pseudo-instructions (R81).
Lines are lists of characters. What R80 leaves open is named in log entry 9. -/

namespace Sys2Proof.Machine

/-- The pseudo-instructions (30_encoding.md R81). -/
inductive Pseudo where
  | bset (rd : BufIx) (p : Int)
  | bclr (rd : BufIx) (p : Int)
  | lhalf (rd ra : BufIx)
  | rhalf (rd ra : BufIx)
  | join64 (rd ra rb : BufIx)
  | chalf (rd ra : BufIx)
  | dhalf (rd ra : BufIx)
  | join56 (rd ra rb : BufIx)
deriving DecidableEq, Repr

/-- The expansion of a pseudo-instruction (30_encoding.md R81). -/
def Pseudo.expand (p : Pseudo) : Instr :=
  match p with
  | .bset rd q => .setbit rd q 1
  | .bclr rd q => .setbit rd q 0
  | .lhalf rd ra => .getbits rd ra 0 32
  | .rhalf rd ra => .getbits rd ra 32 32
  | .join64 rd ra rb => .concat rd ra rb 32 32
  | .chalf rd ra => .getbits rd ra 0 28
  | .dhalf rd ra => .getbits rd ra 28 28
  | .join56 rd ra rb => .concat rd ra rb 28 28

/-- A line without its comment: everything before the first `;` (30_encoding.md R80). -/
def dropComment (l : List Char) : List Char := l.takeWhile (· ≠ ';')

/-- White space inside a line. -/
def isBlankChar (c : Char) : Bool := c = ' ' || c = '\t'

/-- A text without the white space at its two ends. -/
def trimText (l : List Char) : List Char := ((l.dropWhile isBlankChar).reverse.dropWhile isBlankChar).reverse

/-- The pieces of a text between its commas (30_encoding.md R80). -/
def splitCommas : List Char → List (List Char)
  | [] => [[]]
  | c :: cs =>
    if c = ',' then [] :: splitCommas cs
    else
      match splitCommas cs with
      | [] => [[c]]
      | p :: ps => (c :: p) :: ps

/-- The operands of a line: none, or the pieces between commas. -/
def operandTexts (l : List Char) : List (List Char) :=
  if (trimText l).isEmpty then [] else (splitCommas l).map trimText

/-- The value of a hexadecimal digit. -/
def hexDigit (c : Char) : Option Nat :=
  if '0' ≤ c ∧ c ≤ '9' then some (c.toNat - 48)
  else if 'A' ≤ c ∧ c ≤ 'F' then some (c.toNat - 55)
  else if 'a' ≤ c ∧ c ≤ 'f' then some (c.toNat - 87)
  else none

/-- The number a non-empty text of digits writes in a base up to 16. -/
def digitsValue (base : Nat) (l : List Char) : Option Nat :=
  if l.isEmpty then none
  else
    l.foldl (fun acc c =>
      match acc, hexDigit c with
      | some n, some d => if d < base then some (base * n + d) else none
      | _, _ => none) (some 0)

/-- An immediate: decimal with an optional `-`, or `0x` and hexadecimal digits, in -2048..2047 (30_encoding.md R80). -/
def parseImm (l : List Char) : Option Int :=
  match (match l with
    | '-' :: ds => (digitsValue 10 ds).map fun n => -(n : Int)
    | '0' :: 'x' :: ds => (digitsValue 16 ds).map fun n => (n : Int)
    | ds => (digitsValue 10 ds).map fun n => (n : Int)) with
  | some v => if immInRange v then some v else none
  | none => none

/-- The names `B0` to `B15`, in order (30_encoding.md R80). -/
def bufNames : List String :=
  ["B0", "B1", "B2", "B3", "B4", "B5", "B6", "B7", "B8", "B9", "B10", "B11", "B12", "B13", "B14", "B15"]

/-- A buffer operand (30_encoding.md R80). -/
def parseBuf (l : List Char) : Option BufIx :=
  (List.finRange 16).find? fun i => decide ((bufNames.getD i "").toList = l)

/-- A table operand (30_encoding.md R80). -/
def parseTable (l : List Char) : Option PermTable :=
  [("IP", PermTable.ip), ("FP", .fp), ("E", .e), ("P", .p), ("PC1", .pc1), ("PC2", .pc2)].findSome?
    fun e => if e.1.toList = l then some e.2 else none

/-- An S-box operand (30_encoding.md R80). -/
def parseBox (l : List Char) : Option Box :=
  [("S1", Box.s1), ("S2", .s2), ("S3", .s3), ("S4", .s4), ("S5", .s5), ("S6", .s6), ("S7", .s7), ("S8", .s8)].findSome?
    fun e => if e.1.toList = l then some e.2 else none

/-- A strategy operand (30_encoding.md R80). -/
def parseStrategy (l : List Char) : Option Strategy :=
  [("ENCRYPT", Strategy.encrypt), ("DECRYPT", .decrypt)].findSome?
    fun e => if e.1.toList = l then some e.2 else none

/-- The mnemonics of the lines the assembler takes: the commands of R80 and the pseudo-instructions of R81. -/
inductive LineKind where
  | command (op : Op)
  | bset | bclr | lhalf | rhalf | join64 | chalf | dhalf | join56
deriving DecidableEq, Repr

/-- A mnemonic (30_encoding.md R80, R81). -/
def parseMnemonic (l : List Char) : Option LineKind :=
  [("GETBIT", LineKind.command .getbit), ("SETBIT", .command .setbit), ("EXTEND", .command .extend),
   ("XOR", .command .xor), ("GETBITS", .command .getbits), ("SETBITS", .command .setbits),
   ("ROTL", .command .rotl), ("SEPARATE", .command .separate), ("CONCAT", .command .concat),
   ("TOSTRING", .command .tostring), ("PERM", .command .perm), ("PERMT", .command .permt),
   ("SBOX", .command .sbox), ("SUBKEYS", .command .subkeys), ("WORKER", .command .worker),
   ("RDKEY", .command .rdkey), ("FFUNC", .command .ffunc), ("ROUND", .command .round),
   ("TRANSFORM", .command .transform),
   ("BSET", .bset), ("BCLR", .bclr), ("LHALF", .lhalf), ("RHALF", .rhalf), ("JOIN64", .join64),
   ("CHALF", .chalf), ("DHALF", .dhalf), ("JOIN56", .join56)].findSome?
    fun e => if e.1.toList = l then some e.2 else none

/-- The command a mnemonic and its operands stand for, in the operand order of 30_encoding.md R80, R81. -/
def lineInstr (k : LineKind) (ops : List (List Char)) : Option Instr :=
  match k, ops with
  | .command .getbit, [a, p] => do some (.getbit (← parseBuf a) (← parseImm p))
  | .command .setbit, [d, p, v] => do some (.setbit (← parseBuf d) (← parseImm p) (← parseImm v))
  | .command .extend, [d, a, n] => do some (.extend (← parseBuf d) (← parseBuf a) (← parseImm n))
  | .command .xor, [d, a, b] => do some (.xor (← parseBuf d) (← parseBuf a) (← parseBuf b))
  | .command .getbits, [d, a, st, n] => do
    some (.getbits (← parseBuf d) (← parseBuf a) (← parseImm st) (← parseImm n))
  | .command .setbits, [d, ds, a, ss, n] => do
    some (.setbits (← parseBuf d) (← parseBuf a) (← parseImm ds) (← parseImm ss) (← parseImm n))
  | .command .rotl, [d, a, len, sh] => do
    some (.rotl (← parseBuf d) (← parseBuf a) (← parseImm len) (← parseImm sh))
  | .command .separate, [d, a, g] => do some (.separate (← parseBuf d) (← parseBuf a) (← parseImm g))
  | .command .concat, [d, a, na, b, nc] => do
    some (.concat (← parseBuf d) (← parseBuf a) (← parseBuf b) (← parseImm na) (← parseImm nc))
  | .command .tostring, [d, a] => do some (.tostring (← parseBuf d) (← parseBuf a))
  | .command .perm, [d, a, t] => do some (.perm (← parseBuf d) (← parseBuf a) (← parseTable t))
  | .command .permt, [d, a, b] => do some (.permt (← parseBuf d) (← parseBuf a) (← parseBuf b))
  | .command .sbox, [d, a, x] => do some (.sbox (← parseBuf d) (← parseBuf a) (← parseBox x))
  | .command .subkeys, [a] => do some (.subkeys (← parseBuf a))
  | .command .worker, [a, t] => do some (.worker (← parseBuf a) (← parseStrategy t))
  | .command .rdkey, [d, r] => do some (.rdkey (← parseBuf d) (← parseImm r))
  | .command .ffunc, [d, a, b] => do some (.ffunc (← parseBuf d) (← parseBuf a) (← parseBuf b))
  | .command .round, [d, a, b] => do some (.round (← parseBuf d) (← parseBuf a) (← parseBuf b))
  | .command .transform, [d, a] => do some (.transform (← parseBuf d) (← parseBuf a))
  | .bset, [d, p] => do some (Pseudo.bset (← parseBuf d) (← parseImm p)).expand
  | .bclr, [d, p] => do some (Pseudo.bclr (← parseBuf d) (← parseImm p)).expand
  | .lhalf, [d, a] => do some (Pseudo.lhalf (← parseBuf d) (← parseBuf a)).expand
  | .rhalf, [d, a] => do some (Pseudo.rhalf (← parseBuf d) (← parseBuf a)).expand
  | .join64, [d, a, b] => do some (Pseudo.join64 (← parseBuf d) (← parseBuf a) (← parseBuf b)).expand
  | .chalf, [d, a] => do some (Pseudo.chalf (← parseBuf d) (← parseBuf a)).expand
  | .dhalf, [d, a] => do some (Pseudo.dhalf (← parseBuf d) (← parseBuf a)).expand
  | .join56, [d, a, b] => do some (Pseudo.join56 (← parseBuf d) (← parseBuf a) (← parseBuf b)).expand
  | _, _ => none

/-- What one assembler line gives. -/
inductive Line where
  /-- Nothing but white space and a comment. -/
  | empty
  /-- A command. -/
  | instr (i : Instr)
  /-- No line of the notation. -/
  | bad
deriving DecidableEq, Repr

/-- One line of assembler text (30_encoding.md R80, R81). -/
def assembleLine (l : List Char) : Line :=
  if (trimText (dropComment l)).isEmpty then .empty
  else
    match parseMnemonic ((trimText (dropComment l)).takeWhile (fun c => !isBlankChar c)) with
    | none => .bad
    | some k =>
      match lineInstr k (operandTexts ((trimText (dropComment l)).dropWhile (fun c => !isBlankChar c))) with
      | none => .bad
      | some i => .instr i

end Sys2Proof.Machine
end

