-- ==== Sys2Proof/Tests/Slice0.lean ====
section
/-! SUPPORT. The model's own tests: the WellFormed smoke, words written out from the spec's encoding, one step on small
states with the results of 95_test_vectors.md, and for every statement with hypotheses a witness that meets them. -/

namespace Sys2Proof.Tests

open Sys2Proof Sys2Proof.Machine Sys2Proof.Claims

/-! ## Helpers -/

/-- The state after reset with some buffer registers written. -/
def st (l : List (BufIx × Bytes)) : State := l.foldl (fun s e => s.setBuf e.1 (some e.2)) State.reset

/-- The next state an outcome answers. -/
def nextOf (o : Host.Outcome State Fault Refusal) : Option State :=
  match o with
  | .next t => some t
  | .fault _ => none
  | .refused _ => none

/-- What a command leaves in a buffer register, and its code. -/
def result (i : Instr) (s : State) (r : BufIx) : Option (Buffer × Nat) := (nextOf (exec i s)).map fun t => (t.buf r, t.code)

/-- Whether a command ends with the fault of code `c` and changes nothing but `STATUS` and `ERRFLAGS`. -/
def faultsWith (i : Instr) (s : State) (c : Nat) : Bool := decide (nextOf (exec i s) = some (faulted s c))

/-- Sixteen all-zero round keys with `CTX.KSV = 1`: the schedule of the key `01 01 01 01 01 01 01 01`
(95_test_vectors.md V-L2-K15). -/
def zeroSchedule (s : State) : State := { s with ks := Vector.replicate 16 (some (zeros 6)), ctx := 1 }

/-- The state with an interaction on the port. -/
def asked (s : State) (q : Interaction) : State := { s with port := some q }

theorem next_of_nextOf {o : Host.Outcome State Fault Refusal} {t : State} (h : nextOf o = some t) : o = .next t := by
  cases o with
  | next s => simpa [nextOf] using h
  | fault r => simp [nextOf] at h
  | refused r => simp [nextOf] at h

/-! ## WellFormed: an ill-formed command for each immediate, refused -/

theorem test_wellFormed_bounds : (Instr.getbit 0 2047).wellFormed = true ∧ (Instr.getbit 0 (-2048)).wellFormed = true ∧
    (Instr.getbit 0 2048).wellFormed = false ∧ (Instr.getbit 0 (-2049)).wellFormed = false := by decide
theorem test_wellFormed_each_immediate :
    (Instr.setbits 0 0 2048 0 0).wellFormed = false ∧ (Instr.setbits 0 0 0 2048 0).wellFormed = false ∧
    (Instr.setbits 0 0 0 0 2048).wellFormed = false ∧ (Instr.setbit 0 0 2048).wellFormed = false ∧
    (Instr.extend 0 0 2048).wellFormed = false ∧ (Instr.getbits 0 0 0 (-2049)).wellFormed = false ∧
    (Instr.rotl 0 0 0 2048).wellFormed = false ∧ (Instr.separate 0 0 2048).wellFormed = false ∧
    (Instr.concat 0 0 0 0 2048).wellFormed = false ∧ (Instr.rdkey 0 2048).wellFormed = false := by decide

/-! ## Decoding: words written out from 30_encoding.md R71 to R74, as 95_test_vectors.md gives them -/

theorem test_decode_getbit : decode 0x010000000E000000#64 = .ok (.getbit 0 14) := by decide
theorem test_decode_setbit : decode 0x020000000A000000#64 = .ok (.setbit 0 10 0) := by decide
theorem test_decode_extend : decode 0x0310000004000000#64 = .ok (.extend 1 0 4) := by decide
theorem test_decode_xor : decode 0x0420100000000000#64 = .ok (.xor 2 0 1) := by decide
theorem test_decode_getbits : decode 0x05100007FF001000#64 = .ok (.getbits 1 0 2047 1) := by decide
theorem test_decode_setbits : decode 0x060000000E00C004#64 = .ok (.setbits 0 0 14 12 4) := by decide
theorem test_decode_rotl : decode 0x071000000CFFF000#64 = .ok (.rotl 1 0 12 (-1)) := by decide
theorem test_decode_separate : decode 0x0810000006000000#64 = .ok (.separate 1 0 6) := by decide
theorem test_decode_concat : decode 0x092010000A003000#64 = .ok (.concat 2 0 1 10 3) := by decide
theorem test_decode_tostring : decode 0x0A10000000000000#64 = .ok (.tostring 1 0) := by decide
theorem test_decode_perm : decode 0x1010050000000000#64 = .ok (.perm 1 0 .pc2) := by decide
theorem test_decode_permt : decode 0x1120100000000000#64 = .ok (.permt 2 0 1) := by decide
theorem test_decode_sbox : decode 0x1210040000000000#64 = .ok (.sbox 1 0 .s5) := by decide
theorem test_decode_subkeys : decode 0x2002000000000000#64 = .ok (.subkeys 2) := by decide
theorem test_decode_worker : decode 0x2100010000000000#64 = .ok (.worker 0 .decrypt) := by decide
theorem test_decode_rdkey : decode 0x2210000010000000#64 = .ok (.rdkey 1 16) := by decide
theorem test_decode_ffunc : decode 0x3020100000000000#64 = .ok (.ffunc 2 0 1) := by decide
theorem test_decode_round : decode 0x3120100000000000#64 = .ok (.round 2 0 1) := by decide
theorem test_decode_transform : decode 0x3221000000000000#64 = .ok (.transform 2 1) := by decide

/-- Each way a word is illegal (30_encoding.md R75; V-L2-E01 to V-L2-E07, P12, P23, K17). -/
theorem test_decode_illegal : decode 0x0000000000000000#64 = .error .unassignedOpcode ∧
    decode 0x0B00000000000000#64 = .error .unassignedOpcode ∧ decode 0xFFFFFFFFFFFFFFFF#64 = .error .unassignedOpcode ∧
    decode 0x010000100E000000#64 = .error .reservedNonzero ∧ decode 0x011000000E000000#64 = .error .unusedFieldNonzero ∧
    decode 0x010000000E001000#64 = .error .unusedFieldNonzero ∧ decode 0x0420110000000000#64 = .error .unusedFieldNonzero ∧
    decode 0x1010060000000000#64 = .error .illegalSelector ∧ decode 0x1210080000000000#64 = .error .illegalSelector ∧
    decode 0x2100020000000000#64 = .error .illegalSelector := by decide

theorem test_encode : encode (.xor 2 0 1) = 0x0420100000000000#64 ∧ encode (.rotl 1 0 12 (-1)) = 0x071000000CFFF000#64 ∧
    encode (.worker 0 .decrypt) = 0x2100010000000000#64 ∧ encode (.setbits 0 0 14 12 4) = 0x060000000E00C004#64 := by decide
theorem test_decodeBytes : decodeBytes [0x04, 0x20, 0x10, 0, 0, 0, 0, 0, 0xAA] = .ok (.xor 2 0 1, [0xAA]) ∧
    decodeBytes [0x04, 0x20, 0x10, 0, 0, 0, 0] = .error .truncated := by decide
theorem test_decodeTableWord : decodeTableWord 64 0x0420100000000000 = some (.xor 2 0 1) ∧ decodeTableWord 64 0 = none := by
  decide

/-! ## One step of each command (95_test_vectors.md, by their ids) -/

/-- V-L1-02. -/
theorem test_getbit : (nextOf (exec (.getbit 0 14) (st [(0, [0x01, 0x02])]))).map State.result = some 1 := by decide
/-- V-L2-B02, B03, B05. -/
theorem test_getbit_outside : faultsWith (.getbit 0 16) (st [(0, [0x01, 0x02])]) 2 ∧
    faultsWith (.getbit 0 (-1)) (st [(0, [0x01, 0x02])]) 2 ∧ faultsWith (.getbit 0 0) (st [(0, [])]) 2 := by decide
/-- V-L1-04. -/
theorem test_setbit : result (.setbit 0 10 0) (st [(0, [0x5B, 0x7C])]) 0 = some (some [0x5B, 0x5C], 0) := by decide
/-- V-L2-B10: the value is checked before the position. -/
theorem test_setbit_value_first : faultsWith (.setbit 0 16 2) (st [(0, [0, 0])]) 1 := by decide
/-- V-L2-B11. -/
theorem test_extend : result (.extend 1 0 4) (st [(0, [0x01, 0x02])]) 1 = some (some [0x01, 0x02, 0, 0], 0) := by decide
/-- V-L2-B13, B14. -/
theorem test_extend_faults : faultsWith (.extend 1 0 1) (st [(0, [0x01, 0x02])]) 2 ∧
    faultsWith (.extend 1 0 0) (st [(0, [0x01, 0x02])]) 1 := by decide
/-- V-L1-01. -/
theorem test_xor : result (.xor 2 0 1) (st [(0, [1, 2, 0]), (1, [2, 1])]) 2 = some (some [3, 3, 0], 0) := by decide
/-- V-L2-B19. -/
theorem test_xor_absent : faultsWith (.xor 1 0 2) (st [(0, [0xF0])]) 1 := by decide
/-- V-L2-B26: `RD = RA` reads the old value. -/
theorem test_getbits : result (.getbits 0 0 4 8) (st [(0, [0x5B, 0x7C])]) 0 = some (some [0xB7], 0) := by decide
/-- V-L2-E12, B22: the count before the start; a range one bit too far. -/
theorem test_getbits_faults : faultsWith (.getbits 1 0 (-1) 0) (st [(0, [0x5B, 0x7C])]) 1 ∧
    faultsWith (.getbits 1 0 15 2) (st [(0, [0x5B, 0x7C])]) 2 := by decide
/-- V-L2-B27, B28. -/
theorem test_setbits : result (.setbits 1 0 4 0 6) (st [(0, [0xFF]), (1, [0, 0])]) 1 = some (some [0x0F, 0xC0], 0) ∧
    result (.setbits 0 0 8 0 4) (st [(0, [0xF0, 0x00])]) 0 = some (some [0xF0, 0xF0], 0) := by decide
/-- V-L2-E13, E14: an overlap is reported before a range outside. -/
theorem test_setbits_faults : faultsWith (.setbits 0 0 2 100 4) (st [(0, [0xF0, 0x00])]) 2 ∧
    faultsWith (.setbits 0 0 14 12 4) (st [(0, [0xF0, 0x00])]) 1 := by decide
/-- V-L1-05, V-L2-B33. -/
theorem test_rotl : result (.rotl 1 0 12 2) (st [(0, [0x7F, 0x01])]) 1 = some (some [0xFC, 0x10], 0) ∧
    result (.rotl 1 0 12 14) (st [(0, [0x7F, 0x01])]) 1 = some (some [0xFC, 0x10], 0) := by decide
/-- V-L2-B37, B39. -/
theorem test_rotl_faults : faultsWith (.rotl 1 0 12 (-1)) (st [(0, [0x7F, 0x01])]) 1 ∧
    faultsWith (.rotl 1 0 17 1) (st [(0, [0x7F, 0x01])]) 2 := by decide
/-- V-L1-06. -/
theorem test_separate : result (.separate 1 0 6) (st [(0, [0x7F, 0x01, 0x0C, 0x02, 0x02, 0x01])]) 1
    = some (some [0x7C, 0xC0, 0x10, 0x30, 0x00, 0x80, 0x20, 0x04], 0) := by decide
/-- V-L2-B43, B46. -/
theorem test_separate_faults : faultsWith (.separate 1 0 3) (st [(0, [0xA5])]) 2 ∧
    faultsWith (.separate 1 0 9) (st [(0, [0xA5])]) 1 := by decide
/-- V-L1-07. -/
theorem test_concat : result (.concat 2 0 1 10 3) (st [(0, [0x7F, 0x01]), (1, [0x60, 0x02])]) 2
    = some (some [0x7F, 0x18], 0) := by decide
/-- V-L2-B48, B49. -/
theorem test_concat_faults : faultsWith (.concat 2 0 1 8 16) (st [(0, [0x80]), (1, [0xFF])]) 2 ∧
    faultsWith (.concat 2 0 1 0 1) (st [(0, [0x80]), (1, [0xFF])]) 1 := by decide
/-- V-L2-B51, B52: the text in the spec's default format. -/
theorem test_tostring : tostringText Config.specFmt [0x5B, 0x7C] = [0x30, 0x31, 0x30, 0x31, 0x31,
      0x30, 0x31, 0x31, 0x20, 0x30, 0x31, 0x31, 0x31, 0x31, 0x31, 0x30, 0x30] ∧ tostringText Config.specFmt [] = [] := by decide
/-- V-L2-B51, B53: the command, in whatever format. -/
theorem test_tostring_runs : nextOf (exec (.tostring 1 0) (st [(0, [0x5B, 0x7C])]))
      = some (wrote (st [(0, [0x5B, 0x7C])]) 1 (tostringText Config.tostringFmt [0x5B, 0x7C])) ∧
    faultsWith (.tostring 1 0) (st []) 1 := ⟨rfl, by decide⟩
/-- V-L2-P03, P08. -/
theorem test_perm : result (.perm 1 0 .e) (st [(0, [0xF0, 0xAA, 0xF0, 0xAA])]) 1
      = some (some [0x7A, 0x15, 0x55, 0x7A, 0x15, 0x55], 0) ∧
    result (.perm 1 0 .pc2) (st [(0, [0xE1, 0x99, 0x55, 0xFA, 0xAC, 0xCF, 0x1E])]) 1
      = some (some [0x1B, 0x02, 0xEF, 0xFC, 0x70, 0x72], 0) := by decide +kernel
/-- V-L2-P10. -/
theorem test_perm_short : faultsWith (.perm 1 0 .e) (st [(0, [0xF0, 0xAA, 0xF0])]) 2 := by decide
/-- V-L2-P13. -/
theorem test_permt : result (.permt 2 0 1) (st [(0, [0x80]), (1, [0, 0, 7, 0])]) 2 = some (some [0xD0], 0) := by decide
/-- V-L2-P15. -/
theorem test_permt_outside : faultsWith (.permt 2 0 1) (st [(0, [0x80]), (1, [8])]) 2 := by decide
/-- V-L2-P20, P21. -/
theorem test_sbox : result (.sbox 1 0 .s5) (st [(0, [0x84])]) 1 = some (some [0xB0], 0) ∧
    result (.sbox 1 0 .s1) (st [(0, [0x63])]) 1 = some (some [0x50], 0) := by decide
/-- V-L2-P22. -/
theorem test_sbox_empty : faultsWith (.sbox 1 0 .s1) (st [(0, [])]) 2 := by decide
/-- V-L1-08, V-L2-K01. -/
theorem test_subkeys : (nextOf (exec (.subkeys 0) (st [(0, [1, 2, 3, 4, 5, 6, 7, 8])]))).map
      (fun t => (t.roundKey 1, t.roundKey 16, t.ctx))
    = some (some [0, 0, 0, 0x13, 0x2A, 0x82], some [0, 0, 0, 0xA3, 0x42, 0x80], 1) := by decide +kernel
/-- V-L2-K11, K13. -/
theorem test_subkeys_faults : faultsWith (.subkeys 0) (st [(0, [0x13, 0x34, 0x57, 0x79, 0x9B, 0xBC, 0xDF])]) 1 ∧
    faultsWith (.subkeys 0) (st []) 1 := by decide
/-- V-L2-K02. -/
theorem test_worker : (nextOf (exec (.worker 0 .decrypt) (st [(0, [0x13, 0x34, 0x57, 0x79, 0x9B, 0xBC, 0xDF, 0xF1])]))).map
      (fun t => (t.roundKey 1, t.roundKey 16, t.ctx))
    = some (some [0x1B, 0x02, 0xEF, 0xFC, 0x70, 0x72], some [0xCB, 0x3D, 0x8B, 0x0E, 0x17, 0xF5], 3) := by decide +kernel
/-- V-L2-K18: a failed SUBKEYS keeps the schedule and `CTX`. -/
theorem test_worker_kept : faultsWith (.subkeys 2) { zeroSchedule (st []) with ctx := 3 } 1 := by decide
/-- V-L2-K15. -/
theorem test_rdkey : result (.rdkey 1 7) (zeroSchedule (st [])) 1 = some (some [0, 0, 0, 0, 0, 0], 0) := by decide
/-- V-L2-K08, K09. -/
theorem test_rdkey_faults : faultsWith (.rdkey 1 1) (st []) 3 ∧ faultsWith (.rdkey 1 0) (st []) 1 := by decide
/-- V-L2-F02. -/
theorem test_ffunc : result (.ffunc 2 0 1) (st [(0, [0xF0, 0xAA, 0xF0, 0xAA]), (1, [0x1B, 0x02, 0xEF, 0xFC, 0x70, 0x72])]) 2
    = some (some [0x23, 0x4A, 0xA9, 0xBB], 0) := by decide +kernel
/-- V-L2-F04. -/
theorem test_ffunc_short : faultsWith (.ffunc 2 0 1)
    (st [(0, [0xF0, 0xAA, 0xF0]), (1, [0x1B, 0x02, 0xEF, 0xFC, 0x70, 0x72])]) 1 := by decide
/-- V-L2-F03. -/
theorem test_round : result (.round 2 0 1)
      (st [(0, [0xCC, 0x00, 0xCC, 0xFF, 0xF0, 0xAA, 0xF0, 0xAA]), (1, [0x1B, 0x02, 0xEF, 0xFC, 0x70, 0x72])]) 2
    = some (some [0xF0, 0xAA, 0xF0, 0xAA, 0xEF, 0x4A, 0x65, 0x44], 0) := by decide +kernel
/-- V-L2-F05. -/
theorem test_round_short : faultsWith (.round 2 0 1)
    (st [(0, [0xCC, 0x00, 0xCC, 0xFF, 0xF0, 0xAA, 0xF0, 0xAA]), (1, [0x1B, 0x02, 0xEF, 0xFC, 0x70])]) 1 := by decide
/-- V-L2-F11, its schedule all zero (V-L2-K15). -/
theorem test_transform : result (.transform 2 1) (zeroSchedule (st [(1, zeros 8)])) 2
    = some (some [0x8C, 0xA6, 0x4D, 0xE9, 0xC1, 0xB1, 0x23, 0xA7], 0) := by decide +kernel
/-- V-L2-F08, F09: the block's length before the schedule. -/
theorem test_transform_faults : faultsWith (.transform 2 1) (st [(1, [0x01, 0x23, 0x45, 0x67, 0x89, 0xAB, 0xCD, 0xEF])]) 3 ∧
    faultsWith (.transform 2 1) (st [(1, [0x01, 0x23, 0x45, 0x67, 0x89, 0xAB, 0xCD])]) 1 := by decide

/-! ## The host's interactions and the assembler -/

/-- V-L2-E08: an illegal word before an absent buffer. -/
theorem test_issue_illegal : nextOf (step (asked (st []) (.issue 0x011000000E000000#64)))
    = some (faulted (taken (st []) .nothing) 4) := by decide
/-- 60_exceptions.md R250. -/
theorem test_writebuf : (nextOf (step (asked (st []) (.writeBuf 15 [0xAB])))).map (fun t => (t.buf 15, t.replies))
      = some (some [0xAB], [.nothing]) ∧
    (nextOf (step (asked (st []) (.writeBuf 16 [0xAB])))) = some (taken (st []) .refused) := by decide
/-- 60_exceptions.md R250. -/
theorem test_clearbuf_readbuf : (nextOf (step (asked (st [(3, [1])]) (.clearBuf 3)))).map (fun t => t.buf 3) = some none ∧
    (nextOf (step (asked (st [(3, [1])]) (.readBuf 3)))).map State.replies = some [.buffer (some [1])] ∧
    (nextOf (step (asked (st []) (.readBuf 3)))).map State.replies = some [.buffer none] := by decide
/-- 10_state.md R25. -/
theorem test_readreg : (nextOf (step (asked (zeroSchedule (st [])) (.readReg 3)))).map State.replies = some [.register 1] ∧
    (nextOf (step (asked (zeroSchedule (st [])) (.readReg 4)))).map State.replies = some [.register 0] := by decide
/-- 70_reset_and_hazards.md R270. -/
theorem test_reset : (nextOf (step (asked { zeroSchedule (st [(3, [1])]) with errflags := 15 } .reset)))
    = some { State.reset with replies := [.nothing] } := by decide
/-- The first instruction after reset. -/
theorem test_withFetchWord : nextOf (step (State.reset.withFetchWord 64 0x2210000000000000))
    = some (faulted (taken State.reset .nothing) 1) := by decide

/-- 30_encoding.md R80, R81: the spec's own lines. -/
theorem test_assemble : assembleLine "GETBIT B0, -1 ; last".toList = .instr (.getbit 0 (-1)) ∧
    assembleLine "SETBITS B1, 4, B0, 0, 0x6".toList = .instr (.setbits 1 0 4 0 6) ∧
    assembleLine "CONCAT B2, B0, 10, B15, 3".toList = .instr (.concat 2 0 15 10 3) ∧
    assembleLine "WORKER B0, DECRYPT".toList = .instr (.worker 0 .decrypt) ∧
    assembleLine "JOIN56 B1, B2, B3".toList = .instr (.concat 1 2 3 28 28) := by decide
theorem test_assemble_bad : assembleLine "GETBIT B16, 0".toList = .bad ∧ assembleLine "GETBIT B0, 2048".toList = .bad ∧
    assembleLine "  ; nothing".toList = .empty ∧ assembleLine "PERM B1, B0, PC3".toList = .bad := by decide

/-! ## Witnesses: for every statement with hypotheses, values that meet them, each clause at a boundary -/

theorem fits_small {n : Nat} (h : n ≤ 512) : fits n := Nat.le_trans h (Nat.le_add_left _ _)

theorem witness_DecodeUndoesEncode : (Instr.setbits 15 0 (-2048) 2047 0).wellFormed = true := by decide
theorem witness_EncodeUndoesDecode : decode 0x06F0000800000FFF#64 = .ok (.setbits 15 0 (-2048) 0 (-1)) := by decide
theorem legal_xor : legalFor 0x0420100000000000#64 .xor :=
  ⟨⟨.xor, 0xFF000FFFFFFFFFFF#64, 0x0400000000000000#64, 1⟩, by simp [opcodeRows], by decide, by decide, by decide⟩
theorem zero_illegal (op : Op) : ¬ legalFor 0 op := by
  have h : ∀ row ∈ opcodeRows, (0 : CW) &&& row.mask ≠ row.value := by decide
  rintro ⟨row, hm, -, hv, -⟩
  exact h row hm hv
theorem witness_IllegalWordsAreExactlyTheOpcodeTables : legalFor 0x0420100000000000#64 .xor ∧
    (asked (st []) (.issue 0)).upcoming = some (.issue 0) ∧ ∀ op, ¬ legalFor 0 op := ⟨legal_xor, rfl, zero_illegal⟩
theorem witness_CommandBytesAreBigEndian : (Instr.rotl 15 15 (-1) 2047).wellFormed = true := by decide
theorem witness_StepRunsTheDecodedCommand :
    (asked (st []) (.issue 0x0420100000000000#64)).upcoming = some (.issue 0x0420100000000000#64) ∧
    decode 0x0420100000000000#64 = .ok (.xor 2 0 1) := by decide
theorem witness_BitZeroIsTheMostSignificantOfByteZero :
    0 < 8 * ([0x80, 0x01] : Bytes).length ∧ 15 < 8 * ([0x80, 0x01] : Bytes).length ∧
    bit [0x80, 0x01] 0 = true ∧ bit [0x80, 0x01] 15 = true ∧ bit [0x80, 0x01] 8 = false := by decide

theorem witness_GetbitReadsOneBitIntoResult : (st []).buf 0 = none ∧ (st [(0, [1, 2])]).buf 0 = some [1, 2] ∧
    ((-1 : Int) < 0 ∧ 8 * (([1, 2] : Bytes).length : Int) ≤ 16) ∧ ((0 : Int) ≤ 15 ∧ (15 : Int) < 8 * (([1, 2] : Bytes).length : Int)) := by
  decide
theorem witness_SetbitWritesOneBitInPlace : (st []).buf 0 = none ∧ (st [(0, [1, 2])]).buf 0 = some [1, 2] ∧
    ((2 : Int) ≠ 0 ∧ (2 : Int) ≠ 1) ∧ (8 * (([1, 2] : Bytes).length : Int) ≤ 16) ∧
    ((0 : Int) ≤ 15 ∧ (15 : Int) < 8 * (([1, 2] : Bytes).length : Int)) ∧ fits ([1, 2] : Bytes).length :=
  ⟨by decide, by decide, by decide, by decide, by decide, fits_small (by decide)⟩
theorem witness_ExtendAppendsZeroBytes : (st []).buf 0 = none ∧ (st [(0, [1, 2])]).buf 0 = some [1, 2] ∧ (0 : Int) ≤ 0 ∧
    ((0 : Int) < 1 ∧ (1 : Int) < (([1, 2] : Bytes).length : Int)) ∧ (Config.bufCap : Int) < Config.bufCap + 1 ∧
    ((0 : Int) < 2 ∧ (([1, 2] : Bytes).length : Int) ≤ 2 ∧ (2 : Int) ≤ Config.bufCap) := by
  refine ⟨by decide, by decide, by decide, by decide, by omega, by decide, by decide, ?_⟩
  have : 512 ≤ Config.bufCap := fits_small (Nat.le_refl 512)
  omega
theorem witness_XorIsBytewiseWithZeroExtension : (st [(0, [0xF0])]).buf 2 = none ∧
    (st [(0, [1, 2, 0]), (1, [])]).buf 0 = some [1, 2, 0] ∧ (st [(0, [1, 2, 0]), (1, [])]).buf 1 = some [] ∧
    fits ([1, 2, 0] : Bytes).length ∧ fits ([] : Bytes).length :=
  ⟨by decide, by decide, by decide, fits_small (by decide), fits_small (by decide)⟩
theorem witness_GetbitsLeftPacksTheRange : (st []).buf 0 = none ∧ (st [(0, [1, 2])]).buf 0 = some [1, 2] ∧ (0 : Int) ≤ 0 ∧
    ((0 : Int) < 1 ∧ (-1 : Int) < 0) ∧ ((0 : Int) < 2 ∧ 8 * (([1, 2] : Bytes).length : Int) < 15 + 2) ∧
    ((0 : Int) < 1 ∧ (0 : Int) ≤ 15 ∧ (15 + 1 : Int) ≤ 8 * (([1, 2] : Bytes).length : Int)) ∧ fits ([1, 2] : Bytes).length :=
  ⟨by decide, by decide, by decide, by decide, by decide, by decide, fits_small (by decide)⟩
theorem witness_SetbitsCopiesTheRangeInPlace : (st [(1, [0, 0])]).buf 0 = none ∧
    (st [(0, [0xFF]), (1, [0, 0])]).buf 1 = some [0, 0] ∧ (st [(0, [0xFF]), (1, [0, 0])]).buf 0 = some [0xFF] ∧
    ((0 : BufIx) = 0 ∧ (2 : Int) < 0 + 4 ∧ (0 : Int) < 2 + 4) ∧
    ((0 : Int) < 6 ∧ ¬((1 : BufIx) = 0 ∧ (12 : Int) < 0 + 6 ∧ (0 : Int) < 12 + 6) ∧
      8 * (([0, 0] : Bytes).length : Int) < 12 + 6) ∧
    ((0 : Int) < 8 ∧ ¬((1 : BufIx) = 0 ∧ (8 : Int) < 0 + 8 ∧ (0 : Int) < 8 + 8) ∧ (0 : Int) ≤ 0 ∧
      (0 + 8 : Int) ≤ 8 * (([0xFF] : Bytes).length : Int) ∧ (8 + 8 : Int) ≤ 8 * (([0, 0] : Bytes).length : Int)) ∧
    fits ([0, 0] : Bytes).length :=
  ⟨by decide, by decide, by decide, by decide, by decide, by decide, fits_small (by decide)⟩
theorem witness_RotlRotatesTheRing : (st []).buf 0 = none ∧ (st [(0, [0x7F, 1])]).buf 0 = some [0x7F, 1] ∧
    ((0 : Int) ≤ 0 ∧ (-1 : Int) < 0) ∧ ((0 : Int) < 17 ∧ (0 : Int) ≤ 0 ∧ 8 * (([0x7F, 1] : Bytes).length : Int) < 17) ∧
    ((0 : Int) < 16 ∧ (0 : Int) ≤ 0 ∧ (16 : Int) ≤ 8 * (([0x7F, 1] : Bytes).length : Int)) ∧ fits ([0x7F, 1] : Bytes).length :=
  ⟨by decide, by decide, by decide, by decide, by decide, fits_small (by decide)⟩
theorem witness_SeparateGivesOneByteAGroup : (st []).buf 0 = none ∧ (st [(0, [0xA5])]).buf 0 = some [0xA5] ∧
    ((0 : Int) ≤ 0 ∧ (8 : Int) < 9) ∧ ((0 : Int) < 3 ∧ (3 : Int) ≤ 8 ∧ 8 * (([0xA5] : Bytes).length : Int) % 3 ≠ 0) ∧
    ((Config.bufCap : Int) < 8 * ((zeros (Config.bufCap + 1)).length : Int) / 1) ∧
    ((0 : Int) < 8 ∧ (8 : Int) ≤ 8 ∧ 8 * (([0xA5] : Bytes).length : Int) % 8 = 0 ∧
      8 * (([0xA5] : Bytes).length : Int) / 8 ≤ Config.bufCap) := by
  have : 512 ≤ Config.bufCap := fits_small (Nat.le_refl 512)
  refine ⟨by decide, by decide, by decide, by decide, ?_, by decide, by decide, by decide, ?_⟩
  · rw [zeros, List.length_replicate]; omega
  · simp only [List.length_cons, List.length_nil]; omega
theorem witness_ConcatJoinsTwoSeries : (st [(0, [0x80])]).buf 1 = none ∧
    (st [(0, [0x80]), (1, [0xFF])]).buf 0 = some [0x80] ∧ (st [(0, [0x80]), (1, [0xFF])]).buf 1 = some [0xFF] ∧ (0 : Int) ≤ 0 ∧
    ((0 : Int) < 8 ∧ (0 : Int) < 9 ∧ 8 * (([0xFF] : Bytes).length : Int) < 9) ∧
    ((0 : Int) < 8 ∧ (8 : Int) ≤ 8 * (([0x80] : Bytes).length : Int) ∧ (8 : Int) ≤ 2047) := by decide
theorem textLength_bounds (f : Config.TostringFmt) {n : Nat} (h : 0 < n) :
    9 * n - 1 ≤ textLength f n ∧ textLength f n ≤ 9 * n + 1 := by
  have h1 := Bool.toNat_le f.leading
  have h2 := Bool.toNat_le f.trailing
  rw [textLength, if_neg (Nat.pos_iff_ne_zero.1 h)]
  constructor <;> omega
/-- A buffer of one byte and one of 56 bytes fit as text in every format. -/
theorem witness_TostringWritesTheText : (st []).buf 0 = none ∧ (st [(0, [0xA5])]).buf 0 = some [0xA5] ∧
    fits (textLength Config.tostringFmt ([0xA5] : Bytes).length) ∧ fits (textLength Config.tostringFmt (zeros 56).length) ∧
    Config.bufCap < textLength Config.tostringFmt (zeros Config.bufCap).length := by
  have h : 512 ≤ Config.bufCap := fits_small (Nat.le_refl 512)
  have hc := (textLength_bounds Config.tostringFmt (n := Config.bufCap) (by omega)).1
  refine ⟨by decide, by decide, fits_small ?_, fits_small ?_, ?_⟩
  · exact (textLength_bounds _ (by decide)).2.trans (by decide)
  · exact (textLength_bounds _ (by decide)).2.trans (by decide)
  · rw [zeros_length]; omega
theorem witness_PermAppliesTheFixedTable : (0x1010060000000000#64).toNat / 2 ^ 56 = 0x10 ∧ 6 ≤ selOf 0x1010060000000000#64 ∧
    (st []).buf 0 = none ∧ (st [(0, [1, 2, 3])]).buf 0 = some [1, 2, 3] ∧ ([1, 2, 3] : Bytes).length < (tableShape .e).2.2 ∧
    (st [(0, [1, 2, 3, 4])]).buf 0 = some [1, 2, 3, 4] ∧ (tableShape .e).2.2 ≤ ([1, 2, 3, 4] : Bytes).length := by decide
theorem witness_PermtAppliesTheTableBuffer : (st [(0, [0x80])]).buf 1 = none ∧
    (st [(0, [0x80]), (1, [7, 8])]).buf 1 = some [7, 8] ∧ (∃ e ∈ ([7, 8] : Bytes), 8 * ([0x80] : Bytes).length ≤ e.toNat) ∧
    (∀ e ∈ ([0, 7] : Bytes), e.toNat < 8 * ([0x80] : Bytes).length) ∧ fits ([0, 7] : Bytes).length :=
  ⟨by decide, by decide, by decide, by decide, fits_small (by decide)⟩
theorem witness_SboxSubstitutesTheFirstSixBits : (0x1210080000000000#64).toNat / 2 ^ 56 = 0x12 ∧
    8 ≤ selOf 0x1210080000000000#64 ∧ (st []).buf 0 = none ∧ (st [(0, [])]).buf 0 = some [] ∧
    (st [(0, [0x84])]).buf 0 = some [0x84] ∧ boxOut .s5 (bit [0x84]) = 0xB := by decide
theorem witness_SubkeysStoresTheSchedule : (st []).buf 0 = none ∧ (st [(0, zeros 7)]).buf 0 = some (zeros 7) ∧
    (zeros 7).length ≠ 8 ∧ (st [(0, zeros 8)]).buf 0 = some (zeros 8) ∧ (zeros 8).length = 8 := by decide
theorem witness_WorkerBindsKeyAndStrategy : (0x2100020000000000#64).toNat / 2 ^ 56 = 0x21 ∧ 2 ≤ selOf 0x2100020000000000#64 ∧
    (st []).buf 0 = none ∧ (st [(0, zeros 9)]).buf 0 = some (zeros 9) ∧ (zeros 9).length ≠ 8 ∧
    (st [(0, zeros 8)]).buf 0 = some (zeros 8) ∧ (zeros 8).length = 8 := by decide
theorem witness_RdkeyReadsOneRoundKey : ((0 : Int) < 1 ∧ (16 : Int) < 17) ∧
    ((1 : Int) ≤ 16 ∧ (st []).ctx.getLsbD 0 = false) ∧ ((zeroSchedule (st [])).ctx.getLsbD 0 = true ∧
      (zeroSchedule (st [])).roundKey (16 : Int).toNat = some (zeros 6) ∧
      (zeroSchedule (st [])).roundKey (1 : Int).toNat = some (zeros 6) ∧ (zeros 6).length = 6) := by decide
theorem witness_RoundKeysAreSelectedKeyBits : (st [(0, zeros 8)]).buf 0 = some (zeros 8) ∧ (zeros 8).length = 8 ∧
    (Instr.worker 0 .decrypt = .subkeys 0 ∨ ∃ t, Instr.worker 0 .decrypt = .worker 0 t) :=
  ⟨by decide, by decide, .inr ⟨_, rfl⟩⟩
theorem witness_ParityBitsDoNotMatter : (st [(0, zeros 8)]).buf 0 = some (zeros 8) ∧
    (st [(1, [1, 1, 1, 1, 1, 1, 1, 1])]).buf 1 = some [1, 1, 1, 1, 1, 1, 1, 1] ∧
    (zeros 8).length = 8 ∧ ([1, 1, 1, 1, 1, 1, 1, 1] : Bytes).length = 8 ∧
    (∀ p < 64, p % 8 ≠ 7 → bit (zeros 8) p = bit [1, 1, 1, 1, 1, 1, 1, 1] p) ∧
    (Instr.subkeys 0 = .subkeys 0 ∨ ∃ t, Instr.subkeys 0 = .worker 0 t) ∧
    (Instr.worker 1 .decrypt = .subkeys 1 ∨ ∃ t, Instr.worker 1 .decrypt = .worker 1 t) :=
  ⟨by decide, by decide, by decide, by decide, by decide, .inl rfl, .inr ⟨_, rfl⟩⟩
theorem witness_FfuncIsTheRoundFunction : (st [(0, zeros 4)]).buf 1 = none ∧
    (st [(0, zeros 4), (1, zeros 6)]).buf 0 = some (zeros 4) ∧ (st [(0, zeros 4), (1, zeros 6)]).buf 1 = some (zeros 6) ∧
    ((zeros 3).length ≠ 4 ∧ (zeros 7).length ≠ 6) ∧ ((zeros 4).length = 4 ∧ (zeros 6).length = 6) := by decide
theorem witness_RoundIsOneFeistelRound : (st [(0, zeros 8)]).buf 1 = none ∧
    (st [(0, zeros 8), (1, zeros 6)]).buf 0 = some (zeros 8) ∧ (st [(0, zeros 8), (1, zeros 6)]).buf 1 = some (zeros 6) ∧
    ((zeros 9).length ≠ 8 ∧ (zeros 5).length ≠ 6) ∧ ((zeros 8).length = 8 ∧ (zeros 6).length = 6) := by decide
theorem zeroSchedule_scheduled : scheduled (zeroSchedule (st [(1, zeros 8)])) := by
  intro r h1 h16
  refine ⟨zeros 6, ?_, rfl⟩
  have : r - 1 < 16 := by omega
  simp [State.roundKey, zeroSchedule, this]
theorem witness_TransformIsDes : (st []).buf 1 = none ∧ (zeros 7).length ≠ 8 ∧
    ((st [(1, zeros 8)]).buf 1 = some (zeros 8) ∧ (zeros 8).length = 8 ∧ (st [(1, zeros 8)]).ctx.getLsbD 0 = false) ∧
    ((zeroSchedule (st [(1, zeros 8)])).buf 1 = some (zeros 8) ∧
      (zeroSchedule (st [(1, zeros 8)])).ctx.getLsbD 0 = true) ∧ scheduled (zeroSchedule (st [(1, zeros 8)])) :=
  ⟨by decide, by decide, by decide, by decide, zeroSchedule_scheduled⟩
theorem witness_DecryptionInvertsEncryption : (st [(0, zeros 8), (1, zeros 8)]).buf 0 = some (zeros 8) ∧
    (st [(0, zeros 8), (1, zeros 8)]).buf 1 = some (zeros 8) ∧ (zeros 8).length = 8 ∧ (2 : BufIx) ≠ 0 := by decide
theorem witness_GetbitAfterSetbitGivesTheValue : (st [(0, [0x5B, 0x7C])]).buf 0 = some [0x5B, 0x7C] ∧
    fits ([0x5B, 0x7C] : Bytes).length ∧ (0 : Int) ≤ 15 ∧ (15 : Int) < 8 * (([0x5B, 0x7C] : Bytes).length : Int) ∧
    ((1 : Int) = 0 ∨ (1 : Int) = 1) := ⟨by decide, fits_small (by decide), by decide, by decide, by decide⟩
theorem witness_XorAlgebra : (st [(0, [0x5B, 0x7C]), (1, [0])]).buf 0 = some [0x5B, 0x7C] ∧
    fits ([0x5B, 0x7C] : Bytes).length ∧ (st [(0, [0x5B, 0x7C]), (1, [0])]).buf 1 = some [0] ∧
    (∀ x ∈ ([0] : Bytes), x = 0) ∧ ([0] : Bytes).length ≤ ([0x5B, 0x7C] : Bytes).length :=
  ⟨by decide, fits_small (by decide), by decide, by decide, by decide⟩
theorem witness_RotlComesBackRound : (st [(0, [0x7F, 1])]).buf 0 = some [0x7F, 1] ∧ fits ([0x7F, 1] : Bytes).length ∧
    (0 : Int) < 16 ∧ (16 : Int) ≤ 8 * (([0x7F, 1] : Bytes).length : Int) ∧ (0 : Int) ≤ 18 ∧ (0 : Int) ≤ 0 :=
  ⟨by decide, fits_small (by decide), by decide, by decide, by decide, by decide⟩
theorem witness_ConcatPartsComeBack : (st [(0, [0x7F, 1]), (1, [0x60])]).buf 0 = some [0x7F, 1] ∧
    (st [(0, [0x7F, 1]), (1, [0x60])]).buf 1 = some [0x60] ∧ fits ([0x7F, 1] : Bytes).length ∧ fits ([0x60] : Bytes).length ∧
    (0 : Int) < 16 ∧ (0 : Int) < 1 ∧ (16 : Int) ≤ 8 * (([0x7F, 1] : Bytes).length : Int) ∧
    (1 : Int) ≤ 8 * (([0x60] : Bytes).length : Int) ∧ (16 : Int) ≤ 2047 ∧ (1 : Int) ≤ 2047 :=
  ⟨by decide, by decide, fits_small (by decide), fits_small (by decide), by decide, by decide, by decide, by decide,
    by decide, by decide⟩
theorem witness_FinalPermutationUndoesInitial : (st [(0, [1, 2, 3, 4, 5, 6, 7, 8])]).buf 0 = some [1, 2, 3, 4, 5, 6, 7, 8] ∧
    ([1, 2, 3, 4, 5, 6, 7, 8] : Bytes).length = 8 := by decide

/-- A step with a fault and a step without one, for the statements about what an issued command leaves. -/
theorem issue_faults : step (asked (st []) (.issue 0)) = .next (faulted (taken (st []) .nothing) 4) :=
  next_of_nextOf (by decide)
theorem issue_getbit : step (asked (st [(0, [0x80])]) (.issue 0x0100000000000000#64))
    = .next { taken (st [(0, [0x80])]) .nothing with result := 1 } := next_of_nextOf (by decide)
theorem witness_FaultsWriteOnlyStatusAndErrflags :
    exec (.xor 2 0 1) (st []) = .next (faulted (st []) 1) ∧ (faulted (st []) 1).code ≠ 0 ∧
    (asked (st []) (.issue 0)).upcoming = some (.issue 0) ∧
    step (asked (st []) (.issue 0)) = .next (faulted (taken (st []) .nothing) 4) ∧
    (faulted (taken (st []) .nothing) 4).code ≠ 0 :=
  ⟨next_of_nextOf (by decide), by decide, rfl, issue_faults, by decide⟩
theorem zeroSchedule_inv : (zeroSchedule (st [])).Inv where
  bufs := by intro i b h; fin_cases i <;> cases h
  status := by decide
  result := by decide
  errflags := by decide
  ctx := by decide
  schedule := by
    intro _ r h1 h16
    have : r - 1 < 16 := by omega
    exact ⟨zeros 6, by simp [State.roundKey, zeroSchedule, this], rfl⟩
  noSchedule := by intro h; exact absurd h (by decide)
/-- What is on the port plays no part in the invariant. -/
theorem asked_inv {s : State} (h : s.Inv) (q : Interaction) : (asked s q).Inv :=
  ⟨h.bufs, h.status, h.result, h.errflags, h.ctx, h.schedule, h.noSchedule⟩
/-- Each way a command ends has a case: RDKEY with round 17 and with no schedule, TRANSFORM of a block, GETBIT outside. -/
theorem witness_endsWith : badArgument (.rdkey 1 17) (zeroSchedule (st [])) ∧
    (¬ badArgument (.rdkey 1 16) (st []) ∧ badState (.rdkey 1 16) (st [])) ∧
    (¬ badArgument (.getbit 0 16) (st [(0, [1, 2])]) ∧ ¬ badState (.getbit 0 16) (st [(0, [1, 2])]) ∧
      outside (.getbit 0 16) (st [(0, [1, 2])])) ∧
    (¬ badArgument (.rdkey 1 16) (zeroSchedule (st [])) ∧ ¬ badState (.rdkey 1 16) (zeroSchedule (st [])) ∧
      ¬ outside (.rdkey 1 16) (zeroSchedule (st []))) := by
  have h : (st [(0, [1, 2])]).buf 0 ≠ none := by decide
  have hc : contents (st [(0, [1, 2])]) 0 = [1, 2] := by decide
  have hz : (zeroSchedule (st [])).ctx.getLsbD 0 = true := by decide
  have hn : (st []).ctx.getLsbD 0 = false := by decide
  refine ⟨.inr (.inr (by decide)), ⟨?_, .inl ⟨_, _, rfl⟩, hn⟩, ⟨?_, ?_, ?_⟩, ?_, ?_, ?_⟩
  · simp [badArgument, sources]
  · simp only [badArgument, sources, List.mem_singleton, exists_eq_left, or_false]; exact h
  · simp [badState]
  · simp only [outside, hc]; decide
  · simp [badArgument, sources]
  · simp [badState, hz]
  · simp [outside]
theorem witness_StatusHoldsTheOutcome : (zeroSchedule (st [])).Inv ∧ (Instr.rdkey 1 16).wellFormed = true ∧
    (asked (zeroSchedule (st [])) (.issue 0x2210000010000000#64)).upcoming = some (.issue 0x2210000010000000#64) ∧
    decode 0x2210000010000000#64 = .ok (.rdkey 1 16) ∧ (asked (zeroSchedule (st [])) (.issue 0x2210000010000000#64)).Inv ∧
    decode 0 = .error .unassignedOpcode ∧ step (asked (st []) (.issue 0)) = .next (faulted (taken (st []) .nothing) 4) ∧
    (asked (st []) (.readReg 0)).upcoming = some (.readReg 0) ∧
    step (asked (st []) (.readReg 0)) = .next (taken (st []) (.register 0)) ∧
    (∀ cw, Interaction.readReg 0 ≠ .issue cw) ∧ Interaction.readReg 0 ≠ .reset :=
  ⟨zeroSchedule_inv, by decide, rfl, by decide,
    asked_inv zeroSchedule_inv _,
    by decide, issue_faults, rfl, next_of_nextOf (by decide), by simp, by simp⟩
theorem witness_ResultIsWrittenOnlyByGetbit :
    (asked (st [(0, [0x80])]) (.issue 0x0100000000000000#64)).upcoming = some (.issue 0x0100000000000000#64) ∧
    step (asked (st [(0, [0x80])]) (.issue 0x0100000000000000#64))
      = .next { taken (st [(0, [0x80])]) .nothing with result := 1 } ∧
    ({ taken (st [(0, [0x80])]) .nothing with result := 1 } : State).result
      ≠ (asked (st [(0, [0x80])]) (.issue 0x0100000000000000#64)).result := ⟨rfl, issue_getbit, by decide⟩
theorem witness_ErrflagsAreSticky : (asked { st [] with errflags := 2 } (.issue 0)).upcoming ≠ some .reset ∧
    step (asked { st [] with errflags := 2 } (.issue 0))
      = .next (faulted (taken { st [] with errflags := 2 } .nothing) 4) ∧
    (faulted (taken { st [] with errflags := 2 } .nothing) 4).code ≠ 0 ∧
    (asked { st [] with errflags := 2 } (.issue 0)).errflags.getLsbD 1 = true :=
  ⟨by decide, next_of_nextOf (by decide), by decide, by decide⟩
theorem witness_WorkerContextIsWrittenOnlyBySubkeysAndWorker :
    (asked (st [(0, zeros 8)]) (.issue 0x2100010000000000#64)).upcoming = some (.issue 0x2100010000000000#64) ∧
    (nextOf (step (asked (st [(0, zeros 8)]) (.issue 0x2100010000000000#64)))).map State.ctx = some 3 ∧
    (asked (st [(0, zeros 8)]) (.issue 0x2100010000000000#64)).ctx = 0 := by decide +kernel
theorem exec_getbit : exec (.getbit 0 0) (st [(0, [0x80])]) = .next { st [(0, [0x80])] with result := 1 } :=
  next_of_nextOf (by decide)
theorem exec_xor : exec (.xor 2 0 1) (st [(0, [3]), (1, [1])]) = .next (wrote (st [(0, [3]), (1, [1])]) 2 [2]) :=
  next_of_nextOf (by decide)
theorem witness_NoCommandReadsTheOutcomeRegisters :
    exec (.getbit 0 0) (st [(0, [0x80])]) = .next { st [(0, [0x80])] with result := 1 } ∧
    exec (.xor 2 0 1) (st []) = .next (faulted (st []) 1) ∧ (faulted (st []) 1).code ≠ 0 ∧
    (dest (.xor 2 0 1) ≠ none ∨ makesSchedule (.xor 2 0 1)) ∧ dest (.getbit 0 0) = none ∧ ¬ makesSchedule (.getbit 0 0) :=
  ⟨exec_getbit, next_of_nextOf (by decide), by decide, .inl (by decide), by decide, by simp [makesSchedule]⟩
theorem witness_CommandsRaiseOnlyTheirFaults : (zeroSchedule (st [])).Inv ∧
    (Instr.rdkey 1 17).wellFormed = true ∧
    exec (.rdkey 1 17) (zeroSchedule (st [])) = .next (faulted (zeroSchedule (st [])) 1) :=
  ⟨zeroSchedule_inv, by decide, next_of_nextOf (by decide)⟩
theorem witness_CommandsWriteOnlyTheirDestination :
    exec (.xor 2 0 1) (st [(0, [3]), (1, [1])]) = .next (wrote (st [(0, [3]), (1, [1])]) 2 [2]) ∧
    dest (.xor 2 0 1) ≠ some 0 := ⟨exec_xor, by decide⟩
theorem witness_CommandsReadOnlyTheirSources :
    (∀ r ∈ sources (.xor 2 0 1), (st [(0, [3]), (1, [1]), (2, [9])]).buf r = (st [(0, [3]), (1, [1])]).buf r) ∧
    (st [(0, [3]), (1, [1]), (2, [9])]).ctx = (st [(0, [3]), (1, [1])]).ctx ∧
    (st [(0, [3]), (1, [1]), (2, [9])]).ks = (st [(0, [3]), (1, [1])]).ks ∧
    exec (.xor 2 0 1) (st [(0, [3]), (1, [1])]) = .next (wrote (st [(0, [3]), (1, [1])]) 2 [2]) :=
  ⟨by decide, by decide, by decide, exec_xor⟩
theorem witness_CommandsAreIdempotent : (∀ r, dest (.xor 2 0 1) = some r → r ∉ sources (.xor 2 0 1)) ∧
    ¬ makesSchedule (.xor 2 0 1) ∧
    exec (.xor 2 0 1) (st [(0, [3]), (1, [1])]) = .next (wrote (st [(0, [3]), (1, [1])]) 2 [2]) :=
  ⟨by decide, by simp [makesSchedule], exec_xor⟩
theorem witness_HostInteractionsDoWhatTheyShould :
    (asked (st []) (.issue 0)).upcoming = some (.issue 0) ∧ decode 0 = .error .unassignedOpcode ∧
    decode 0x0420100000000000#64 = .ok (.xor 2 0 1) ∧ fits ([0xAB] : Bytes).length ∧
    ¬ fits (zeros (Config.bufCap + 1)).length ∧ (asked (st []) (.writeBuf 16 [])).upcoming = some (.writeBuf 16 []) ∧
    (asked (st []) (.readReg 3)).upcoming = some (.readReg 3) ∧ 4 ≤ (4 : Word).toNat ∧
    (asked (st []) .reset).upcoming = some .reset := by
  refine ⟨rfl, by decide, by decide, fits_small (by decide), ?_, rfl, rfl, by decide, rfl⟩
  simp [fits, zeros]
/-- A state in which the host's program is over: the host has got a reply for each of its interactions. -/
def ended (s : State) : State := { s with replies := List.replicate Config.hostProgram.length .nothing }
theorem ended_upcoming {s : State} (h : s.port = none) : (ended s).upcoming = none := by
  simp [ended, State.upcoming, h]
theorem witness_IdleCoreKeepsItsState : (ended (st [(0, [1])])).upcoming = none := ended_upcoming (by decide)
theorem witness_EveryInteractionReturns : (asked (st []) (.readReg 0)).upcoming ≠ none := by decide
theorem witness_HostProgramRunsInOrder : State.reset.port = none ∧
    State.reset.upcoming = Config.hostProgram[0]? := ⟨rfl, rfl⟩
theorem witness_EveryStepKeepsTheInvariant : (asked (zeroSchedule (st [])) (.readReg 0)).Inv ∧
    step (asked (zeroSchedule (st [])) (.readReg 0)) = .next (taken (zeroSchedule (st [])) (.register 0)) :=
  ⟨asked_inv zeroSchedule_inv _, next_of_nextOf (by decide)⟩

end Sys2Proof.Tests
end

/-! PROOFS of the statements of 10_state.md (O37, O38, O39, O46), and the lemmas they need: what a command's first cause
of a fault is, and what a step does to the status registers. -/

namespace Sys2Proof.Proofs

open Sys2Proof Sys2Proof.Machine Sys2Proof.Claims

/-! ## The first cause of a fault

`FirstCause arg st out x` says that `x` is decided by three groups of causes in the order of 60_exceptions.md R234. Each
rule of the model has one such lemma; a command's is put together from them along its `do` block. -/

/-- `x` faults with the first cause that is met of `arg` (InvalidArgument), `st` (InvalidState) and `out` (OutOfRange),
and succeeds where none is. -/
inductive FirstCause {α : Type} (arg st out : Prop) : Except CmdFault α → Prop
  | argument (ha : arg) : FirstCause arg st out (.error .invalidArgument)
  | state (ha : ¬ arg) (hs : st) : FirstCause arg st out (.error .invalidState)
  | outside (ha : ¬ arg) (hs : ¬ st) (ho : out) : FirstCause arg st out (.error .outOfRange)
  | success (ha : ¬ arg) (hs : ¬ st) (ho : ¬ out) (a : α) : FirstCause arg st out (.ok a)

section Rules

variable {α β : Type} {arg st out : Prop} {s : State}

/-- Reading a source: an absent one is a cause of every command (60_exceptions.md R231), a present one is passed on. -/
theorem FirstCause.source {i : Instr} {r : BufIx} {f : Bytes → Except CmdFault β}
    (present : ∀ b, s.buf r = some b → FirstCause (badArgument i s) st out (f b))
    (hr : r ∈ sources i := by simp [sources]) : FirstCause (badArgument i s) st out (operand s r >>= f) := by
  cases hb : s.buf r with
  | none => rw [operand_none hb, bind_error]; exact .argument (.inl ⟨r, hr, hb⟩)
  | some b => rw [operand_some hb, bind_ok]; exact present b hb

theorem FirstCause.requireLength {b : Bytes} {n : Nat} {f : Unit → Except CmdFault β} (ne : b.length ≠ n → arg)
    (eq : b.length = n → FirstCause arg st out (f ())) : FirstCause arg st out (requireLength b n >>= f) := by
  by_cases h : b.length = n
  · rw [requireLength_eq h, bind_ok]; exact eq h
  · rw [requireLength_ne h, bind_error]; exact .argument (ne h)

theorem FirstCause.requireSchedule {f : Unit → Except CmdFault β} (ha : ¬ arg) (unset : s.ksv = false → st)
    (set : s.ksv = true → FirstCause arg st out (f ())) : FirstCause arg st out (requireSchedule s >>= f) := by
  cases h : s.ksv with
  | false => rw [requireSchedule_false h, bind_error]; exact .state ha (unset h)
  | true => rw [requireSchedule_true h, bind_ok]; exact set h

theorem FirstCause.congr {arg' st' out' : Prop} {x : Except CmdFault α} (h : FirstCause arg st out x)
    (ha : arg ↔ arg') (hs : st ↔ st') (ho : out ↔ out') : FirstCause arg' st' out' x := by
  rwa [ha, hs, ho] at h

/-- What follows a rule and cannot fault leaves its causes as they are. -/
theorem FirstCause.map {x : Except CmdFault α} (h : FirstCause arg st out x) (g : α → β) :
    FirstCause arg st out (x >>= fun a => .ok (g a)) := by
  cases h with
  | argument ha => exact .argument ha
  | state ha hs => exact .state ha hs
  | outside ha hs ho => exact .outside ha hs ho
  | success ha hs ho a => exact .success ha hs ho (g a)

/-- The commit of a result adds one cause, a result that is too long (30_encoding.md R76 step 4). -/
theorem FirstCause.commit_capped {x : Except CmdFault Bytes} (h : FirstCause arg st out x) (rd : BufIx) {long : Prop}
    (hlong : ∀ v, x = .ok v → (long ↔ Config.bufCap < v.length)) :
    FirstCause arg st (out ∨ long) (x >>= commitBuf s rd) := by
  cases h with
  | argument ha => exact .argument ha
  | state ha hs => exact .state ha hs
  | outside ha hs ho => exact .outside ha hs (.inl ho)
  | success ha hs ho v =>
    rw [bind_ok]
    rcases commitBuf_cases s rd v with ⟨hv, e⟩ | ⟨hv, e⟩ <;> rw [e]
    · exact .success ha hs (not_or.2 ⟨ho, fun hl => absurd ((hlong v rfl).1 hl) (by omega)⟩) _
    · exact .outside ha hs (.inr ((hlong v rfl).2 hv))

/-- The commit of a result that always fits adds no cause. -/
theorem FirstCause.commit {x : Except CmdFault Bytes} (h : FirstCause arg st out x) (rd : BufIx)
    (fit : ∀ v, x = .ok v → v.length ≤ Config.bufCap) : FirstCause arg st out (x >>= commitBuf s rd) := by
  simpa using h.commit_capped (s := s) rd (long := False) fun v hv => by simpa using fit v hv

end Rules

/-! ### The functions of the commands -/

theorem positionOutside_iff (b : Bytes) (p : Int) : positionOutside b p = true ↔ p < 0 ∨ 8 * (b.length : Int) ≤ p := by
  simp only [positionOutside, Bool.or_eq_true, decide_eq_true_eq]; omega

theorem rangeOutside_iff (b : Bytes) (start n : Int) :
    rangeOutside b start n = true ↔ start < 0 ∨ 8 * (b.length : Int) < start + n := by simp [rangeOutside]

theorem getBitF_firstCause (b : Bytes) (p : Int) :
    FirstCause False False (p < 0 ∨ 8 * (b.length : Int) ≤ p) (getBitF b p) := by
  unfold getBitF
  split_ifs with h <;> rw [positionOutside_iff] at h
  · exact .outside id id h
  · exact .success id id h _

theorem setBitF_firstCause (b : Bytes) (p v : Int) :
    FirstCause (v ≠ 0 ∧ v ≠ 1) False (p < 0 ∨ 8 * (b.length : Int) ≤ p) (setBitF b p v) := by
  unfold setBitF
  split_ifs with hv hp
  · exact .argument hv
  · exact .outside hv id ((positionOutside_iff b p).1 hp)
  · exact .success hv id (mt (positionOutside_iff b p).2 hp) _

theorem extendF_firstCause (b : Bytes) (n : Int) : FirstCause (n ≤ 0) False (n < (b.length : Int)) (extendF b n) := by
  unfold extendF
  split_ifs with h0 hn
  · exact .argument h0
  · exact .outside h0 id hn
  · exact .success h0 id hn _

theorem getBitsF_firstCause (b : Bytes) (start n : Int) :
    FirstCause (n ≤ 0) False (start < 0 ∨ 8 * (b.length : Int) < start + n) (getBitsF b start n) := by
  unfold getBitsF
  split_ifs with h0 hr
  · exact .argument h0
  · exact .outside h0 id ((rangeOutside_iff b start n).1 hr)
  · exact .success h0 id (mt (rangeOutside_iff b start n).2 hr) _

theorem setBitsF_firstCause (same : Bool) (d src : Bytes) (ds ss n : Int) :
    FirstCause (n ≤ 0 ∨ (same = true ∧ ds < ss + n ∧ ss < ds + n)) False
      ((ss < 0 ∨ 8 * (src.length : Int) < ss + n) ∨ ds < 0 ∨ 8 * (d.length : Int) < ds + n)
      (setBitsF same d src ds ss n) := by
  have overlap : (same && rangesOverlap ds ss n) = true ↔ same = true ∧ ds < ss + n ∧ ss < ds + n := by
    simp [rangesOverlap]
  simp only [← overlap, ← rangeOutside_iff]
  unfold setBitsF
  split_ifs with h0 ho hs hd
  · exact .argument (.inl h0)
  · exact .argument (.inr ho)
  · exact .outside (not_or.2 ⟨h0, ho⟩) id (.inl hs)
  · exact .outside (not_or.2 ⟨h0, ho⟩) id (.inr hd)
  · exact .success (not_or.2 ⟨h0, ho⟩) id (not_or.2 ⟨hs, hd⟩) _

theorem rotlF_firstCause (b : Bytes) (len sh : Int) :
    FirstCause (len ≤ 0 ∨ sh < 0) False (8 * (b.length : Int) < len) (rotlF b len sh) := by
  unfold rotlF
  split_ifs with h0 hs hl
  · exact .argument (.inl h0)
  · exact .argument (.inr hs)
  · exact .outside (not_or.2 ⟨h0, hs⟩) id hl
  · exact .success (not_or.2 ⟨h0, hs⟩) id hl _

theorem separateF_firstCause (b : Bytes) (g : Int) :
    FirstCause (g < 1 ∨ 8 < g) False (8 * (b.length : Int) % g ≠ 0) (separateF b g) := by
  unfold separateF
  split_ifs with hg hm
  · exact .argument (by omega)
  all_goals
    lift g to Nat using (by omega)
    rw [Int.toNat_natCast] at hm
  · exact .outside (by omega) id (mod_cast hm)
  · exact .success (by omega) id (mod_cast hm) _

theorem concatF_firstCause (a : Bytes) (na : Int) (c : Bytes) (nc : Int) :
    FirstCause (na ≤ 0 ∨ nc ≤ 0) False (8 * (a.length : Int) < na ∨ 8 * (c.length : Int) < nc) (concatF a na c nc) := by
  unfold concatF
  split_ifs with h0 hl
  · exact .argument h0
  · exact .outside h0 id hl
  · exact .success h0 id hl _

theorem permuteF_firstCause (b : Bytes) (t : List Nat) :
    FirstCause False False (∃ e ∈ t, 8 * b.length ≤ e) (permuteF b t) := by
  unfold permuteF
  split_ifs with h <;> simp only [List.any_eq_true, decide_eq_true_eq] at h
  · exact .outside id id h
  · exact .success id id h _

theorem sboxByte_firstCause (k : Box) (b : Bytes) : FirstCause False False (b = []) (sboxByte k b) := by
  cases b with
  | nil => exact .outside id id rfl
  | cons x rest => exact .success id id (by simp) _

theorem scheduleOperand_firstCause (s : State) (ra : BufIx) :
    FirstCause (s.buf ra = none ∨ (contents s ra).length ≠ 8) False False (scheduleOperand s ra) := by
  rcases scheduleOperand_cases s ra with ⟨key, ks, hb, h8, -, -, -, h⟩ | ⟨hne, h⟩ <;> rw [h]
  · exact .success (by simp [contents, hb, h8]) id id _
  · refine .argument ?_
    cases hb : s.buf ra with
    | none => exact .inl rfl
    | some key => exact .inr (by simpa [contents, hb] using hne key hb)

/-! ### The lengths of the results -/

theorem ceil8_le_iff {n m : Nat} : ceil8 n ≤ m ↔ n ≤ 8 * m := by unfold ceil8; omega

theorem setBitF_length {b v : Bytes} {p x : Int} (h : setBitF b p x = .ok v) : v.length = b.length := by
  unfold setBitF at h
  split_ifs at h
  cases h; simp

theorem extendF_length {b v : Bytes} {n : Int} (h : extendF b n = .ok v) : (v.length : Int) = n := by
  unfold extendF at h
  split_ifs at h
  cases h
  simp only [List.length_append, zeros_length]; omega

theorem getBitsF_length {b v : Bytes} {start n : Int} (h : getBitsF b start n = .ok v) : v.length ≤ b.length := by
  unfold getBitsF at h
  split_ifs at h with h0 hr
  cases h
  rw [rangeOutside_iff] at hr
  simp only [pack_length, memRead_length, ceil8_le_iff]; omega

theorem setBitsF_length {same : Bool} {d src v : Bytes} {ds ss n : Int} (h : setBitsF same d src ds ss n = .ok v) :
    v.length = d.length := by
  unfold setBitsF at h
  split_ifs at h
  cases h; simp

theorem rotlF_length {b v : Bytes} {len sh : Int} (h : rotlF b len sh = .ok v) : v.length ≤ b.length := by
  unfold rotlF at h
  split_ifs at h
  cases h
  simp only [pack_length, rotateBits_length, memRead_length, ceil8_le_iff]; omega

theorem separateF_length {b v : Bytes} {g : Int} (h : separateF b g = .ok v) :
    (v.length : Int) = 8 * (b.length : Int) / g := by
  unfold separateF at h
  split_ifs at h with hg hm
  cases h
  lift g to Nat using (by omega)
  simp

/-- Two encodable counts give at most 512 bytes (30_encoding.md R77). -/
theorem concatF_length {a c v : Bytes} {na nc : Int} (ha : na ≤ 2047) (hc : nc ≤ 2047)
    (h : concatF a na c nc = .ok v) : v.length ≤ 512 := by
  unfold concatF at h
  split_ifs at h
  cases h
  simp only [pack_length, List.length_append, memRead_length, ceil8_le_iff]; omega

theorem permuteF_length {b v : Bytes} {t : List Nat} (h : permuteF b t = .ok v) : v.length = ceil8 t.length := by
  unfold permuteF at h
  split_ifs at h
  cases h; simp

theorem sboxByte_length {k : Box} {b v : Bytes} (h : sboxByte k b = .ok v) : v.length = 1 := by
  cases b with
  | nil => cases h
  | cons x rest => cases h; rfl

theorem tostringText_length_eq (f : Config.TostringFmt) (b : Bytes) :
    (tostringText f b).length = textLength f b.length := by
  cases b with
  | nil => rfl
  | cons x rest => rw [tostringText_length f (by simp)]; rfl

/-- A fixed table fits the inputs from its smallest on, and no shorter one (42_permutation.md R151). -/
theorem table0_outside_iff (t : PermTable) (n : Nat) : (∃ e ∈ table0 t, 8 * n ≤ e) ↔ n < (tableShape t).2.2 := by
  have needs : tableNeeds t = 8 * (tableShape t).2.2 := by cases t <;> rfl
  have last : ∃ e ∈ table0 t, 8 * ((tableShape t).2.2 - 1) ≤ e := by cases t <;> decide
  constructor
  · rintro ⟨e, he, h⟩
    have := table0_lt t e he
    omega
  · obtain ⟨e, he, hlast⟩ := last
    exact fun h => ⟨e, he, by omega⟩

theorem table0_length_le (t : PermTable) : ceil8 (table0 t).length ≤ 512 := by cases t <;> decide

/-! ## What a command ends with -/

/-- The rule of a command is decided by the causes of its row of the table (60_exceptions.md R231, R234). -/
def Decided (i : Instr) (s : State) : Prop :=
  ∃ r, exec i s = finish s r ∧ FirstCause (badArgument i s) (badState i s) (outside i s) r

theorem not_badState_of_ksv {i : Instr} {s : State} (h : s.ksv = true) : ¬ badState i s := fun ⟨_, hs⟩ =>
  Bool.false_ne_true (hs.symm.trans h)

theorem contents_of_some {s : State} {r : BufIx} {b : Bytes} (h : s.buf r = some b) : contents s r = b := by
  simp [contents, h]

section Commands

variable {s : State}

theorem getbit_decided (s : State) (ra : BufIx) (p : Int) : Decided (.getbit ra p) s := by
  refine ⟨_, rfl, .source fun b hb => ?_⟩
  simpa [badArgument, badState, outside, sources, hb, contents_of_some hb] using
    (getBitF_firstCause b p).map s.setResult

theorem setbit_decided (hs : s.Inv) (rd : BufIx) (p v : Int) : Decided (.setbit rd p v) s := by
  refine ⟨_, rfl, .source fun b hb => ?_⟩
  simpa [badArgument, badState, outside, sources, hb, contents_of_some hb] using
    (setBitF_firstCause b p v).commit rd fun c hc => (setBitF_length hc).trans_le (hs.bufs rd b hb)

theorem extend_decided (s : State) (rd ra : BufIx) (n : Int) : Decided (.extend rd ra n) s := by
  refine ⟨_, rfl, .source fun b hb => ?_⟩
  have long : ∀ v, extendF b n = .ok v → ((Config.bufCap : Int) < n ↔ Config.bufCap < v.length) :=
    fun v hv => by rw [← extendF_length hv]; exact Int.ofNat_lt
  exact ((extendF_firstCause b n).commit_capped rd long).congr (by simp [badArgument, sources, hb])
    (by simp [badState]) (by rw [outside, contents_of_some hb])

theorem xor_decided (hs : s.Inv) (rd ra rb : BufIx) : Decided (.xor rd ra rb) s := by
  refine ⟨_, rfl, .source fun a ha => .source fun c hc => ?_⟩
  rw [commitBuf_ok _ _ _ (by rw [xorF_length]; exact max_le (hs.bufs ra a ha) (hs.bufs rb c hc))]
  exact .success (by simp [badArgument, sources, ha, hc]) (by simp [badState]) (by simp [outside]) _

theorem getbits_decided (hs : s.Inv) (rd ra : BufIx) (start n : Int) : Decided (.getbits rd ra start n) s := by
  refine ⟨_, rfl, .source fun b hb => ?_⟩
  simpa [badArgument, badState, outside, sources, hb, contents_of_some hb] using
    (getBitsF_firstCause b start n).commit rd fun v hv => (getBitsF_length hv).trans (hs.bufs ra b hb)

theorem setbits_decided (hs : s.Inv) (rd ra : BufIx) (ds ss n : Int) : Decided (.setbits rd ra ds ss n) s := by
  refine ⟨_, rfl, .source fun d hd => .source fun b hb => ?_⟩
  simpa [badArgument, badState, outside, sources, hd, hb, contents_of_some hd, contents_of_some hb, or_assoc] using
    (setBitsF_firstCause (decide (rd = ra)) d b ds ss n).commit rd
      fun v hv => (setBitsF_length hv).trans_le (hs.bufs rd d hd)

theorem rotl_decided (hs : s.Inv) (rd ra : BufIx) (len sh : Int) : Decided (.rotl rd ra len sh) s := by
  refine ⟨_, rfl, .source fun b hb => ?_⟩
  simpa [badArgument, badState, outside, sources, hb, contents_of_some hb] using
    (rotlF_firstCause b len sh).commit rd fun v hv => (rotlF_length hv).trans (hs.bufs ra b hb)

theorem separate_decided (s : State) (rd ra : BufIx) (g : Int) : Decided (.separate rd ra g) s := by
  refine ⟨_, rfl, .source fun b hb => ?_⟩
  have long : ∀ v, separateF b g = .ok v →
      ((Config.bufCap : Int) < 8 * (b.length : Int) / g ↔ Config.bufCap < v.length) :=
    fun v hv => by rw [← separateF_length hv]; exact Int.ofNat_lt
  exact ((separateF_firstCause b g).commit_capped rd long).congr (by simp [badArgument, sources, hb])
    (by simp [badState]) (by rw [outside, contents_of_some hb])

theorem concat_decided (rd ra rb : BufIx) {na nc : Int} (hna : na ≤ 2047) (hnc : nc ≤ 2047) :
    Decided (.concat rd ra rb na nc) s := by
  refine ⟨_, rfl, .source fun a ha => .source fun c hc => ?_⟩
  simpa [badArgument, badState, outside, sources, ha, hc, contents_of_some ha, contents_of_some hc] using
    (concatF_firstCause a na c nc).commit rd fun v hv => (concatF_length hna hnc hv).trans bufCap_ge

theorem tostring_decided (s : State) (rd ra : BufIx) : Decided (.tostring rd ra) s := by
  refine ⟨_, rfl, .source fun b hb => ?_⟩
  rw [commitText_eq]
  have ha : ¬ badArgument (.tostring rd ra) s := by simp [badArgument, sources, hb]
  have hst : ¬ badState (.tostring rd ra) s := by simp [badState]
  have ho : outside (.tostring rd ra) s ↔ Config.bufCap < (tostringText Config.tostringFmt b).length := by
    rw [tostringText_length_eq, outside, contents_of_some hb]
  rcases commitBuf_cases s rd (tostringText Config.tostringFmt b) with ⟨hv, e⟩ | ⟨hv, e⟩ <;> rw [e]
  · exact .success ha hst (mt ho.1 (by omega)) _
  · exact .outside ha hst (ho.2 hv)

theorem perm_decided (s : State) (rd ra : BufIx) (t : PermTable) : Decided (.perm rd ra t) s := by
  refine ⟨_, rfl, .source fun b hb => ?_⟩
  have h := (permuteF_firstCause b (table0 t)).commit (s := s) rd fun v hv =>
    (permuteF_length hv).trans_le ((table0_length_le t).trans bufCap_ge)
  rw [table0_outside_iff] at h
  simpa [badArgument, badState, outside, sources, hb, contents_of_some hb] using h

theorem permt_decided (hs : s.Inv) (rd ra rb : BufIx) : Decided (.permt rd ra rb) s := by
  refine ⟨_, rfl, .source fun b hb => .source fun t ht => ?_⟩
  have fit : ∀ v, permuteF b (t.map BitVec.toNat) = .ok v → v.length ≤ Config.bufCap := fun v hv => by
    have := hs.bufs rb t ht
    rw [permuteF_length hv, List.length_map, ceil8_le_iff]; omega
  simpa [badArgument, badState, outside, sources, hb, ht, contents_of_some hb, contents_of_some ht] using
    (permuteF_firstCause b (t.map BitVec.toNat)).commit rd fit

theorem sbox_decided (s : State) (rd ra : BufIx) (k : Box) : Decided (.sbox rd ra k) s := by
  refine ⟨_, rfl, .source fun b hb => ?_⟩
  simpa [badArgument, badState, outside, sources, hb, contents_of_some hb] using
    (sboxByte_firstCause k b).commit rd fun v hv => (sboxByte_length hv).trans_le (Nat.le_trans (by decide) bufCap_ge)

theorem subkeys_decided (s : State) (ra : BufIx) : Decided (.subkeys ra) s :=
  ⟨_, rfl, by
    simpa [badArgument, badState, outside, sources] using
      (scheduleOperand_firstCause s ra).map fun ks => (s.setSchedule ks).setKsv⟩

theorem worker_decided (s : State) (ra : BufIx) (t : Strategy) : Decided (.worker ra t) s :=
  ⟨_, rfl, by
    simpa [badArgument, badState, outside, sources] using
      (scheduleOperand_firstCause s ra).map fun ks => (s.setSchedule ks).setKsv.setStrat t⟩

theorem rdkey_decided (hs : s.Inv) (rd : BufIx) (r : Int) : Decided (.rdkey rd r) s := by
  refine ⟨_, rfl, ?_⟩
  split_ifs with hr
  · exact .argument (.inr hr)
  have ha : ¬ badArgument (.rdkey rd r) s := by simpa [badArgument, sources] using hr
  refine .requireSchedule ha (fun h => ⟨.inl ⟨rd, r, rfl⟩, h⟩) fun hk => ?_
  obtain ⟨k, hkey, h6⟩ := hs.schedule hk r.toNat (by omega) (by omega)
  have := bufCap_ge
  rw [roundKeyOperand_some hkey, bind_ok, commitBuf_ok _ _ _ (by omega)]
  exact .success ha (not_badState_of_ksv hk) id _

theorem ffunc_decided (s : State) (rd ra rb : BufIx) : Decided (.ffunc rd ra rb) s := by
  refine ⟨_, rfl, .source fun r hr => .source fun k hk =>
    .requireLength (fun h => .inr (.inl ?_)) fun h4 => .requireLength (fun h => .inr (.inr ?_)) fun h6 => ?_⟩
  · rwa [contents_of_some hr]
  · rwa [contents_of_some hk]
  · have := bufCap_ge
    rw [feistelF_ok h4 h6, bind_ok, commitBuf_ok _ _ _ (by rw [feistelValue_length]; omega)]
    exact .success (by simp [badArgument, sources, contents, hr, hk, h4, h6]) (by simp [badState]) id _

theorem round_decided (s : State) (rd ra rb : BufIx) : Decided (.round rd ra rb) s := by
  refine ⟨_, rfl, .source fun blk hblk => .source fun k hk =>
    .requireLength (fun h => .inr (.inl ?_)) fun h8 => .requireLength (fun h => .inr (.inr ?_)) fun h6 => ?_⟩
  · rwa [contents_of_some hblk]
  · rwa [contents_of_some hk]
  · have hl : (blk.take 4).length = 4 := by simp [h8]
    have hr : (blk.drop 4).length = 4 := by simp [h8]
    obtain ⟨hround, hnew⟩ := feistelRound_ok hl hr h6
    have := bufCap_ge
    rw [hround, bind_ok, commitBuf_ok _ _ _ (by rw [List.length_append, hr, hnew]; omega)]
    exact .success (by simp [badArgument, sources, contents, hblk, hk, h8, h6]) (by simp [badState]) id _

theorem transform_decided (hs : s.Inv) (rd ra : BufIx) : Decided (.transform rd ra) s := by
  refine ⟨_, rfl, .source fun blk hblk =>
    .requireLength (fun h => .inr (show (contents s ra).length ≠ 8 by rwa [contents_of_some hblk])) fun h8 => ?_⟩
  have ha : ¬ badArgument (.transform rd ra) s := by simp [badArgument, sources, contents, hblk, h8]
  refine .requireSchedule ha (fun h => ⟨.inr ⟨rd, ra, rfl⟩, h⟩) fun hk => ?_
  have keys : ∀ n, 1 ≤ n → n ≤ 16 → ∃ k, roundKeyOperand s n = .ok k ∧ k.length = 6 := fun n h1 h16 => by
    obtain ⟨k, hkey, h6⟩ := hs.schedule hk n h1 h16
    exact ⟨k, roundKeyOperand_some hkey, h6⟩
  obtain ⟨v, hv, hlen⟩ := transformBlock_ok (t := s.strat) h8 keys
  have := bufCap_ge
  rw [hv, bind_ok, commitBuf_ok _ _ _ (by omega)]
  exact .success ha (not_badState_of_ksv hk) id _

end Commands

/-- Every encodable command, in every state the spec allows, ends as its row of the table of causes says
(60_exceptions.md R231). -/
theorem decided {s : State} (hs : s.Inv) : ∀ i : Instr, i.wellFormed = true → Decided i s
  | .getbit ra p, _ => getbit_decided s ra p
  | .setbit rd p v, _ => setbit_decided hs rd p v
  | .extend rd ra n, _ => extend_decided s rd ra n
  | .xor rd ra rb, _ => xor_decided hs rd ra rb
  | .getbits rd ra start n, _ => getbits_decided hs rd ra start n
  | .setbits rd ra ds ss n, _ => setbits_decided hs rd ra ds ss n
  | .rotl rd ra len sh, _ => rotl_decided hs rd ra len sh
  | .separate rd ra g, _ => separate_decided s rd ra g
  | .concat rd ra rb na nc, hw => by
    obtain ⟨⟨-, hna⟩, -, hnc⟩ : (-2048 ≤ na ∧ na ≤ 2047) ∧ -2048 ≤ nc ∧ nc ≤ 2047 := by
      simpa [Instr.wellFormed, Instr.immediates, immInRange] using hw
    exact concat_decided rd ra rb hna hnc
  | .tostring rd ra, _ => tostring_decided s rd ra
  | .perm rd ra t, _ => perm_decided s rd ra t
  | .permt rd ra rb, _ => permt_decided hs rd ra rb
  | .sbox rd ra k, _ => sbox_decided s rd ra k
  | .subkeys ra, _ => subkeys_decided s ra
  | .worker ra t, _ => worker_decided s ra t
  | .rdkey rd r, _ => rdkey_decided hs rd r
  | .ffunc rd ra rb, _ => ffunc_decided s rd ra rb
  | .round rd ra rb, _ => round_decided s rd ra rb
  | .transform rd ra, _ => transform_decided hs rd ra

/-- A decided command ends with the code of its first cause (10_state.md R26). -/
theorem Decided.endsWith {i : Instr} {s : State} (h : Decided i s) :
    ∃ t, exec i s = .next t ∧ endsWith i s t.status.toNat := by
  obtain ⟨r, hr, hc⟩ := h
  rw [hr]
  cases hc with
  | argument ha => exact ⟨_, rfl, by simp [Claims.endsWith, ha, CmdFault.code]⟩
  | state ha hs => exact ⟨_, rfl, by simp [Claims.endsWith, ha, hs, CmdFault.code]⟩
  | outside ha hs ho => exact ⟨_, rfl, by simp [Claims.endsWith, ha, hs, ho, CmdFault.code]⟩
  | success ha hs ho u => exact ⟨_, rfl, by simp [Claims.endsWith, ha, hs, ho]⟩

/-! ## What a step does to the status registers -/

theorem readReg_le (s : State) (n : Word) : (s.readReg n).toNat ≤ (regImplemented n.toNat).toNat := by
  rw [State.readReg, BitVec.toNat_and]
  exact Nat.and_le_right

theorem code_eq_status {s : State} (h : s.status.toNat ≤ 4) : s.code = s.status.toNat :=
  Nat.mod_eq_of_lt (by omega)

theorem raise_status_toNat (s : State) (e : CmdFault) : (s.raise e).status.toNat = e.code := by cases e <;> rfl

theorem code_range (e : CmdFault) : 1 ≤ e.code ∧ e.code ≤ 4 := by cases e <;> decide

theorem raise_code (s : State) (e : CmdFault) : (s.raise e).code = e.code := by cases e <;> rfl

/-- A fault's bit of `ERRFLAGS` and no other (10_state.md R28). -/
theorem flag_getLsbD (e : CmdFault) (j : Nat) : e.flag.getLsbD j = decide (j = e.code - 1) := by
  have := code_range e
  rw [CmdFault.flag, BitVec.getLsbD_shiftLeft, BitVec.getLsbD_one]
  by_cases h : j = e.code - 1
  · simp [h]; omega
  · simp [h]; omega

theorem raise_errflags_getLsbD (s : State) (e : CmdFault) (j : Nat) :
    (s.raise e).errflags.getLsbD j = (s.errflags.getLsbD j || decide (j = e.code - 1)) := by
  rw [raise_errflags, BitVec.getLsbD_or, flag_getLsbD]

theorem committed_errflags {s u : State} {i : Instr} (h : Committed s i u) : u.errflags = s.errflags := by
  cases h <;> simp

/-- GETBIT alone commits to `RESULT` (10_state.md R27). -/
theorem committed_result {s u : State} {i : Instr} (h : Committed s i u) :
    u.result = s.result ∨ ∃ ra p, i = .getbit ra p := by
  cases h with
  | result ra p v => exact .inr ⟨ra, p, rfl⟩
  | buffer v hd hv => exact .inl rfl
  | subkeys ra key ks hb hk hlen h6 => exact .inl (by simp)
  | worker ra key ks t hb hk hlen h6 => exact .inl (by simp)

/-- Everything GETBIT can do: the bit in `RESULT`, or a fault (41_bitops.md R100). -/
theorem exec_getbit_cases {s t : State} {ra : BufIx} {p : Int} (h : exec (.getbit ra p) s = .next t) :
    (∃ b, s.buf ra = some b ∧ t = (s.setResult (bit b p.toNat)).setCode 0) ∨ ∃ e, t = s.raise e := by
  rw [exec, execGetbit] at h
  cases hb : s.buf ra with
  | none => rw [operand_none hb] at h; cases h; exact .inr ⟨_, rfl⟩
  | some b =>
    rw [operand_some hb, bind_ok, getBitF] at h
    split_ifs at h <;> cases h
    · exact .inr ⟨_, rfl⟩
    · exact .inl ⟨b, rfl, rfl⟩

/-- Everything a legal word is (30_encoding.md R75): an assigned opcode, zeros where no operand stands, and the command
of its operands. -/
theorem decode_eq_ok {cw : CW} {i : Instr} (h : decode cw = .ok i) :
    ∃ op, opOf (fieldsOf cw).opc = some op ∧ (fieldsOf cw).rsv = 0 ∧ (∀ n ∈ unusedFields op (fieldsOf cw), n = 0) ∧
      buildInstr op (fieldsOf cw) = some i := by
  unfold decode at h
  split at h
  · cases h
  next op hop =>
    split_ifs at h with hrsv hunused
    split at h
    · cases h
    next i' hi =>
      cases h
      exact ⟨op, hop, not_not.1 hrsv, by simpa using hunused, hi⟩

/-- The immediates that fields give are sign-extended 12-bit numbers (30_encoding.md R73). -/
theorem buildInstr_wellFormed {op : Op} {f : Fields} {i : Instr} (hf : f.inRange) (h : buildInstr op f = some i) :
    i.wellFormed = true := by
  obtain ⟨-, -, -, -, -, -, h1, h2, h3⟩ := hf
  have himm := And.intro (sext12_inRange f.i1 h1) (And.intro (sext12_inRange f.i2 h2) (sext12_inRange f.i3 h3))
  cases op
  case perm => obtain ⟨t, -, rfl⟩ := Option.map_eq_some_iff.1 h; rfl
  case sbox => obtain ⟨k, -, rfl⟩ := Option.map_eq_some_iff.1 h; rfl
  case worker => obtain ⟨t, -, rfl⟩ := Option.map_eq_some_iff.1 h; rfl
  all_goals
    cases h
    simp [Instr.wellFormed, Instr.immediates, himm]

theorem decode_wellFormed {cw : CW} {i : Instr} (h : decode cw = .ok i) : i.wellFormed = true := by
  obtain ⟨op, -, -, -, hi⟩ := decode_eq_ok h
  exact buildInstr_wellFormed (fieldsOf_inRange cw) hi

/-- A step that issues a word gives the reply and runs the issue. -/
theorem step_issue {s : State} {cw : CW} (h : s.upcoming = some (.issue cw)) :
    step s = issue cw (taken s .nothing) := step_interact h

theorem issue_ok {cw : CW} {i : Instr} (h : decode cw = .ok i) (s : State) : issue cw s = exec i s := by
  rw [issue, h]

theorem issue_error {cw : CW} {r : DecodeReject} (h : decode cw = .error r) (s : State) :
    issue cw s = .next (s.raise .illegalCommand) := by rw [issue, h]; rfl

/-- Everything an issued word can do: the results of its command committed, or a fault taken. -/
theorem issue_cases {cw : CW} {s t : State} (h : issue cw s = .next t) :
    (∃ i u, decode cw = .ok i ∧ Committed s i u ∧ t = u.setCode 0) ∨ ∃ e, t = s.raise e := by
  cases hd : decode cw with
  | error r => rw [issue_error hd] at h; cases h; exact .inr ⟨_, rfl⟩
  | ok i =>
    rw [issue_ok hd] at h
    rcases exec_cases h with ⟨u, hu, rfl⟩ | ⟨e, -, rfl⟩
    · exact .inl ⟨i, u, rfl, hu, rfl⟩
    · exact .inr ⟨e, rfl⟩

/-- An interaction that is no ISSUE and no RESET writes at most a buffer register and gives a reply
(60_exceptions.md R250). -/
theorem interact_frame {q : Interaction} (s : State) (hissue : ∀ cw, q ≠ .issue cw) (hreset : q ≠ .reset) :
    ∃ bufs replies, interact q s = .next { s with bufs := bufs, replies := replies } := by
  cases q with
  | issue cw => exact absurd rfl (hissue cw)
  | reset => exact absurd rfl hreset
  | writeBuf i v =>
    rw [interact, hostWriteBuf]
    split
    · split <;> exact ⟨_, _, rfl⟩
    · exact ⟨_, _, rfl⟩
  | clearBuf i => rw [interact, hostClearBuf]; split <;> exact ⟨_, _, rfl⟩
  | readBuf i => rw [interact, hostReadBuf]; split <;> exact ⟨_, _, rfl⟩
  | readReg n => exact ⟨_, _, rfl⟩

/-- Everything a step can do to the status registers: keep them, reset them, or issue a command word. -/
theorem step_cases {s t : State} (h : step s = .next t) :
    (∃ bufs port replies, t = { s with bufs := bufs, port := port, replies := replies }) ∨
    (s.upcoming = some .reset ∧ t = hostReset { s with port := none }) ∨
    ∃ cw, s.upcoming = some (.issue cw) ∧ issue cw (taken s .nothing) = .next t := by
  cases hq : s.upcoming with
  | none => rw [step_idle hq] at h; cases h; exact .inl ⟨_, _, _, rfl⟩
  | some q =>
    rw [step_interact hq] at h
    by_cases hreset : q = .reset
    · subst hreset; cases h; exact .inr (.inl ⟨rfl, rfl⟩)
    by_cases hissue : ∃ cw, q = .issue cw
    · obtain ⟨cw, rfl⟩ := hissue; exact .inr (.inr ⟨cw, rfl, h⟩)
    · obtain ⟨bufs, replies, e⟩ := interact_frame { s with port := none } (not_exists.1 hissue) hreset
      rw [e] at h; cases h; exact .inl ⟨_, _, _, rfl⟩

theorem taken_inv {s : State} (h : s.Inv) (r : Reply) : (taken s r).Inv :=
  ⟨h.bufs, h.status, h.result, h.errflags, h.ctx, h.schedule, h.noSchedule⟩

/-! ## The statements -/

/-- Settles O37: the first cause met decides the code (`decided`), and an issued word runs its command or is illegal. -/
theorem statusHoldsTheOutcome : Obligations.StatusHoldsTheOutcome := by
  unfold Obligations.StatusHoldsTheOutcome
  refine ⟨rfl, fun s => Nat.lt_succ_of_le (readReg_le s 0), fun i s hs hw => (decided hs i hw).endsWith,
    fun s t cw h hstep => ?_, fun s t q h hstep hissue hreset => ?_⟩
  · rw [step_issue h] at hstep
    have outcome : t.status.toNat ≤ 4 ∧ (t.errflags = s.errflags ∨ t.status.toNat ≠ 0) := by
      rcases issue_cases hstep with ⟨i, u, -, hu, rfl⟩ | ⟨e, rfl⟩
      · exact ⟨by simp, .inl (committed_errflags hu :)⟩
      · obtain ⟨h1, h4⟩ := code_range e
        rw [raise_status_toNat]
        exact ⟨h4, .inr (by omega)⟩
    obtain ⟨hle, herr⟩ := outcome
    refine ⟨hle, code_eq_status hle, by rwa [code_eq_status hle], fun i hd hs => ?_, fun e hd => ?_⟩
    · obtain ⟨t', ht', hends⟩ := (decided (taken_inv hs .nothing) i (decode_wellFormed hd)).endsWith
      rw [issue_ok hd, ht'] at hstep
      cases hstep
      exact hends
    · rw [issue_error hd] at hstep
      cases hstep
      rfl
  · rcases step_cases hstep with ⟨bufs, port, replies, rfl⟩ | ⟨hq, -⟩ | ⟨cw, hq, -⟩
    · rfl
    · exact absurd (Option.some.inj (h.symm.trans hq)) hreset
    · exact absurd (Option.some.inj (h.symm.trans hq)) (hissue cw)

/-- Settles O38: of everything a step can do only the commit of a GETBIT, and reset, reach `RESULT`. -/
theorem resultIsWrittenOnlyByGetbit : Obligations.ResultIsWrittenOnlyByGetbit := by
  unfold Obligations.ResultIsWrittenOnlyByGetbit
  refine ⟨rfl, fun s => Nat.lt_succ_of_le (readReg_le s 1), fun s t q h hstep hne => ?_⟩
  rcases step_cases hstep with ⟨bufs, port, replies, rfl⟩ | ⟨hq, -⟩ | ⟨cw, hq, hissue⟩
  · exact absurd rfl hne
  · exact .inl (Option.some.inj (h.symm.trans hq))
  refine .inr ?_
  rcases issue_cases hissue with ⟨i, u, hd, hu, rfl⟩ | ⟨e, rfl⟩
  · rcases committed_result hu with hr | ⟨ra, p, rfl⟩
    · exact absurd hr hne
    · rw [issue_ok hd] at hissue
      rcases exec_getbit_cases hissue with ⟨b, hb, ht⟩ | ⟨e, ht⟩
      · exact ⟨cw, ra, p, b, Option.some.inj (h.symm.trans hq), hd, rfl, hb, by rw [ht]; cases bit b p.toNat <;> rfl⟩
      · exact absurd (congrArg State.result ht) hne
  · exact absurd rfl hne

/-- Settles O39: a fault adds its own bit, every other step but reset keeps the bits. -/
theorem errflagsAreSticky : Obligations.ErrflagsAreSticky := by
  unfold Obligations.ErrflagsAreSticky
  refine ⟨rfl, fun s => Nat.lt_succ_of_le (readReg_le s 2), fun s t cw h hstep hcode => ?_,
    fun s t hstep hreset j hj => ?_⟩
  · rw [step_issue h] at hstep
    rcases issue_cases hstep with ⟨i, u, -, -, rfl⟩ | ⟨e, rfl⟩
    · exact absurd rfl hcode
    · rw [raise_code]
      refine ⟨?_, fun j hj => ?_⟩ <;> rw [raise_errflags_getLsbD]
      · rw [decide_eq_true rfl, Bool.or_true]
      · rw [decide_eq_false hj, Bool.or_false]; rfl
  · rcases step_cases hstep with ⟨bufs, port, replies, rfl⟩ | ⟨hq, -⟩ | ⟨cw, -, hissue⟩
    · exact hj
    · exact absurd hq hreset
    · rcases issue_cases hissue with ⟨i, u, -, hu, rfl⟩ | ⟨e, rfl⟩
      · rw [setCode_errflags, committed_errflags hu]; exact hj
      · rw [raise_errflags_getLsbD, Bool.or_eq_true]; exact .inl hj

/-- Settles O46: the reset values of 10_state.md R34. -/
theorem resetValues : Obligations.ResetValues :=
  ⟨reset_buf, rfl, rfl, rfl, rfl, reset_roundKey⟩

end Sys2Proof.Proofs

/-! PROOFS of the statement of 20_memory.md (O4), and the lemmas it needs: a well-formed command's word decodes to the
command, and a word's eight bytes are its number written big-endian. -/

namespace Sys2Proof.Proofs

open Sys2Proof Sys2Proof.Machine Sys2Proof.Claims

/-! ## The fields of a command's word -/

/-- A legal word decodes: the converse of `decode_eq_ok` (30_encoding.md R75). -/
theorem decode_of_fields {cw : CW} {op : Op} {i : Instr} (hop : opOf (fieldsOf cw).opc = some op)
    (hrsv : (fieldsOf cw).rsv = 0) (hunused : ∀ n ∈ unusedFields op (fieldsOf cw), n = 0)
    (hbuild : buildInstr op (fieldsOf cw) = some i) : decode cw = .ok i := by
  have hany : ¬ (unusedFields op (fieldsOf cw)).any (· ≠ 0) = true := by simpa using hunused
  rw [decode, hop]
  simp only [hbuild, if_neg (not_not.2 hrsv), if_neg hany]

theorem fieldsOf_encode (i : Instr) : fieldsOf (encode i) = instrFields i := Laws.WordFields.all i

theorem instrFields_opc (i : Instr) : (instrFields i).opc = opcodeOf i.op := by cases i <;> rfl

theorem instrFields_rsv (i : Instr) : (instrFields i).rsv = 0 := by cases i <;> rfl

/-- No operand stands in a field the command's row leaves unused (30_encoding.md R72). -/
theorem instrFields_unused (i : Instr) : ∀ n ∈ unusedFields i.op (instrFields i), n = 0 := by
  cases i <;> simp [Instr.op, instrFields, unusedFields]

/-- The operands come back from their fields: registers and selectors whole, immediates in range by their sign
(30_encoding.md R73, R79). -/
theorem buildInstr_instrFields {i : Instr} (h : i.wellFormed = true) : buildInstr i.op (instrFields i) = some i := by
  have himm : ∀ v ∈ i.immediates, sext12 (imm12 v) = v := fun v hv => sext12_imm12 v (List.all_eq_true.1 h v hv)
  cases i
  case getbit | setbit | extend | getbits | setbits | rotl | separate | concat | rdkey =>
    simpa [Instr.op, instrFields, buildInstr, Instr.immediates] using himm
  all_goals simp [Instr.op, instrFields, buildInstr]

/-- Decoding the word of a well-formed command gives the command back. -/
theorem decode_encode {i : Instr} (h : i.wellFormed = true) : decode (encode i) = .ok i := by
  apply decode_of_fields (op := i.op) <;> rw [fieldsOf_encode]
  · rw [instrFields_opc, opOf_opcodeOf]
  · exact instrFields_rsv i
  · exact instrFields_unused i
  · exact buildInstr_instrFields h

/-! ## The bytes of a word -/

theorem wordBytes_length (cw : CW) : (wordBytes cw).length = 8 := rfl

/-- Byte `k` is `CW[63-8k:56-8k]` (20_memory.md R52). -/
theorem wordBytes_getD_toNat (cw : CW) {k : Nat} (hk : k < 8) :
    ((wordBytes cw).getD k 0).toNat = cw.toNat / 2 ^ (56 - 8 * k) % 256 := by
  interval_cases k <;> simp [wordBytes, cwField]

/-- Shifting the next byte of a word in from the right: the one step of reading its bytes big-endian. -/
theorem shift_in_byte (cw : CW) (lo : Nat) :
    256 * (cw.toNat / 2 ^ (lo + 8)) + (BitVec.ofNat 8 (cwField cw lo 8)).toNat = cw.toNat / 2 ^ lo := by
  rw [BitVec.toNat_ofNat, cwField, Nat.mod_mod, pow_add, ← Nat.div_div_eq_div_mul]
  exact Nat.div_add_mod (cw.toNat / 2 ^ lo) 256

/-- The eight bytes of a word, read big-endian, are the word. -/
theorem bigEndian_wordBytes (cw : CW) : bigEndian (wordBytes cw) = cw.toNat := by
  have htop : 256 * 0 + (BitVec.ofNat 8 (cwField cw 56 8)).toNat = cw.toNat / 2 ^ 56 := by
    rw [← shift_in_byte cw 56, Nat.div_eq_of_lt cw.isLt]
  simp only [bigEndian, wordBytes, List.map_cons, List.map_nil, List.foldl_cons, List.foldl_nil]
  rw [htop, shift_in_byte cw 48, shift_in_byte cw 40, shift_in_byte cw 32, shift_in_byte cw 24, shift_in_byte cw 16,
    shift_in_byte cw 8, shift_in_byte cw 0, pow_zero, Nat.div_one]

/-- The byte decoder reads the first eight bytes as a word and leaves the rest (20_memory.md R52). -/
theorem decodeBytes_wordBytes_append {cw : CW} {i : Instr} (h : decode cw = .ok i) (rest : Bytes) :
    decodeBytes (wordBytes cw ++ rest) = .ok (i, rest) := by
  have hlong : ¬ (wordBytes cw ++ rest).length < 8 := by
    rw [List.length_append, wordBytes_length]; omega
  rw [decodeBytes, if_neg hlong, List.take_left' (wordBytes_length cw), List.drop_left' (wordBytes_length cw),
    bigEndian_wordBytes, BitVec.ofNat_toNat, BitVec.setWidth_eq, h]

/-- Settles O4: the laws of a word's bytes, at the word of a command, which decodes to the command. -/
theorem commandBytesAreBigEndian : Obligations.CommandBytesAreBigEndian := by
  unfold Obligations.CommandBytesAreBigEndian
  exact fun i rest h => ⟨decodeBytes_wordBytes_append (decode_encode h) rest, wordBytes_length _,
    fun k hk => wordBytes_getD_toNat _ hk⟩

end Sys2Proof.Proofs

/-! PROOFS of the statements of 41_bitops.md (O8 to O16), and the lemmas they need: a command's word as the number of
R71, how a command ends that reads its sources, applies a rule and commits its value, and the value of each rule. -/

namespace Sys2Proof.Proofs

open Sys2Proof Sys2Proof.Machine Sys2Proof.Claims

/-! ## The word of a command -/

theorem instrFields_inRange (i : Instr) : (instrFields i).inRange := fieldsOf_encode i ▸ fieldsOf_inRange (encode i)

theorem imm12_cast (v : Int) : (imm12 v : Int) = v % 4096 := Int.toNat_of_nonneg (Int.emod_nonneg v (by decide))

/-- The immediate fields hold the immediates in their order, 0 where the command has none (30_encoding.md R72, R73). -/
theorem instrFields_immediates (i : Instr) :
    ((instrFields i).i1 : Int) = i.immediates.getD 0 0 % 4096 ∧
    ((instrFields i).i2 : Int) = i.immediates.getD 1 0 % 4096 ∧
    ((instrFields i).i3 : Int) = i.immediates.getD 2 0 % 4096 := by
  cases i <;> simp [instrFields, Instr.immediates, imm12_cast]

/-- A command's word as the number of 30_encoding.md R71. For a given command the fields on the right are its operands
by computation. -/
theorem wordOf_eq_cwOf (i : Instr) :
    wordOf i = cwOf (opcodeOf i.op) (instrFields i).rd (instrFields i).ra (instrFields i).rb (instrFields i).sel
      (i.immediates.getD 0 0) (i.immediates.getD 1 0) (i.immediates.getD 2 0) := by
  have hrange := instrFields_inRange i
  have hrsv := instrFields_rsv i
  obtain ⟨h1, h2, h3⟩ := instrFields_immediates i
  rw [wordOf, cwOf, encode, ← instrFields_opc, ← h1, ← h2, ← h3]
  generalize instrFields i = f at hrange hrsv
  simp only [Fields.inRange] at hrange
  rw [Fields.word, BitVec.toNat_ofNat]
  omega

/-! ## How a command ends -/

section Ends

variable {α : Type} {s : State} {ra rb rd : BufIx}

theorem finish_fault (s : State) (e : CmdFault) : finish s (.error e) = .next (faulted s e.code) := by cases e <;> rfl

theorem finish_source_absent {f : Bytes → Except CmdFault State} (h : s.buf ra = none) :
    finish s (operand s ra >>= f) = .next (faulted s 1) := by
  rw [operand_none h]; exact finish_fault s _

theorem finish_source_present {f : Bytes → Except CmdFault State} {b : Bytes} (h : s.buf ra = some b) :
    finish s (operand s ra >>= f) = finish s (f b) := by
  rw [operand_some h, bind_ok]

/-- Of two sources, in whichever order they are read, an absent one ends the command. -/
theorem finish_sources_absent {f : Bytes → Bytes → Except CmdFault State} (h : s.buf ra = none ∨ s.buf rb = none) :
    finish s (operand s ra >>= fun a => operand s rb >>= f a) = .next (faulted s 1) := by
  cases ha : s.buf ra with
  | none => exact finish_source_absent ha
  | some a =>
    rw [finish_source_present ha]
    exact finish_source_absent (h.resolve_left (by simp [ha]))

theorem finish_sources_present {f : Bytes → Bytes → Except CmdFault State} {a c : Bytes} (ha : s.buf ra = some a)
    (hc : s.buf rb = some c) : finish s (operand s ra >>= fun a => operand s rb >>= f a) = finish s (f a c) := by
  rw [finish_source_present ha, finish_source_present hc]

theorem FirstCause.finish_argument {arg st out : Prop} {x : Except CmdFault α} {f : α → Except CmdFault State}
    (h : FirstCause arg st out x) (ha : arg) : finish s (x >>= f) = .next (faulted s 1) := by
  cases h with
  | argument => exact finish_fault s _
  | state hna | outside hna | success hna => exact absurd ha hna

theorem FirstCause.finish_outside {arg st out : Prop} {x : Except CmdFault α} {f : α → Except CmdFault State}
    (h : FirstCause arg st out x) (ha : ¬ arg) (hs : ¬ st) (ho : out) :
    finish s (x >>= f) = .next (faulted s 2) := by
  cases h with
  | argument ha' => exact absurd ha' ha
  | state _ hs' => exact absurd hs' hs
  | outside => exact finish_fault s _
  | success _ _ hno => exact absurd ho hno

/-- A result that fits is written (30_encoding.md R76 step 5). -/
theorem finish_commit {x : Except CmdFault Bytes} {v : Bytes} (hx : x = .ok v) (hv : fits v.length) :
    finish s (x >>= commitBuf s rd) = .next (wrote s rd v) := by
  rw [hx, bind_ok, commitBuf_ok s rd v hv]; rfl

/-- A result longer than `BUF_CAP` is not (30_encoding.md R76 step 4). -/
theorem finish_commit_long {x : Except CmdFault Bytes} {v : Bytes} (hx : x = .ok v) (hv : Config.bufCap < v.length) :
    finish s (x >>= commitBuf s rd) = .next (faulted s 2) := by
  rw [hx, bind_ok, commitBuf_error s rd v hv]; rfl

end Ends

/-! ## The values of the rules

Each rule's value where its checks pass, in the terms of the statements: integer operands, the length and every bit. -/

theorem setBitF_value {b : Bytes} {p v : Int} (hv : v = 0 ∨ v = 1) (h0 : 0 ≤ p) (h : p < 8 * (b.length : Int)) :
    ∃ c, setBitF b p v = .ok c ∧ ∀ q : Nat, bit c q = if (q : Int) = p then decide (v = 1) else bit b q := by
  lift p to Nat using h0
  refine ⟨_, setBitF_ok hv (by omega) h, fun q => ?_⟩
  rw [Int.toNat_natCast]
  split_ifs with hq
  · obtain rfl : q = p := by omega
    exact memWrite_bit_same b q _ (by omega)
  · exact memWrite_bit_other b _ (by omega)

theorem xorF_getD (a c : Bytes) (i : Nat) : (xorF a c).getD i 0 = a.getD i 0 ^^^ c.getD i 0 := by
  refine BitVec.eq_of_getLsbD_eq fun k hk => ?_
  have hbit := xorF_bit a c (8 * i + (7 - k))
  have hdiv : (8 * i + (7 - k)) / 8 = i := by omega
  have hmod : 7 - (8 * i + (7 - k)) % 8 = k := by omega
  rw [BitVec.getLsbD_xor]
  simpa only [bit, hdiv, hmod] using hbit

theorem getBitsF_value {b : Bytes} {st n : Int} (hn : 0 < n) (h0 : 0 ≤ st) (h : st + n ≤ 8 * (b.length : Int)) :
    ∃ v, getBitsF b st n = .ok v ∧ (v.length : Int) = (n + 7) / 8 ∧
      ∀ i : Nat, bit v i = if (i : Int) < n then bit b (st.toNat + i) else false := by
  lift n to Nat using hn.le
  refine ⟨_, getBitsF_ok hn h0 h, ?_, fun i => ?_⟩
  · rw [pack_length, memRead_length, ceil8]; omega
  · rw [pack_memRead_bit]; simp

theorem setBitsF_ok {same : Bool} {d b : Bytes} {ds ss n : Int} (hn : 0 < n)
    (hsame : ¬(same = true ∧ ds < ss + n ∧ ss < ds + n)) (hss : 0 ≤ ss) (hb : ss + n ≤ 8 * (b.length : Int))
    (hds : 0 ≤ ds) (hd : ds + n ≤ 8 * (d.length : Int)) :
    setBitsF same d b ds ss n = .ok (memWriteRange d ds.toNat (memRead b ss.toNat n.toNat)) := by
  have hover : (same && rangesOverlap ds ss n) = false := by simpa [rangesOverlap] using hsame
  simp [setBitsF, hover, show ¬ n ≤ 0 by omega, rangeOutside_false hss hb, rangeOutside_false hds hd]

theorem setBitsF_value {same : Bool} {d b : Bytes} {ds ss n : Int} (hn : 0 < n)
    (hsame : ¬(same = true ∧ ds < ss + n ∧ ss < ds + n)) (hss : 0 ≤ ss) (hb : ss + n ≤ 8 * (b.length : Int))
    (hds : 0 ≤ ds) (hd : ds + n ≤ 8 * (d.length : Int)) :
    ∃ v, setBitsF same d b ds ss n = .ok v ∧ ∀ q : Nat, bit v q =
      if ds ≤ (q : Int) ∧ (q : Int) < ds + n then bit b (ss + (q - ds)).toNat else bit d q := by
  refine ⟨_, setBitsF_ok hn hsame hss hb hds hd, fun q => ?_⟩
  rw [memWriteRange_bit _ _ _ _ (by rw [memRead_length]; omega), memRead_length]
  refine if_ctx_congr (by omega) (fun hq => ?_) fun _ => rfl
  rw [memRead_getD, decide_eq_true (by omega), Bool.true_and]
  congr 1
  omega

theorem rotlF_value {b : Bytes} {len sh : Int} (hl : 0 < len) (hs : 0 ≤ sh) (h : len ≤ 8 * (b.length : Int)) :
    ∃ v, rotlF b len sh = .ok v ∧ (v.length : Int) = (len + 7) / 8 ∧
      ∀ i : Nat, bit v i = if (i : Int) < len then bit b ((i + sh) % len).toNat else false := by
  lift len to Nat using hl.le
  lift sh to Nat using hs
  refine ⟨_, rotlF_ok hl (by omega) h, ?_, fun i => ?_⟩
  · rw [pack_length, rotateBits_length, memRead_length, ceil8]; omega
  · rw [rotl_bit]
    norm_cast
    simp

theorem separateF_value {b : Bytes} {g : Int} (h0 : 0 < g) (h8 : g ≤ 8) (h : 8 * (b.length : Int) % g = 0) :
    ∃ v, separateF b g = .ok v ∧ ∀ k < v.length, ∀ j < 8,
      bit v (8 * k + j) = if (j : Int) < g then bit b (k * g.toNat + j) else false := by
  lift g to Nat using h0.le
  refine ⟨_, separateF_ok h0 h8 (mod_cast h), fun k hk j hj => ?_⟩
  rw [List.length_map, List.length_range] at hk
  rw [separate_bit b _ _ k j hk hj]
  simp

theorem concatF_value {a c : Bytes} {na nc : Int} (ha : 0 < na) (hc : 0 < nc) (la : na ≤ 8 * (a.length : Int))
    (lc : nc ≤ 8 * (c.length : Int)) :
    ∃ v, concatF a na c nc = .ok v ∧ (v.length : Int) = (na + nc + 7) / 8 ∧ ∀ i : Nat, bit v i =
      if (i : Int) < na then bit a i else if (i : Int) < na + nc then bit c (i - na.toNat) else false := by
  lift na to Nat using ha.le
  lift nc to Nat using hc.le
  refine ⟨_, concatF_ok ha hc la lc, ?_, fun i => ?_⟩
  · rw [pack_length, List.length_append, memRead_length, memRead_length, ceil8]; omega
  · rw [concat_bit]
    norm_cast
    simp

/-! ## The statements -/

/-- Settles O8: the position decides between the fault and the bit. -/
theorem getbitReadsOneBitIntoResult : Obligations.GetbitReadsOneBitIntoResult := by
  unfold Obligations.GetbitReadsOneBitIntoResult
  refine fun s ra p => ⟨wordOf_eq_cwOf _, finish_source_absent, fun b hb => ?_⟩
  rw [show exec (.getbit ra p) s = finish s (getBitF b p >>= fun v => .ok (s.setResult v)) from
    finish_source_present hb]
  refine ⟨(getBitF_firstCause b p).finish_outside id id, fun h0 h => ?_⟩
  rw [getBitF_ok h0 h]
  cases bit b p.toNat <;> rfl

/-- Settles O9: one written bit, all others as before. -/
theorem setbitWritesOneBitInPlace : Obligations.SetbitWritesOneBitInPlace := by
  unfold Obligations.SetbitWritesOneBitInPlace
  refine fun s rd p v => ⟨wordOf_eq_cwOf _, finish_source_absent, fun b hb => ?_⟩
  rw [show exec (.setbit rd p v) s = finish s (setBitF b p v >>= commitBuf s rd) from finish_source_present hb]
  have hcause := setBitF_firstCause b p v
  refine ⟨fun hv0 hv1 => hcause.finish_argument ⟨hv0, hv1⟩, fun hv =>
    ⟨hcause.finish_outside (by omega) id, fun h0 h hfit => ?_⟩⟩
  obtain ⟨c, hc, hbits⟩ := setBitF_value hv h0 h
  have hlen := setBitF_length hc
  exact ⟨c, finish_commit hc (hlen ▸ hfit), hlen, fun q _ => hbits q⟩

/-- Settles O10: the new length is too short for the buffer, too long for `BUF_CAP`, or filled with zeros. -/
theorem extendAppendsZeroBytes : Obligations.ExtendAppendsZeroBytes := by
  unfold Obligations.ExtendAppendsZeroBytes
  refine fun s rd ra n => ⟨wordOf_eq_cwOf _, finish_source_absent, fun b hb => ?_⟩
  rw [show exec (.extend rd ra n) s = finish s (extendF b n >>= commitBuf s rd) from finish_source_present hb]
  have hcause := extendF_firstCause b n
  refine ⟨hcause.finish_argument, fun h0 hout => ?_, fun h0 hle hcap => ?_⟩
  · by_cases hlt : n < (b.length : Int)
    · exact hcause.finish_outside (by omega) id hlt
    · have hx := extendF_ok h0 (not_lt.1 hlt)
      have hlen := extendF_length hx
      exact finish_commit_long hx (by omega)
  · have hx := extendF_ok h0 hle
    exact finish_commit hx (Int.ofNat_le.1 ((extendF_length hx).trans_le hcap))

/-- Settles O11: byte by byte; the rule has no fault of its own. -/
theorem xorIsBytewiseWithZeroExtension : Obligations.XorIsBytewiseWithZeroExtension := by
  unfold Obligations.XorIsBytewiseWithZeroExtension
  refine fun s rd ra rb => ⟨wordOf_eq_cwOf _, finish_sources_absent, fun a c ha hc hfa hfc => ?_⟩
  have hlen := xorF_length a c
  refine ⟨xorF a c, ?_, hlen, fun i _ => xorF_getD a c i⟩
  rw [show exec (.xor rd ra rb) s = finish s (commitBuf s rd (xorF a c)) from finish_sources_present ha hc]
  exact finish_commit (x := .ok (xorF a c)) rfl (hlen ▸ max_le hfa hfc)

/-- Settles O12: the value is the packed range (`getBitsF_value`), never longer than its source. -/
theorem getbitsLeftPacksTheRange : Obligations.GetbitsLeftPacksTheRange := by
  unfold Obligations.GetbitsLeftPacksTheRange
  refine fun s rd ra st n => ⟨wordOf_eq_cwOf _, finish_source_absent, fun b hb => ?_⟩
  rw [show exec (.getbits rd ra st n) s = finish s (getBitsF b st n >>= commitBuf s rd) from finish_source_present hb]
  have hcause := getBitsF_firstCause b st n
  refine ⟨hcause.finish_argument, fun hn => hcause.finish_outside (by omega) id, fun hn h0 h hfit => ?_⟩
  obtain ⟨v, hv, hlen, hbits⟩ := getBitsF_value hn h0 h
  exact ⟨v, finish_commit hv ((getBitsF_length hv).trans hfit), hlen, fun i _ => hbits i⟩

/-- Settles O13: the source's bits are read before the first is written, so they are the old ones also within one
register. -/
theorem setbitsCopiesTheRangeInPlace : Obligations.SetbitsCopiesTheRangeInPlace := by
  unfold Obligations.SetbitsCopiesTheRangeInPlace
  refine fun s rd ra ds ss n => ⟨wordOf_eq_cwOf _, finish_sources_absent, fun d b hd hb => ?_⟩
  rw [show exec (.setbits rd ra ds ss n) s = finish s (setBitsF (decide (rd = ra)) d b ds ss n >>= commitBuf s rd) from
    finish_sources_present hd hb]
  have hcause := setBitsF_firstCause (decide (rd = ra)) d b ds ss n
  simp only [decide_eq_true_eq, or_assoc] at hcause
  refine ⟨hcause.finish_argument, fun hn hsame =>
    ⟨hcause.finish_outside (not_or.2 ⟨not_le.2 hn, hsame⟩) id, fun hss hsb hds hdd hfit => ?_⟩⟩
  obtain ⟨v, hv, hbits⟩ := setBitsF_value (same := decide (rd = ra)) hn (by rwa [decide_eq_true_eq]) hss hsb hds hdd
  have hlen := setBitsF_length hv
  exact ⟨v, finish_commit hv (hlen ▸ hfit), hlen, fun q _ => hbits q⟩

/-- Settles O14: the value is the packed ring (`rotlF_value`), never longer than its source. -/
theorem rotlRotatesTheRing : Obligations.RotlRotatesTheRing := by
  unfold Obligations.RotlRotatesTheRing
  refine fun s rd ra len sh => ⟨wordOf_eq_cwOf _, finish_source_absent, fun b hb => ?_⟩
  rw [show exec (.rotl rd ra len sh) s = finish s (rotlF b len sh >>= commitBuf s rd) from finish_source_present hb]
  have hcause := rotlF_firstCause b len sh
  refine ⟨hcause.finish_argument, fun hl hs => hcause.finish_outside (by omega) id, fun hl hs h hfit => ?_⟩
  obtain ⟨v, hv, hlen, hbits⟩ := rotlF_value hl hs h
  exact ⟨v, finish_commit hv ((rotlF_length hv).trans hfit), hlen, fun i _ => hbits i⟩

/-- Settles O15: the groups do not come out even, are too many for `BUF_CAP`, or get a byte each. -/
theorem separateGivesOneByteAGroup : Obligations.SeparateGivesOneByteAGroup := by
  unfold Obligations.SeparateGivesOneByteAGroup
  refine fun s rd ra g => ⟨wordOf_eq_cwOf _, finish_source_absent, fun b hb => ?_⟩
  rw [show exec (.separate rd ra g) s = finish s (separateF b g >>= commitBuf s rd) from finish_source_present hb]
  have hcause := separateF_firstCause b g
  refine ⟨fun hg => hcause.finish_argument (by omega), fun h0 h8 hout => ?_, fun h0 h8 heven hcap => ?_⟩
  · by_cases heven : 8 * (b.length : Int) % g = 0
    · obtain ⟨v, hv, -⟩ := separateF_value h0 h8 heven
      have hlen := separateF_length hv
      exact finish_commit_long hv (by omega)
    · exact hcause.finish_outside (by omega) id heven
  · obtain ⟨v, hv, hbits⟩ := separateF_value h0 h8 heven
    have hlen := separateF_length hv
    exact ⟨v, finish_commit hv (Int.ofNat_le.1 (hlen.trans_le hcap)), hlen, hbits⟩

/-- Settles O16: the two series, packed; encodable counts keep them within the least `BUF_CAP`. -/
theorem concatJoinsTwoSeries : Obligations.ConcatJoinsTwoSeries := by
  unfold Obligations.ConcatJoinsTwoSeries
  refine fun s rd ra rb na nc => ⟨wordOf_eq_cwOf _, finish_sources_absent, fun a c ha hc => ?_⟩
  rw [show exec (.concat rd ra rb na nc) s = finish s (concatF a na c nc >>= commitBuf s rd) from
    finish_sources_present ha hc]
  have hcause := concatF_firstCause a na c nc
  refine ⟨hcause.finish_argument, fun h1 h2 => hcause.finish_outside (by omega) id,
    fun h1 h2 la lc hna hnc => ?_⟩
  obtain ⟨v, hv, hlen, hbits⟩ := concatF_value h1 h2 la lc
  exact ⟨v, finish_commit hv ((concatF_length hna hnc hv).trans bufCap_ge), hlen, fun i _ => hbits i⟩

end Sys2Proof.Proofs

/-! PROOFS of the statements of 42_permutation.md (O18 to O20), and the lemmas they need: a selector no command has, the
bits of a permuted buffer, and the row and column of an S-box as bits. -/

namespace Sys2Proof.Proofs

open Sys2Proof Sys2Proof.Machine Sys2Proof.Claims

/-! ## Illegal selectors -/

theorem fieldsOf_opc_eq (cw : CW) : (fieldsOf cw).opc = cw.toNat / 2 ^ 56 :=
  Nat.mod_eq_of_lt (Nat.div_lt_of_lt_mul cw.isLt)

/-- A word of an assigned opcode is illegal where its fields give no command (30_encoding.md R75 case 4). -/
theorem decode_error_of_buildInstr {cw : CW} {op : Op} (hopc : cw.toNat / 2 ^ 56 = opcodeOf op)
    (hbuild : buildInstr op (fieldsOf cw) = none) : ∃ e, decode cw = .error e := by
  cases hd : decode cw with
  | error e => exact ⟨e, rfl⟩
  | ok i =>
    obtain ⟨op', hop, -, -, hi⟩ := decode_eq_ok hd
    rw [fieldsOf_opc_eq, hopc, opOf_opcodeOf] at hop
    cases hop
    exact absurd (hi.symm.trans hbuild) (Option.some_ne_none i)

theorem permTableOf_eq_none {n : Nat} (h : 6 ≤ n) : permTableOf n = none := by
  obtain ⟨m, rfl⟩ := Nat.exists_eq_add_of_le' h
  rfl

theorem boxOf_eq_none {n : Nat} (h : 8 ≤ n) : boxOf n = none := by
  obtain ⟨m, rfl⟩ := Nat.exists_eq_add_of_le' h
  rfl

theorem permTableSel_eq_permSel (t : PermTable) : permTableSel t = permSel t := by cases t <;> rfl

theorem boxSel_eq_idxOf (k : Box) : boxSel k = allBoxes.idxOf k := by cases k <;> rfl

/-! ## The bits of a permuted buffer -/

/-- Output bit `i` is the input bit entry `i` names, 0 after the last entry (42_permutation.md R150). -/
theorem pack_map_bit (b : Bytes) (t : List Nat) (i : Nat) :
    bit (pack (t.map (bit b))) i = if i < t.length then bit b (t.getD i 0) else false := by
  split_ifs with h
  · rw [permute_bit b t i h, List.getD_eq_getElem t 0 h]
  · rw [pack_bit, List.getD_eq_default _ _ (by rw [List.length_map]; omega)]

theorem table0_getD (t : PermTable) (i : Nat) : (table0 t).getD i 0 = source t i := List.getD_map (table1 t) 0 _

theorem table0_entries (t : PermTable) : (table0 t).length = (tableShape t).1 := by cases t <;> rfl

theorem ceil8_tableShape (t : PermTable) : ceil8 (tableShape t).1 = (tableShape t).2.1 := by cases t <;> rfl

/-- A fixed table's value on an input from its smallest on. -/
theorem permuteTable_value {b : Bytes} {t : PermTable} (h : (tableShape t).2.2 ≤ b.length) :
    ∃ v, permuteF b (table0 t) = .ok v ∧ v.length = (tableShape t).2.1 ∧
      ∀ i < (tableShape t).1, bit v i = bit b (source t i) := by
  have inside : ∀ e ∈ table0 t, e < 8 * b.length := fun e he =>
    not_le.1 fun hle => not_lt.2 h ((table0_outside_iff t b.length).1 ⟨e, he, hle⟩)
  refine ⟨_, permuteF_ok inside, ?_, fun i hi => ?_⟩
  · rw [pack_length, List.length_map, table0_entries, ceil8_tableShape]
  · rw [pack_map_bit, table0_entries, if_pos hi, table0_getD]

/-- A table buffer's value: its bytes are the entries (42_permutation.md R153). -/
theorem permuteBytes_value {b t : Bytes} (h : ∀ e ∈ t, e.toNat < 8 * b.length) :
    ∃ v, permuteF b (t.map BitVec.toNat) = .ok v ∧ v.length = (t.length + 7) / 8 ∧
      ∀ i, bit v i = if i < t.length then bit b (t.getD i 0).toNat else false := by
  refine ⟨_, permuteF_ok (List.forall_mem_map.2 h), ?_, fun i => ?_⟩
  · rw [pack_length, List.length_map, List.length_map, ceil8]
  · have entry : (t.map BitVec.toNat).getD i 0 = (t.getD i 0).toNat := List.getD_map t 0 _
    rw [pack_map_bit, List.length_map, entry]

/-! ## The S-boxes -/

theorem bit_cons_toNat (x : Byte) (rest : Bytes) {j : Nat} (hj : j < 8) :
    (bit (x :: rest) j).toNat = x.toNat / 2 ^ (7 - j) % 2 := by
  rw [bit, Nat.div_eq_of_lt hj, Nat.mod_eq_of_lt hj]
  exact Nat.toNat_testBit x.toNat (7 - j)

/-- The group is the first six bits, its row the outer two and its column the inner four (42_permutation.md R155). -/
theorem sboxF_groupOf (k : Box) (x : Byte) (rest : Bytes) :
    sboxF k (groupOf x) = boxOut k (bit (x :: rest)) := by
  have row : 2 * ((groupOf x >>> 5) % 2) + groupOf x % 2
      = 2 * (bit (x :: rest) 0).toNat + (bit (x :: rest) 5).toNat := by
    simp (disch := decide) only [groupOf, Nat.shiftRight_eq_div_pow, bit_cons_toNat]
    omega
  have column : (groupOf x >>> 1) % 16 = 8 * (bit (x :: rest) 1).toNat + 4 * (bit (x :: rest) 2).toNat
      + 2 * (bit (x :: rest) 3).toNat + (bit (x :: rest) 4).toNat := by
    simp (disch := decide) only [groupOf, Nat.shiftRight_eq_div_pow, bit_cons_toNat]
    omega
  rw [sboxF, row, column]
  rfl

theorem sboxByte_cons (k : Box) (x : Byte) (rest : Bytes) :
    sboxByte k (x :: rest) = .ok [BitVec.ofNat 8 (16 * boxOut k (bit (x :: rest)))] := by
  rw [sboxByte, sboxF_groupOf k x rest, Nat.shiftLeft_eq, Nat.mul_comm]

/-! ## The statements -/

/-- Settles O18: an input holds every entry of the table or is shorter than the smallest (`table0_outside_iff`). -/
theorem permAppliesTheFixedTable : Obligations.PermAppliesTheFixedTable := by
  unfold Obligations.PermAppliesTheFixedTable
  refine ⟨fun cw hopc hsel => decode_error_of_buildInstr (op := .perm) hopc (Option.map_eq_none_iff.2
    (permTableOf_eq_none hsel)), fun s rd ra t => ⟨?_, finish_source_absent, fun b hb => ?_⟩⟩
  · rw [← permTableSel_eq_permSel]; exact wordOf_eq_cwOf _
  rw [show exec (.perm rd ra t) s = finish s (permuteF b (table0 t) >>= commitBuf s rd) from finish_source_present hb]
  refine ⟨fun hshort => (permuteF_firstCause b (table0 t)).finish_outside id id ((table0_outside_iff t _).2 hshort),
    fun hlong => ?_⟩
  obtain ⟨v, hv, hlen, hbits⟩ := permuteTable_value hlong
  exact ⟨v, finish_commit hv ((permuteF_length hv).trans_le ((table0_length_le t).trans bufCap_ge)), hlen, hbits⟩

/-- Settles O19: the same rule with the bytes of a buffer as entries; the result is no longer than the table. -/
theorem permtAppliesTheTableBuffer : Obligations.PermtAppliesTheTableBuffer := by
  unfold Obligations.PermtAppliesTheTableBuffer
  refine fun s rd ra rb => ⟨wordOf_eq_cwOf _, finish_sources_absent, fun b t hb ht => ?_⟩
  rw [show exec (.permt rd ra rb) s = finish s (permuteF b (t.map BitVec.toNat) >>= commitBuf s rd) from
    finish_sources_present hb ht]
  refine ⟨fun ⟨e, he, hout⟩ => (permuteF_firstCause b _).finish_outside id id ⟨_, List.mem_map_of_mem he, hout⟩,
    fun hin hfit => ?_⟩
  obtain ⟨v, hv, hlen, hbits⟩ := permuteBytes_value hin
  have hle : v.length ≤ t.length := by omega
  exact ⟨v, finish_commit hv (hle.trans hfit), hlen, fun i _ => hbits i⟩

/-- Settles O20: the byte of a buffer that is not empty (`sboxByte_cons`); the rule's own fault is the empty one. -/
theorem sboxSubstitutesTheFirstSixBits : Obligations.SboxSubstitutesTheFirstSixBits := by
  unfold Obligations.SboxSubstitutesTheFirstSixBits
  refine ⟨fun cw hopc hsel => decode_error_of_buildInstr (op := .sbox) hopc (Option.map_eq_none_iff.2
    (boxOf_eq_none hsel)), fun s rd ra k => ⟨?_, finish_source_absent, fun hempty => ?_, fun x rest hb => ?_⟩⟩
  · rw [← boxSel_eq_idxOf]; exact wordOf_eq_cwOf _
  · exact (finish_source_present hempty).trans (finish_fault s .outOfRange)
  · rw [show exec (.sbox rd ra k) s = finish s (sboxByte k (x :: rest) >>= commitBuf s rd) from
      finish_source_present hb]
    exact finish_commit (sboxByte_cons k x rest) (Nat.le_trans (m := 512) (by simp) bufCap_ge)

end Sys2Proof.Proofs

/-! PROOFS of the statements of 43_key_schedule.md (O22 to O24), and the lemmas they need: the schedule of a present
key, the bits of `CTX` after its two fields are written, and the order of RDKEY's checks. -/

namespace Sys2Proof.Proofs

open Sys2Proof Sys2Proof.Machine Sys2Proof.Claims

/-! ## The key operand and its schedule -/

section Schedule

variable {s : State} {ra : BufIx} {key : Bytes} {f : List Bytes → Except CmdFault State}

/-- An absent key ends SUBKEYS and WORKER alike (43_key_schedule.md R184, R186). -/
theorem finish_schedule_absent (hb : s.buf ra = none) :
    finish s (scheduleOperand s ra >>= f) = .next (faulted s 1) :=
  (scheduleOperand_firstCause s ra).finish_argument (.inl hb)

/-- A key of another length than 8 bytes does too (43_key_schedule.md R184, R186). -/
theorem finish_schedule_length_ne (hb : s.buf ra = some key) (h8 : key.length ≠ 8) :
    finish s (scheduleOperand s ra >>= f) = .next (faulted s 1) :=
  (scheduleOperand_firstCause s ra).finish_argument (.inr (by rwa [contents_of_some hb]))

theorem scheduleOperand_eq_keySchedule (hb : s.buf ra = some key) (h8 : key.length = 8) :
    scheduleOperand s ra = keySchedule key := by
  rw [scheduleOperand, operand_some hb, bind_ok, requireLength_eq h8, bind_ok]

/-- An 8-byte key has a schedule of sixteen 6-byte keys, and a command that writes it and a `CTX` of `c` ends with
those and `STATUS = 0`. -/
theorem finish_schedule_present {c : Word} (hf : ∀ ks, f ks = .ok { s.setSchedule ks with ctx := c })
    (hb : s.buf ra = some key) (h8 : key.length = 8) :
    ∃ ks, keySchedule key = .ok ks ∧ ks.length = 16 ∧ (∀ k ∈ ks, k.length = 6) ∧
      finish s (scheduleOperand s ra >>= f) =
        .next { s with ks := Vector.ofFn fun r : Fin 16 => ks[r.val]?, ctx := c, status := 0 } := by
  obtain ⟨ks, hks, hlen, h6⟩ := keySchedule_ok h8
  refine ⟨ks, hks, hlen, h6, ?_⟩
  rw [scheduleOperand_eq_keySchedule hb h8, hks, bind_ok, hf]
  rfl

end Schedule

/-! ## The fields of `CTX` -/

theorem setKsv_ctx_getLsbD (s : State) (j : Nat) : s.setKsv.ctx.getLsbD j = (s.ctx.getLsbD j || decide (j = 0)) := by
  rw [setKsv_ctx, BitVec.getLsbD_or, BitVec.getLsbD_one]; simp

/-- `CTX.STRAT` is bit 1; the write leaves every other bit alone (10_state.md R29). -/
theorem setStrat_ctx_getLsbD (s : State) (t : Strategy) (j : Nat) :
    (s.setStrat t).ctx.getLsbD j = if j = 1 then decide (t = .decrypt) else s.ctx.getLsbD j := by
  have h2 : (2#32).getLsbD j = decide (j = 1) := flag_getLsbD .outOfRange j
  cases t with
  | encrypt =>
    have hlt : s.ctx.getLsbD j = true → j < 32 := BitVec.lt_of_getLsbD
    rw [setStrat_ctx, BitVec.getLsbD_and, BitVec.getLsbD_not, h2]
    by_cases hj : j = 1
    · simp [hj]
    · simpa [hj] using hlt
  | decrypt =>
    rw [setStrat_ctx, BitVec.getLsbD_or, h2]
    by_cases hj : j = 1 <;> simp [hj]

/-! ## The selector and the round -/

theorem strategyOf_eq_none {n : Nat} (h : 2 ≤ n) : strategyOf n = none := by
  obtain ⟨m, rfl⟩ := Nat.exists_eq_add_of_le' h
  rfl

theorem strategySel_eq_ite (t : Strategy) : strategySel t = if t = .decrypt then 1 else 0 := by cases t <;> rfl

/-- A round that is no round key's ends RDKEY before anything is read (43_key_schedule.md R188, R189). -/
theorem exec_rdkey_outside {s : State} {rd : BufIx} {r : Int} (h : r < 1 ∨ 16 < r) :
    exec (.rdkey rd r) s = .next (faulted s 1) :=
  (congrArg (finish s) (if_pos h)).trans (finish_fault s .invalidArgument)

/-- A round key's round is read once the schedule is there. -/
theorem exec_rdkey_inside {s : State} {rd : BufIx} {r : Int} (h1 : 1 ≤ r) (h16 : r ≤ 16) :
    exec (.rdkey rd r) s =
      finish s (requireSchedule s >>= fun _ => roundKeyOperand s r.toNat >>= commitBuf s rd) :=
  congrArg (finish s) (if_neg (by omega))

/-! ## The statements -/

/-- Settles O22: the schedule of an 8-byte key always succeeds (`finish_schedule_present`) and is committed whole. -/
theorem subkeysStoresTheSchedule : Obligations.SubkeysStoresTheSchedule := by
  unfold Obligations.SubkeysStoresTheSchedule
  exact fun s ra => ⟨wordOf_eq_cwOf _, finish_schedule_absent, fun key hb =>
    ⟨finish_schedule_length_ne hb, finish_schedule_present (fun _ => rfl) hb⟩⟩

/-- Settles O23: as SUBKEYS, and the two writes to `CTX` bit by bit. -/
theorem workerBindsKeyAndStrategy : Obligations.WorkerBindsKeyAndStrategy := by
  unfold Obligations.WorkerBindsKeyAndStrategy
  refine ⟨fun cw hopc hsel => decode_error_of_buildInstr (op := .worker) hopc (Option.map_eq_none_iff.2
    (strategyOf_eq_none hsel)), fun s ra t => ⟨?_, finish_schedule_absent, fun key hb =>
      ⟨finish_schedule_length_ne hb, fun h8 => ?_⟩⟩⟩
  · rw [wordOf_eq_cwOf]
    exact congrArg (fun sel => cwOf 0x21 0 ra 0 sel 0 0 0) (strategySel_eq_ite t)
  have hf : ∀ ks, Except.ok (ε := CmdFault) ((s.setSchedule ks).setKsv.setStrat t) =
      .ok { s.setSchedule ks with ctx := (s.setKsv.setStrat t).ctx } := fun ks => by cases t <;> rfl
  obtain ⟨ks, hks, hlen, h6, hexec⟩ := finish_schedule_present hf hb h8
  have hctx (j : Nat) : (s.setKsv.setStrat t).ctx.getLsbD j =
      if j = 1 then decide (t = .decrypt) else s.ctx.getLsbD j || decide (j = 0) := by
    rw [setStrat_ctx_getLsbD, setKsv_ctx_getLsbD]
  refine ⟨ks, _, hks, hlen, h6, hexec, ?_, ?_, fun j hj => ?_⟩
  · rw [hctx]; simp
  · rw [hctx, if_pos rfl]
  · rw [hctx, if_neg (by omega), decide_eq_false (by omega), Bool.or_false]

/-- Settles O24: the round is checked, then the schedule, then the key is committed like any buffer result. -/
theorem rdkeyReadsOneRoundKey : Obligations.RdkeyReadsOneRoundKey := by
  unfold Obligations.RdkeyReadsOneRoundKey
  refine fun s rd r => ⟨wordOf_eq_cwOf _, exec_rdkey_outside, fun h1 h16 hksv => ?_, fun h1 h16 hksv k hk h6 => ?_⟩
  · rw [exec_rdkey_inside h1 h16, requireSchedule_false hksv]
    exact finish_fault s .invalidState
  · rw [exec_rdkey_inside h1 h16, requireSchedule_true hksv, bind_ok]
    exact finish_commit (roundKeyOperand_some hk) (Nat.le_trans (m := 512) (by omega) bufCap_ge)

end Sys2Proof.Proofs

/-! PROOFS of the statements of 44_feistel.md (O27 to O29), and the lemmas they need: the bits of the round function,
two halves as functions of bits along the rounds, and the checks of the operands' lengths. -/

namespace Sys2Proof.Proofs

open Sys2Proof Sys2Proof.Machine Sys2Proof.Claims

/-! ## The round function bit by bit -/

theorem source_lt (t : PermTable) {i : Nat} (hi : i < (tableShape t).1) : source t i < tableNeeds t := by
  rw [← table0_entries] at hi
  rw [← table0_getD, List.getD_eq_getElem _ 0 hi]
  exact table0_lt t _ (List.getElem_mem hi)

/-- A bit of an input permuted by a fixed table is the input's bit that the table names. -/
theorem permuteTable_bit (b : Bytes) (t : PermTable) {i : Nat} (hi : i < (tableShape t).1) :
    bit (pack ((table0 t).map (bit b))) i = bit b (source t i) := by
  rw [pack_map_bit, table0_entries, if_pos hi, table0_getD]

/-- Only the six bits of a group go into its S-box. -/
theorem boxOut_congr (k : Box) {g g' : Nat → Bool} (h : ∀ j < 6, g j = g' j) : boxOut k g = boxOut k g' := by
  simp (disch := decide) only [boxOut, h]

theorem fBit_congr {r r' k k' : Nat → Bool} (hr : ∀ j < 32, r j = r' j) (hk : ∀ j < 48, k j = k' j) {i : Nat}
    (hi : i < 32) : fBit r k i = fBit r' k' i := by
  have hp : source .p i < 32 := source_lt .p hi
  unfold fBit
  rw [boxOut_congr _ fun j hj => ?_]
  have h48 : 6 * (source .p i / 4) + j < 48 := by omega
  rw [hr _ (source_lt .e h48), hk _ h48]

/-- Entry `q` of lists of one length `n`, joined, is entry `q mod n` of list `q div n`. -/
theorem getD_flatten_of_length {α : Type} (d : α) {n : Nat} {ls : List (List α)} (h : ∀ l ∈ ls, l.length = n)
    (hn : 0 < n) (q : Nat) : ls.flatten.getD q d = (ls.getD (q / n) []).getD (q % n) d := by
  induction ls generalizing q with
  | nil => simp
  | cons l ls ih =>
    obtain ⟨hl, hls⟩ := List.forall_mem_cons.1 h
    rw [List.flatten_cons]
    by_cases hq : q < n
    · rw [List.getD_append _ _ _ _ (by omega), Nat.div_eq_of_lt hq, Nat.mod_eq_of_lt hq, List.getD_cons_zero]
    · have hle : n ≤ q := not_lt.1 hq
      rw [List.getD_append_right _ _ _ _ (hl.trans_le hle), hl, ih hls, Nat.div_eq_sub_div hn hle,
        Nat.mod_eq_sub_mod hle, List.getD_cons_succ]

theorem nibbleBits_getD (v : Nat) {j : Nat} (hj : j < 4) : (nibbleBits v).getD j false = v.testBit (3 - j) := by
  interval_cases j <;> rfl

/-- A byte of a buffer, by itself, holds the eight bits from its position on. -/
theorem bit_getD_byte (b : Bytes) (m : Nat) {j : Nat} (hj : j < 8) : bit [b.getD m 0] j = bit b (8 * m + j) := by
  have hdiv : (8 * m + j) / 8 = m := by omega
  have hmod : (8 * m + j) % 8 = j % 8 := by omega
  rw [bit, bit, hdiv, hmod, Nat.div_eq_of_lt hj, List.getD_cons_zero]

/-- The four bits that S-box `m + 1` gives for byte `m` of the groups (44_feistel.md R200). -/
theorem substitute_nibble {g : Bytes} (hg : g.length = 8) {m : Nat} (hm : m < 8) :
    (List.zipWith (fun k x => nibbleBits (sboxF k (groupOf x))) allBoxes g).getD m [] =
      nibbleBits (boxOut (allBoxes.getD m .s1) fun j => bit g (8 * m + j)) := by
  have hbox : m < allBoxes.length := hm
  have hbyte : m < g.length := hg ▸ hm
  rw [List.getD_eq_getElem _ _ (by rw [List.length_zipWith]; exact lt_min hbox hbyte), List.getElem_zipWith,
    sboxF_groupOf _ _ [], List.getD_eq_getElem _ _ hbox, ← List.getD_eq_getElem g 0 hbyte]
  exact congrArg nibbleBits (boxOut_congr _ fun j hj => bit_getD_byte g m (by omega))

theorem substitute_getD {g : Bytes} (hg : g.length = 8) {q : Nat} (hq : q < 32) : (substitute g).getD q false =
    (boxOut (allBoxes.getD (q / 4) .s1) fun j => bit g (8 * (q / 4) + j)).testBit (3 - q % 4) := by
  have hlen : ∀ l ∈ List.zipWith (fun k x => nibbleBits (sboxF k (groupOf x))) allBoxes g, l.length = 4 := by
    rw [← List.map_uncurry_zip_eq_zipWith]
    exact List.forall_mem_map.2 fun _ _ => nibbleBits_length _
  rw [substitute, getD_flatten_of_length false hlen (by decide), substitute_nibble hg (by omega),
    nibbleBits_getD _ (by omega)]

/-- Bit `j` of group `m` is an expanded bit of the half xor a key bit (44_feistel.md R200). -/
theorem feistelGroups_bit (r k : Bytes) {m j : Nat} (hm : m < 8) (hj : j < 6) :
    bit (feistelGroups r k) (8 * m + j) = (bit r (source .e (6 * m + j)) ^^ bit k (6 * m + j)) := by
  have h48 : 6 * m + j < 48 := by omega
  rw [feistelGroups, separate_bit _ _ _ _ _ hm (by omega), decide_eq_true hj, Bool.true_and, Nat.mul_comm m 6,
    expandXor, xorF_bit, permuteTable_bit r .e h48]

theorem feistelValue_bit (r k : Bytes) {i : Nat} (hi : i < 32) :
    bit (feistelValue r k) i = fBit (bit r) (bit k) i := by
  have hp : source .p i < 32 := source_lt .p hi
  rw [feistelValue, permuteTable_bit _ .p hi, pack_bit, substitute_getD (by simp [feistelGroups]) hp, fBit]
  exact congrArg (Nat.testBit · _) (boxOut_congr _ fun j hj => feistelGroups_bit r k (by omega) hj)

/-! ## Halves as functions of bits -/

/-- `b` is a 32-bit half with the bits `h`. -/
structure IsHalf (b : Bytes) (h : Nat → Bool) : Prop where
  length : b.length = 4
  bits : ∀ i < 32, bit b i = h i

/-- One round on halves given by their bits (44_feistel.md R202). -/
theorem feistelRound_isHalf {k l r : Bytes} {hl hr : Nat → Bool} (left : IsHalf l hl) (right : IsHalf r hr)
    (h6 : k.length = 6) :
    ∃ x, feistelRound k l r = .ok (r, x) ∧ IsHalf x fun i => hl i ^^ fBit hr (bit k) i := by
  obtain ⟨hround, hlen⟩ := feistelRound_ok left.length right.length h6
  refine ⟨_, hround, hlen, fun i hi => ?_⟩
  rw [xorF_bit, left.bits i hi, feistelValue_bit r k hi, fBit_congr right.bits (fun _ _ => rfl) hi]

/-- The rounds are those on bits, with the same keys in the same order (44_feistel.md R204 step 3). -/
theorem feistelRounds_isHalf {key : Nat → Except CmdFault Bytes} {ks : Nat → Nat → Bool} {ns : List Nat}
    (hkey : ∀ n ∈ ns, ∃ k, key n = .ok k ∧ k.length = 6 ∧ bit k = ks n) {l r : Bytes} {hl hr : Nat → Bool}
    (left : IsHalf l hl) (right : IsHalf r hr) :
    ∃ l' r', feistelRounds key ns l r = .ok (l', r') ∧
      IsHalf l' (desRounds ks ns hl hr).1 ∧ IsHalf r' (desRounds ks ns hl hr).2 := by
  induction ns generalizing l r hl hr with
  | nil => exact ⟨l, r, rfl, left, right⟩
  | cons n ns ih =>
    obtain ⟨⟨k, hk, h6, hbits⟩, hrest⟩ := List.forall_mem_cons.1 hkey
    obtain ⟨x, hround, hx⟩ := feistelRound_isHalf left right h6
    rw [hbits] at hx
    rw [feistelRounds, hk, bind_ok, hround, bind_ok]
    exact ih hrest right hx

/-! ## The block before and after the rounds -/

theorem leftHalf_isHalf (blk : Bytes) : IsHalf (leftHalf blk) fun i => bit blk (source .ip i) := by
  refine ⟨leftHalf_length blk, fun i hi => ?_⟩
  have h64 : i < 64 := by omega
  rw [leftHalf, pack_memRead_bit, decide_eq_true hi, Bool.true_and, Nat.zero_add, permuteTable_bit blk .ip h64]

theorem rightHalf_isHalf (blk : Bytes) : IsHalf (rightHalf blk) fun i => bit blk (source .ip (32 + i)) := by
  refine ⟨rightHalf_length blk, fun i hi => ?_⟩
  have h64 : 32 + i < 64 := by omega
  rw [rightHalf, pack_memRead_bit, decide_eq_true hi, Bool.true_and, permuteTable_bit blk .ip h64]

/-- The join swaps the halves: FP takes a bit below 32 from the right one (44_feistel.md R204 step 4). -/
theorem finalBlock_bit {l r : Bytes} {hl hr : Nat → Bool} (left : IsHalf l hl) (right : IsHalf r hr) {i : Nat}
    (hi : i < 64) :
    bit (finalBlock l r) i = if source .fp i < 32 then hr (source .fp i) else hl (source .fp i - 32) := by
  have hfp : source .fp i < 64 := source_lt .fp hi
  rw [finalBlock, permuteTable_bit _ .fp hi, concat_bit]
  split_ifs with hlow
  · exact right.bits _ hlow
  · rw [decide_eq_true hfp, Bool.true_and, left.bits _ (by omega)]

theorem keyOrder_eq_desOrder (t : Strategy) : keyOrder t = desOrder t := by cases t <;> rfl

/-- TRANSFORM's function on an 8-byte block with all sixteen keys there is DES on bits. -/
theorem transformBlock_value {t : Strategy} {key : Nat → Except CmdFault Bytes} {ks : Nat → Nat → Bool} {blk : Bytes}
    (h8 : blk.length = 8) (hkey : ∀ n, 1 ≤ n → n ≤ 16 → ∃ k, key n = .ok k ∧ k.length = 6 ∧ bit k = ks n) :
    ∃ v, transformBlock t key blk = .ok v ∧ v.length = 8 ∧ ∀ i < 64, bit v i = desBit t ks (bit blk) i := by
  have keys : ∀ n ∈ keyOrder t, ∃ k, key n = .ok k ∧ k.length = 6 ∧ bit k = ks n := fun n hn =>
    hkey n (keyOrder_range t n hn).1 (keyOrder_range t n hn).2
  obtain ⟨l, r, hrounds, left, right⟩ := feistelRounds_isHalf keys (leftHalf_isHalf blk) (rightHalf_isHalf blk)
  refine ⟨_, transformBlock_eq h8 hrounds left.length right.length, finalBlock_length l r, fun i hi => ?_⟩
  rw [finalBlock_bit left right hi, keyOrder_eq_desOrder]
  rfl

/-! ## The lengths of the operands -/

section Lengths

variable {s : State} {a c : Bytes} {m n : Nat}

theorem finish_length_ne {f : Unit → Except CmdFault State} (h : a.length ≠ m) :
    finish s (requireLength a m >>= f) = .next (faulted s 1) := by
  rw [requireLength_ne h]; exact finish_fault s _

theorem finish_length_eq {f : Unit → Except CmdFault State} (h : a.length = m) :
    finish s (requireLength a m >>= f) = finish s (f ()) := by
  rw [requireLength_eq h, bind_ok]

/-- Of two operands, a half or block and a round key, one of the wrong length ends the command (44_feistel.md R200,
R202). -/
theorem finish_lengths_ne {f : Unit → Except CmdFault State} (h : a.length ≠ m ∨ c.length ≠ n) :
    finish s (requireLength a m >>= fun _ => requireLength c n >>= f) = .next (faulted s 1) := by
  by_cases ha : a.length = m
  · rw [finish_length_eq ha]; exact finish_length_ne (h.resolve_left (not_not.2 ha))
  · exact finish_length_ne ha

theorem finish_lengths_eq {f : Unit → Except CmdFault State} (ha : a.length = m) (hc : c.length = n) :
    finish s (requireLength a m >>= fun _ => requireLength c n >>= f) = finish s (f ()) := by
  rw [finish_length_eq ha, finish_length_eq hc]

end Lengths

/-! ## The statements -/

/-- Settles O29: the order of the checks, and the block's value as DES on bits (`transformBlock_value`). -/
theorem transformIsDes : Obligations.TransformIsDes := by
  unfold Obligations.TransformIsDes
  refine fun s rd ra => ⟨wordOf_eq_cwOf _, finish_source_absent, fun blk hblk => ?_⟩
  rw [show exec (.transform rd ra) s = finish s (requireLength blk 8 >>= fun _ => requireSchedule s >>= fun _ =>
    transformBlock s.strat (roundKeyOperand s) blk >>= commitBuf s rd) from finish_source_present hblk]
  refine ⟨finish_length_ne, fun h8 hksv => ?_, fun h8 hksv hks => ?_⟩ <;> rw [finish_length_eq h8]
  · rw [requireSchedule_false hksv]
    exact finish_fault s .invalidState
  · have keys : ∀ n, 1 ≤ n → n ≤ 16 →
        ∃ k, roundKeyOperand s n = .ok k ∧ k.length = 6 ∧ bit k = ksBit s n := fun n h1 h16 => by
      obtain ⟨k, hk, h6⟩ := hks n h1 h16
      exact ⟨k, roundKeyOperand_some hk, h6, by funext j; rw [ksBit, hk, Option.getD_some]⟩
    obtain ⟨v, hv, hlen, hbits⟩ := transformBlock_value (t := s.strat) h8 keys
    rw [requireSchedule_true hksv, bind_ok]
    exact ⟨v, finish_commit hv (Nat.le_trans (m := 512) (by omega) bufCap_ge), hlen, hbits⟩

/-- Settles O27: the round function never faults on operands of the right lengths, and its bits are those of the
expanded half, the key, the S-boxes and P (`feistelValue_bit`). -/
theorem ffuncIsTheRoundFunction : Obligations.FfuncIsTheRoundFunction := by
  unfold Obligations.FfuncIsTheRoundFunction
  refine fun s rd ra rb => ⟨wordOf_eq_cwOf _, finish_sources_absent, fun r k hr hk => ?_⟩
  rw [show exec (.ffunc rd ra rb) s = finish s (requireLength r 4 >>= fun _ => requireLength k 6 >>= fun _ =>
    feistelF r k >>= commitBuf s rd) from finish_sources_present hr hk]
  refine ⟨finish_lengths_ne, fun h4 h6 => ?_⟩
  rw [finish_lengths_eq h4 h6]
  have hlen := feistelValue_length r k
  exact ⟨_, finish_commit (feistelF_ok h4 h6) (Nat.le_trans (m := 512) (by omega) bufCap_ge), hlen,
    fun i hi => feistelValue_bit r k hi⟩

/-- Settles O28: the block's two halves after one round (`feistelRound_isHalf`), joined. -/
theorem roundIsOneFeistelRound : Obligations.RoundIsOneFeistelRound := by
  unfold Obligations.RoundIsOneFeistelRound
  refine fun s rd ra rb => ⟨wordOf_eq_cwOf _, finish_sources_absent, fun blk k hblk hk => ?_⟩
  rw [show exec (.round rd ra rb) s = finish s (requireLength blk 8 >>= fun _ => requireLength k 6 >>= fun _ =>
    feistelRound k (blk.take 4) (blk.drop 4) >>= fun lr => commitBuf s rd (lr.1 ++ lr.2)) from
    finish_sources_present hblk hk]
  refine ⟨finish_lengths_ne, fun h8 h6 => ?_⟩
  have left : IsHalf (blk.take 4) (bit blk) := ⟨by simp [h8], fun i hi => bit_take blk 4 i hi⟩
  have right : IsHalf (blk.drop 4) fun i => bit blk (32 + i) := ⟨by simp [h8], fun i _ => bit_drop blk 4 i⟩
  obtain ⟨x, hround, hx⟩ := feistelRound_isHalf left right h6
  have hlen : (blk.drop 4 ++ x).length = 8 := by rw [List.length_append, right.length, hx.length]
  rw [finish_lengths_eq h8 h6, hround, bind_ok]
  refine ⟨blk.drop 4 ++ x, finish_commit (x := .ok _) rfl (Nat.le_trans (m := 512) (by omega) bufCap_ge), hlen,
    fun i hi => ⟨?_, ?_⟩⟩
  · rw [bit_append_left _ _ _ (by rw [right.length]; omega), right.bits i hi]
  · have hright := bit_append_right (blk.drop 4) x i
    rw [right.length] at hright
    exact hright.trans (hx.bits i hi)

end Sys2Proof.Proofs

/-! PROOFS of the statement of 60_exceptions.md (O36), and the lemmas it needs: a fault taken is the state the
statements name, and a state with a nonzero code is one. -/

namespace Sys2Proof.Proofs

open Sys2Proof Sys2Proof.Machine Sys2Proof.Claims

/-- The model's fault is the one of 60_exceptions.md R232. -/
theorem raise_eq_faulted (s : State) (e : CmdFault) : s.raise e = faulted s e.code :=
  Host.Outcome.next.inj (finish_fault s e)

/-- IllegalCommand alone has code 4 (60_exceptions.md R230). -/
theorem code_le_three {e : CmdFault} (h : e ≠ .illegalCommand) : e.code ≤ 3 := by
  cases e with
  | illegalCommand => exact absurd rfl h
  | _ => decide

/-- A fault taken leaves the faulted state of a code in 1 to `n`, where `n` bounds the fault's code. -/
theorem raise_faulted (s : State) {e : CmdFault} {n : Nat} (hn : e.code ≤ n) :
    ∃ c, 1 ≤ c ∧ c ≤ n ∧ (s.raise e).code = c ∧ s.raise e = faulted s c :=
  ⟨e.code, (code_range e).1, hn, raise_code s e, raise_eq_faulted s e⟩

/-- Settles O36: a commit leaves code 0, so a command or an issued word that ends with another code took a fault. -/
theorem faultsWriteOnlyStatusAndErrflags : Obligations.FaultsWriteOnlyStatusAndErrflags := by
  unfold Obligations.FaultsWriteOnlyStatusAndErrflags
  refine ⟨fun i s t h hcode => ?_, fun s t cw h hstep hcode => ?_⟩
  · rcases exec_cases h with ⟨u, -, rfl⟩ | ⟨e, he, rfl⟩
    · exact absurd rfl hcode
    · exact raise_faulted s (code_le_three he)
  · rw [step_issue h] at hstep
    rcases issue_cases hstep with ⟨i, u, -, -, rfl⟩ | ⟨e, rfl⟩
    · exact absurd rfl hcode
    · exact raise_faulted (taken s .nothing) (code_range e).2

end Sys2Proof.Proofs

/-! PROOFS of the statements of 30_encoding.md (O1 to O3, O5, O6), and the lemmas they need: the fields of a legal word
are those of its command, and a word matches a row of the opcode table where its fields do. -/

namespace Sys2Proof.Proofs

open Sys2Proof Sys2Proof.Machine Sys2Proof.Claims

/-! ## A word is its fields -/

theorem fieldsOf_injective : Function.Injective fieldsOf := Function.LeftInverse.injective word_fieldsOf

theorem opcodeOf_of_opOf {n : Nat} {op : Op} (h : opOf n = some op) : n = opcodeOf op := by
  unfold opOf at h
  split at h <;> cases h <;> rfl

theorem permTableSel_of_permTableOf {n : Nat} {t : PermTable} (h : permTableOf n = some t) : permTableSel t = n := by
  unfold permTableOf at h
  split at h <;> cases h <;> rfl

theorem boxSel_of_boxOf {n : Nat} {k : Box} (h : boxOf n = some k) : boxSel k = n := by
  unfold boxOf at h
  split at h <;> cases h <;> rfl

theorem strategySel_of_strategyOf {n : Nat} {t : Strategy} (h : strategyOf n = some t) : strategySel t = n := by
  unfold strategyOf at h
  split at h <;> cases h <;> rfl

theorem buildInstr_op {op : Op} {f : Fields} {i : Instr} (h : buildInstr op f = some i) : i.op = op := by
  cases op
  case perm | sbox | worker => obtain ⟨t, -, rfl⟩ := Option.map_eq_some_iff.1 h; rfl
  all_goals cases h; rfl

/-- The fields of the command that fields stand for are the fields: nothing of a legal word is lost
(30_encoding.md R72, R75). -/
theorem instrFields_buildInstr {op : Op} {f : Fields} {i : Instr} (hf : f.inRange) (hopc : f.opc = opcodeOf op)
    (hrsv : f.rsv = 0) (hunused : ∀ n ∈ unusedFields op f, n = 0) (h : buildInstr op f = some i) :
    instrFields i = f := by
  obtain ⟨opc, rd, ra, rb, sel, rsv, i1, i2, i3⟩ := f
  obtain ⟨-, hrd, hra, hrb, -, -, h1, h2, h3⟩ := hf
  cases hopc
  cases hrsv
  cases op
  case perm =>
    obtain ⟨t, hsel, rfl⟩ := Option.map_eq_some_iff.1 h
    simp only [unusedFields, List.forall_mem_cons] at hunused
    simp [instrFields, opcodeOf, permTableSel_of_permTableOf hsel, bufIx_val_of_lt, *]
  case sbox =>
    obtain ⟨k, hsel, rfl⟩ := Option.map_eq_some_iff.1 h
    simp only [unusedFields, List.forall_mem_cons] at hunused
    simp [instrFields, opcodeOf, boxSel_of_boxOf hsel, bufIx_val_of_lt, *]
  case worker =>
    obtain ⟨t, hsel, rfl⟩ := Option.map_eq_some_iff.1 h
    simp only [unusedFields, List.forall_mem_cons] at hunused
    simp [instrFields, opcodeOf, strategySel_of_strategyOf hsel, bufIx_val_of_lt, *]
  all_goals
    cases h
    simp only [unusedFields, List.forall_mem_cons] at hunused
    simp [instrFields, opcodeOf, bufIx_val_of_lt, imm12_sext12, *]

/-- Encoding undoes decoding. -/
theorem encode_of_decode {cw : CW} {i : Instr} (h : decode cw = .ok i) : encode i = cw := by
  obtain ⟨op, hop, hrsv, hunused, hi⟩ := decode_eq_ok h
  rw [encode, instrFields_buildInstr (fieldsOf_inRange cw) (opcodeOf_of_opOf hop) hrsv hunused hi, word_fieldsOf]

/-- Settles O1: every operand comes back from its field (`decode_encode`). -/
theorem decodeUndoesEncode : Obligations.DecodeUndoesEncode := fun _ => decode_encode

/-- Settles O2: a legal word has no bit outside its opcode and operand fields (`instrFields_buildInstr`). -/
theorem encodeUndoesDecode : Obligations.EncodeUndoesDecode := fun _ _ h =>
  ⟨encode_of_decode h, decode_wellFormed h⟩

/-! ## The opcode table -/

theorem cwField_and (a b : CW) (lo width : Nat) :
    cwField (a &&& b) lo width = cwField a lo width &&& cwField b lo width := by
  simp only [cwField, BitVec.toNat_and, ← Nat.shiftRight_eq_div_pow, Nat.shiftRight_and_distrib, Nat.and_mod_two_pow]

theorem fieldsOf_and (a b : CW) : fieldsOf (a &&& b) = Fields.mk ((fieldsOf a).opc &&& (fieldsOf b).opc)
    ((fieldsOf a).rd &&& (fieldsOf b).rd) ((fieldsOf a).ra &&& (fieldsOf b).ra) ((fieldsOf a).rb &&& (fieldsOf b).rb)
    ((fieldsOf a).sel &&& (fieldsOf b).sel) ((fieldsOf a).rsv &&& (fieldsOf b).rsv)
    ((fieldsOf a).i1 &&& (fieldsOf b).i1) ((fieldsOf a).i2 &&& (fieldsOf b).i2)
    ((fieldsOf a).i3 &&& (fieldsOf b).i3) := by
  simp only [fieldsOf, cwField_and]

/-- The masks cover whole fields: a word matches a row where its opcode is the row's, `RSV` is 0 and so is every field
the command leaves unused (30_encoding.md R75 cases 1 to 3). -/
theorem row_matches {row : OpcodeRow} (hrow : row ∈ opcodeRows) (cw : CW) : cw &&& row.mask = row.value ↔
    (fieldsOf cw).opc = opcodeOf row.op ∧ (fieldsOf cw).rsv = 0 ∧ ∀ n ∈ unusedFields row.op (fieldsOf cw), n = 0 := by
  have hf := fieldsOf_inRange cw
  rw [← fieldsOf_injective.eq_iff, fieldsOf_and]
  generalize fieldsOf cw = f at hf
  have and4 : ∀ n < 16, n &&& 15 = n := fun n h => (Nat.and_two_pow_sub_one_eq_mod n 4).trans (Nat.mod_eq_of_lt h)
  have and8 : ∀ n < 256, n &&& 255 = n := fun n h => (Nat.and_two_pow_sub_one_eq_mod n 8).trans (Nat.mod_eq_of_lt h)
  have and12 : ∀ n < 4096, n &&& 4095 = n := fun n h =>
    (Nat.and_two_pow_sub_one_eq_mod n 12).trans (Nat.mod_eq_of_lt h)
  obtain ⟨hopc, hrd, hra, hrb, hsel, hrsv, h1, h2, h3⟩ := hf
  simp only [opcodeRows, List.cons_append, List.nil_append, List.mem_cons, List.not_mem_nil, or_false] at hrow
  rcases hrow with rfl | rfl | rfl | rfl | rfl | rfl | rfl | rfl | rfl | rfl | rfl | rfl | rfl | rfl | rfl | rfl |
    rfl | rfl | rfl
  all_goals
    simp [fieldsOf, cwField, unusedFields, opcodeOf, and4, and8, and12, hopc, hrd, hra, hrb, hsel, hrsv, h1, h2, h3,
      and_assoc, and_comm, and_left_comm]

theorem exists_permTableOf_iff {n : Nat} : (∃ t, permTableOf n = some t) ↔ n < 6 := by
  refine ⟨fun ⟨t, ht⟩ => ?_, fun h => by interval_cases n <;> exact ⟨_, rfl⟩⟩
  rw [← permTableSel_of_permTableOf ht]
  cases t <;> decide

theorem exists_boxOf_iff {n : Nat} : (∃ k, boxOf n = some k) ↔ n < 8 := by
  refine ⟨fun ⟨k, hk⟩ => ?_, fun h => by interval_cases n <;> exact ⟨_, rfl⟩⟩
  rw [← boxSel_of_boxOf hk]
  cases k <;> decide

theorem exists_strategyOf_iff {n : Nat} : (∃ t, strategyOf n = some t) ↔ n < 2 := by
  refine ⟨fun ⟨t, ht⟩ => ?_, fun h => by interval_cases n <;> exact ⟨_, rfl⟩⟩
  rw [← strategySel_of_strategyOf ht]
  cases t <;> decide

/-- A row's legal `SEL` values are those for which its fields give a command (30_encoding.md R75 case 4, R79). -/
theorem row_selects {row : OpcodeRow} (hrow : row ∈ opcodeRows) {f : Fields}
    (hunused : ∀ n ∈ unusedFields row.op f, n = 0) : f.sel < row.sels ↔ ∃ i, buildInstr row.op f = some i := by
  simp only [opcodeRows, List.cons_append, List.nil_append, List.mem_cons, List.not_mem_nil, or_false] at hrow
  rcases hrow with rfl | rfl | rfl | rfl | rfl | rfl | rfl | rfl | rfl | rfl | rfl | rfl | rfl | rfl | rfl | rfl |
    rfl | rfl | rfl
  all_goals simp_all [buildInstr, unusedFields, exists_permTableOf_iff, exists_boxOf_iff, exists_strategyOf_iff]

theorem exists_row (op : Op) : ∃ row ∈ opcodeRows, row.op = op := by cases op <;> decide

/-- A word is legal for a command by the table exactly when it decodes to one (30_encoding.md R75). -/
theorem legalFor_iff (cw : CW) (op : Op) : legalFor cw op ↔ ∃ i, decode cw = .ok i ∧ i.op = op := by
  constructor
  · rintro ⟨row, hrow, rfl, hmatch, hsel⟩
    obtain ⟨hopc, hrsv, hunused⟩ := (row_matches hrow cw).1 hmatch
    obtain ⟨i, hi⟩ := (row_selects hrow hunused).1 hsel
    exact ⟨i, decode_of_fields (hopc ▸ opOf_opcodeOf row.op) hrsv hunused hi, buildInstr_op hi⟩
  · rintro ⟨i, hd, rfl⟩
    obtain ⟨op, hop, hrsv, hunused, hi⟩ := decode_eq_ok hd
    obtain ⟨row, hrow, rfl⟩ := exists_row op
    exact ⟨row, hrow, (buildInstr_op hi).symm, (row_matches hrow cw).2 ⟨opcodeOf_of_opOf hop, hrsv, hunused⟩,
      (row_selects hrow hunused).2 ⟨i, hi⟩⟩

/-- Settles O3: the table's masks, matches and `SEL` counts say what the decoder checks (`legalFor_iff`). -/
theorem illegalWordsAreExactlyTheOpcodeTables : Obligations.IllegalWordsAreExactlyTheOpcodeTables := by
  unfold Obligations.IllegalWordsAreExactlyTheOpcodeTables
  refine ⟨legalFor_iff, fun s cw h hillegal => ?_⟩
  rw [step_issue h]
  cases hd : decode cw with
  | ok i => exact absurd ((legalFor_iff cw i.op).2 ⟨i, hd, rfl⟩) (hillegal i.op)
  | error e => exact (issue_error hd _).trans (congrArg _ (raise_eq_faulted _ _))

/-! ## Fixed words, and a step -/

/-- Settles O5: the decoder evaluated on the eight words. -/
theorem decodesWordsOfTheSpec : Obligations.DecodesWordsOfTheSpec := by
  unfold Obligations.DecodesWordsOfTheSpec
  decide

/-- Settles O6: taking up an ISSUE gives the reply, and a legal word runs its command. -/
theorem stepRunsTheDecodedCommand : Obligations.StepRunsTheDecodedCommand := fun _ _ _ h hd =>
  (step_issue h).trans (issue_ok hd _)

end Sys2Proof.Proofs

/-! PROOFS of the statements on what a command reads and writes (O7 of 00_scope.md; O41, O43, O44 of 10_state.md; O45 of
20_memory.md), and the lemmas they need: two states that agree on what a command reads make it end alike. -/

namespace Sys2Proof.Proofs

open Sys2Proof Sys2Proof.Machine Sys2Proof.Claims

/-- Settles O7: `MemWrite` by its laws, and a bit of a byte as a digit of its value. -/
theorem bitZeroIsTheMostSignificantOfByteZero : Obligations.BitZeroIsTheMostSignificantOfByteZero := by
  unfold Obligations.BitZeroIsTheMostSignificantOfByteZero
  refine fun b p hp => ⟨?_, fun v => ⟨memWrite_length b p v, fun q _ => ?_⟩⟩
  · rw [bit, BitVec.getLsbD, Nat.testBit_eq_decide_div_mod_eq, decide_eq_true_eq]
  · split_ifs with hq
    · rw [hq, memWrite_bit_same b p v hp]
    · exact memWrite_bit_other b v hq

/-! ## Two runs of one command -/

/-- `x` and `y`, the rule of a command `i` in the states `s` and `s'`, end alike: with one fault, or with one value
committed in each state. -/
inductive Alike (i : Instr) (s s' : State) : Except CmdFault State → Except CmdFault State → Prop
  | fault (e : CmdFault) : Alike i s s' (.error e) (.error e)
  | result (v : Bool) (hd : dest i = none) (hi : ¬ makesSchedule i) :
      Alike i s s' (.ok (s.setResult v)) (.ok (s'.setResult v))
  | buffer {rd : BufIx} (v : Bytes) (hd : dest i = some rd) :
      Alike i s s' (.ok (s.setBuf rd (some v))) (.ok (s'.setBuf rd (some v)))
  | subkeys (ks : List Bytes) (hi : makesSchedule i) :
      Alike i s s' (.ok (s.setSchedule ks).setKsv) (.ok (s'.setSchedule ks).setKsv)
  | worker (ks : List Bytes) (t : Strategy) (hi : makesSchedule i) :
      Alike i s s' (.ok ((s.setSchedule ks).setKsv.setStrat t)) (.ok ((s'.setSchedule ks).setKsv.setStrat t))

section Alike

variable {α : Type} {i : Instr} {s s' : State}

/-- A first part that is the same in both states. -/
theorem Alike.bind {x : Except CmdFault α} {f g : α → Except CmdFault State} (h : ∀ a, Alike i s s' (f a) (g a)) :
    Alike i s s' (x >>= f) (x >>= g) := by
  cases x with
  | ok a => exact h a
  | error e => exact .fault e

/-- A first part that reads the same in both states. -/
theorem Alike.bind_eq {x y : Except CmdFault α} {f g : α → Except CmdFault State} (hxy : x = y)
    (h : ∀ a, Alike i s s' (f a) (g a)) : Alike i s s' (x >>= f) (y >>= g) := hxy ▸ .bind h

theorem Alike.commit {rd : BufIx} {v : Bytes} (hd : dest i = some rd := by rfl) :
    Alike i s s' (commitBuf s rd v) (commitBuf s' rd v) := by
  unfold commitBuf
  split
  · exact .fault _
  · exact .buffer v hd

theorem operand_buf_congr {r : BufIx} (h : s.buf r = s'.buf r) : operand s r = operand s' r := by
  rw [operand, operand, h]

theorem scheduleOperand_buf_congr {r : BufIx} (h : s.buf r = s'.buf r) :
    scheduleOperand s r = scheduleOperand s' r := by
  rw [scheduleOperand, scheduleOperand, operand_buf_congr h]

/-- A command reads its sources, `CTX` and `KS` alone (10_state.md R22, R24): in two states that agree on these it ends
alike. -/
theorem exec_alike (hsrc : ∀ r ∈ sources i, s.buf r = s'.buf r) (hctx : s.ctx = s'.ctx) (hks : s.ks = s'.ks) :
    ∃ x y, exec i s = finish s x ∧ exec i s' = finish s' y ∧ Alike i s s' x y := by
  have source {r : BufIx} {f g : Bytes → Except CmdFault State} (h : ∀ b, Alike i s s' (f b) (g b))
      (hr : r ∈ sources i := by simp [sources]) : Alike i s s' (operand s r >>= f) (operand s' r >>= g) :=
    .bind_eq (operand_buf_congr (hsrc r hr)) h
  cases i with
  | getbit ra p =>
    exact ⟨_, _, rfl, rfl, source fun b => .bind fun v => .result v rfl (by simp [makesSchedule])⟩
  | xor rd ra rb => exact ⟨_, _, rfl, rfl, source fun a => source fun c => .commit⟩
  | setbit | extend | getbits | rotl | separate | perm | sbox =>
    exact ⟨_, _, rfl, rfl, source fun b => .bind fun v => .commit⟩
  | setbits | concat | permt => exact ⟨_, _, rfl, rfl, source fun a => source fun c => .bind fun v => .commit⟩
  | tostring rd ra => exact ⟨_, _, rfl, rfl, source fun b => by rw [commitText_eq, commitText_eq]; exact .commit⟩
  | subkeys ra =>
    exact ⟨_, _, rfl, rfl, .bind_eq (scheduleOperand_buf_congr (hsrc ra (by simp [sources]))) fun ks =>
      .subkeys ks (.inl ⟨ra, rfl⟩)⟩
  | worker ra t =>
    exact ⟨_, _, rfl, rfl, .bind_eq (scheduleOperand_buf_congr (hsrc ra (by simp [sources]))) fun ks =>
      .worker ks t (.inr ⟨ra, t, rfl⟩)⟩
  | rdkey rd r =>
    refine ⟨_, _, rfl, rfl, ?_⟩
    split
    · exact .fault _
    · exact .bind_eq (requireSchedule_congr hctx) fun _ => .bind_eq (roundKeyOperand_congr hks _) fun k => .commit
  | ffunc | round =>
    exact ⟨_, _, rfl, rfl, source fun a => source fun k => .bind fun _ => .bind fun _ => .bind fun v => .commit⟩
  | transform rd ra =>
    have keys : roundKeyOperand s = roundKeyOperand s' := funext (roundKeyOperand_congr hks)
    exact ⟨_, _, rfl, rfl, source fun b => .bind fun _ => .bind_eq (requireSchedule_congr hctx) fun _ =>
      .bind_eq (by rw [strat_congr hctx, keys]) fun v => .commit⟩

end Alike

/-! ## What a command keeps -/

/-- On success a command writes no buffer register but its destination, and neither the port nor the replies
(10_state.md R22). -/
theorem committed_frame {i : Instr} {s u : State} {r : BufIx} (h : Committed s i u) (hr : dest i ≠ some r) :
    u.buf r = s.buf r ∧ u.port = s.port ∧ u.replies = s.replies := by
  cases h with
  | result ra p v => exact ⟨rfl, rfl, rfl⟩
  | buffer v hd hv => exact ⟨setBuf_buf_other s _ fun e => hr (e ▸ hd), rfl, rfl⟩
  | subkeys ra key ks hb hk hlen h6 => simp
  | worker ra key ks t hb hk hlen h6 => simp

theorem exec_frame {i : Instr} {s t : State} {r : BufIx} (h : exec i s = .next t) (hr : dest i ≠ some r) :
    t.buf r = s.buf r ∧ t.port = s.port ∧ t.replies = s.replies := by
  rcases exec_cases h with ⟨u, hu, rfl⟩ | ⟨e, -, rfl⟩
  · exact (committed_frame hu hr :)
  · exact ⟨rfl, rfl, rfl⟩

/-- The worker context is written by SUBKEYS and WORKER alone (10_state.md R29, R30). -/
theorem committed_context {i : Instr} {s u : State} (h : Committed s i u) (hi : ¬ makesSchedule i) :
    u.ctx = s.ctx ∧ u.ks = s.ks := by
  cases h with
  | result ra p v => exact ⟨rfl, rfl⟩
  | buffer v hd hv => exact ⟨rfl, rfl⟩
  | subkeys ra key ks hb hk hlen h6 => exact absurd (.inl ⟨ra, rfl⟩) hi
  | worker ra key ks t hb hk hlen h6 => exact absurd (.inr ⟨ra, t, rfl⟩) hi

theorem exec_context {i : Instr} {s t : State} (h : exec i s = .next t) (hi : ¬ makesSchedule i) :
    t.ctx = s.ctx ∧ t.ks = s.ks := by
  rcases exec_cases h with ⟨u, hu, rfl⟩ | ⟨e, -, rfl⟩
  · exact (committed_context hu hi :)
  · exact ⟨rfl, rfl⟩

/-- A fault taken twice is the fault taken once: `ERRFLAGS` is sticky (10_state.md R28). -/
theorem raise_raise (s : State) (e : CmdFault) : (s.raise e).raise e = s.raise e := by
  ext1 <;> simp [BitVec.or_assoc]

/-- A buffer result committed twice is committed once. -/
theorem setBuf_setCode_again (s : State) (i : BufIx) (v : Buffer) (c : Nat) :
    (((s.setBuf i v).setCode c).setBuf i v).setCode c = (s.setBuf i v).setCode c := by
  ext1 <;> simp

theorem dest_eq_none_of_makesSchedule {i : Instr} (h : makesSchedule i) : dest i = none := by
  rcases h with ⟨ra, rfl⟩ | ⟨ra, t, rfl⟩ <;> rfl

theorem fault_code_ne_zero (s : State) (e : CmdFault) : (s.raise e).code ≠ 0 := by
  rw [raise_code]; have := code_range e; omega

/-! ## The statements -/

/-- Settles O43: the frame of a commit (`committed_frame`); a fault writes no buffer register at all. -/
theorem commandsWriteOnlyTheirDestination : Obligations.CommandsWriteOnlyTheirDestination :=
  fun _ _ _ _ => exec_frame

/-- Settles O41: two states that differ in the outcome registers alone make a command end alike (`exec_alike`). -/
theorem noCommandReadsTheOutcomeRegisters : Obligations.NoCommandReadsTheOutcomeRegisters := by
  unfold Obligations.NoCommandReadsTheOutcomeRegisters
  intro i s t st rs ef h
  obtain ⟨x, y, hx, hy, halike⟩ := exec_alike (i := i) (s := s)
    (s' := { s with status := st, result := rs, errflags := ef }) (fun _ _ => rfl) rfl rfl
  rw [hx] at h
  cases halike with
  | fault e =>
    cases h
    refine ⟨_, hy, rfl, rfl, rfl, rfl, rfl, rfl, fun _ => ⟨rfl, ?_⟩, fun h0 => absurd h0 (fault_code_ne_zero s e)⟩
    rw [raise_code]; rfl
  | result v hd hi =>
    cases h
    exact ⟨_, hy, rfl, rfl, rfl, rfl, rfl, rfl, fun hne => absurd rfl hne, fun _ =>
      ⟨rfl, fun hor => absurd hor (by simp [hd, hi]), fun _ _ => rfl⟩⟩
  | buffer v hd =>
    cases h
    exact ⟨_, hy, rfl, rfl, rfl, rfl, rfl, rfl, fun hne => absurd rfl hne, fun _ =>
      ⟨rfl, fun _ => rfl, fun hnone => absurd (hd.symm.trans hnone) (by simp)⟩⟩
  | subkeys ks hi =>
    cases h
    exact ⟨_, hy, rfl, rfl, rfl, rfl, rfl, rfl, fun hne => absurd rfl hne, fun _ =>
      ⟨rfl, fun _ => rfl, fun _ hno => absurd hi hno⟩⟩
  | worker ks u hi =>
    cases h
    refine ⟨_, hy, rfl, ?_, ?_, ?_, ?_, ?_, fun hne => absurd rfl hne, fun _ =>
      ⟨?_, fun _ => ?_, fun _ hno => absurd hi hno⟩⟩ <;> simp

/-- Settles O44: two states that agree on the sources, `CTX` and `KS` make a command end alike (`exec_alike`). -/
theorem commandsReadOnlyTheirSources : Obligations.CommandsReadOnlyTheirSources := by
  unfold Obligations.CommandsReadOnlyTheirSources
  intro i s s' t hsrc hctx hks h
  obtain ⟨x, y, hx, hy, halike⟩ := exec_alike (fun r hr => (hsrc r hr).symm) hctx.symm hks.symm
  rw [hx] at h
  cases halike with
  | fault e =>
    cases h
    have hcode := fault_code_ne_zero s e
    exact ⟨_, hy, rfl, hctx, hks, fun h0 => absurd h0 hcode, fun h0 => absurd h0 hcode⟩
  | result v hd hi =>
    cases h
    exact ⟨_, hy, rfl, hctx, hks, fun _ r hr => absurd (hd.symm.trans hr) (by simp), fun _ _ _ => rfl⟩
  | buffer v hd =>
    cases h
    refine ⟨_, hy, rfl, hctx, hks, fun _ r hr => ?_, fun _ hnone => absurd (hd.symm.trans hnone) (by simp)⟩
    cases hd.symm.trans hr
    simp
  | subkeys ks hi =>
    cases h
    refine ⟨_, hy, rfl, by simp [hctx], rfl, fun _ r hr => ?_, fun _ _ hno => absurd hi hno⟩
    exact absurd ((dest_eq_none_of_makesSchedule hi).symm.trans hr) (by simp)
  | worker ks u hi =>
    cases h
    refine ⟨_, hy, rfl, by simp [hctx], by simp, fun _ r hr => ?_, fun _ _ hno => absurd hi hno⟩
    exact absurd ((dest_eq_none_of_makesSchedule hi).symm.trans hr) (by simp)

/-- Settles O45: the state a command leaves agrees with the one it met on all that the command reads, so the second run
ends like the first (`exec_alike`) and writes what is there already. -/
theorem commandsAreIdempotent : Obligations.CommandsAreIdempotent := by
  unfold Obligations.CommandsAreIdempotent
  intro i s t hdest hi h
  obtain ⟨hctx, hks⟩ := exec_context h hi
  have hsrc : ∀ r ∈ sources i, s.buf r = t.buf r := fun r hr =>
    (exec_frame h fun hd => hdest r hd hr).1.symm
  obtain ⟨x, y, hx, hy, halike⟩ := exec_alike hsrc hctx.symm hks.symm
  rw [hx] at h
  rw [hy]
  cases halike with
  | fault e => cases h; rw [finish_error, raise_raise]
  | result v hd hi => cases h; rfl
  | buffer v hd =>
    cases h
    rw [finish_ok, setBuf_setCode_again]
  | subkeys ks hmk => exact absurd hmk hi
  | worker ks u hmk => exact absurd hmk hi

end Sys2Proof.Proofs

/-! PROOFS of the statements on steps and the invariant (O40, O50, O51 of 10_state.md; O42, O47 to O49, O52 of
60_exceptions.md), and the lemmas they need: what each interaction of the host does, said once, and what keeps the
invariant. -/

namespace Sys2Proof.Proofs

open Sys2Proof Sys2Proof.Machine Sys2Proof.Claims

/-! ## The host's interactions -/

theorem hostIx_val (i : BufIx) : hostIx i = some i := dif_pos i.isLt

theorem hostIx_eq_none {i : Nat} (h : 16 ≤ i) : hostIx i = none := dif_neg (not_lt.2 h)

theorem hostWriteBuf_ok {i : BufIx} {v : Bytes} (s : State) (hv : fits v.length) :
    hostWriteBuf i v s = (s.setBuf i (some v)).reply .nothing := by
  rw [hostWriteBuf, hostIx_val]
  simp only [tooLong_false _ hv, Bool.false_eq_true, if_false]

theorem hostWriteBuf_refused {i : Nat} {v : Bytes} (s : State) (h : 16 ≤ i ∨ ¬ fits v.length) :
    hostWriteBuf i v s = s.reply .refused := by
  rw [hostWriteBuf]
  split
  next r hr =>
    have hv : ¬ fits v.length := h.resolve_left fun hi => by simp [hostIx_eq_none hi] at hr
    rw [if_pos ((tooLong_iff _).2 (not_le.1 hv))]
  · rfl

theorem hostClearBuf_ok (i : BufIx) (s : State) : hostClearBuf i s = (s.setBuf i none).reply .nothing := by
  rw [hostClearBuf, hostIx_val]

theorem hostReadBuf_ok (i : BufIx) (s : State) : hostReadBuf i s = s.reply (.buffer (s.buf i)) := by
  rw [hostReadBuf, hostIx_val]

/-- Everything an interaction that is no ISSUE can do: give a reply, write one buffer register within `BUF_CAP`, or
reset (60_exceptions.md R250). -/
theorem interact_cases {q : Interaction} {s t : State} (hissue : ∀ cw, q ≠ .issue cw) (h : interact q s = .next t) :
    (∃ r, t = s.reply r) ∨
    (∃ i v r, (∀ b, v = some b → b.length ≤ Config.bufCap) ∧ t = (s.setBuf i v).reply r) ∨
    (q = .reset ∧ t = hostReset s) := by
  cases q with
  | issue cw => exact absurd rfl (hissue cw)
  | writeBuf i v =>
    cases h
    rw [hostWriteBuf]
    split
    next r hr =>
      split_ifs with hlong
      · exact .inl ⟨_, rfl⟩
      · rw [tooLong_iff, not_lt] at hlong
        exact .inr (.inl ⟨r, some v, _, fun b hb => by cases hb; exact hlong, rfl⟩)
    · exact .inl ⟨_, rfl⟩
  | clearBuf i =>
    cases h
    rw [hostClearBuf]
    split
    next r hr => exact .inr (.inl ⟨r, none, _, by simp, rfl⟩)
    · exact .inl ⟨_, rfl⟩
  | readBuf i => cases h; rw [hostReadBuf]; split <;> exact .inl ⟨_, rfl⟩
  | readReg n => cases h; exact .inl ⟨_, rfl⟩
  | reset => cases h; exact .inr (.inr ⟨rfl, rfl⟩)

/-- An issued word keeps the port and gives no further reply. -/
theorem issue_frame {cw : CW} {s t : State} (h : issue cw s = .next t) :
    t.port = s.port ∧ t.replies = s.replies := by
  rcases issue_cases h with ⟨i, u, -, hu, rfl⟩ | ⟨e, rfl⟩
  · cases hu <;> simp
  · exact ⟨rfl, rfl⟩

theorem issue_total (cw : CW) (s : State) : ∃ t, issue cw s = .next t := by
  rw [issue]
  split
  · exact finish_total s _
  · exact exec_total _ s

/-- Every interaction returns, and the host gets one reply (60_exceptions.md R251, R252; log entries 3 and 6). -/
theorem interact_returns (q : Interaction) (s : State) :
    ∃ t r, interact q s = .next t ∧ t.port = s.port ∧ t.replies = r :: s.replies := by
  by_cases hissue : ∃ cw, q = .issue cw
  · obtain ⟨cw, rfl⟩ := hissue
    obtain ⟨t, ht⟩ := issue_total cw (s.reply .nothing)
    obtain ⟨hport, hreplies⟩ := issue_frame ht
    exact ⟨t, _, ht, hport, hreplies⟩
  have total : ∃ t, interact q s = .next t := by
    cases q with
    | issue cw => exact absurd ⟨cw, rfl⟩ hissue
    | _ => exact ⟨_, rfl⟩
  obtain ⟨t, ht⟩ := total
  rcases interact_cases (not_exists.1 hissue) ht with ⟨r, rfl⟩ | ⟨i, v, r, -, rfl⟩ | ⟨-, rfl⟩ <;>
    exact ⟨_, _, ht, rfl, rfl⟩

/-! ## Runs -/

/-- A step empties the port and moves the host's index on by one where there is an interaction. -/
theorem step_returns (s : State) : ∃ t, step s = .next t ∧ t.port = none ∧
    (s.upcoming = none → t = s) ∧ (s.upcoming ≠ none → t.replies.length = s.replies.length + 1) := by
  cases hq : s.upcoming with
  | none =>
    have hport : s.port = none := by
      cases hp : s.port with
      | none => rfl
      | some q => exact absurd ((upcoming_port hp).symm.trans hq) (by simp)
    exact ⟨s, step_idle hq, hport, fun _ => rfl, fun h => absurd rfl h⟩
  | some q =>
    obtain ⟨t, r, ht, hport, hreplies⟩ := interact_returns q { s with port := none }
    exact ⟨t, (step_interact hq).trans ht, hport, fun h => absurd h (by simp), fun _ => by rw [hreplies]; rfl⟩

theorem run_succ {s t : State} (h : step s = .next t) (n : Nat) :
    Sys2Proof.core.run (n + 1) s = Sys2Proof.core.run n t := by
  have hcore : Sys2Proof.core.step s = .next t := h
  simp only [Host.Core.run, hcore]

/-- Settles O49: each step returns (`step_returns`), so by induction a run of any length does. -/
theorem everyInteractionReturns : Obligations.EveryInteractionReturns := by
  unfold Obligations.EveryInteractionReturns
  refine ⟨fun s => ?_, fun n => ?_⟩
  · obtain ⟨t, ht, hport, -, hindex⟩ := step_returns s
    exact ⟨t, ht, hport, hindex⟩
  · induction n with
    | zero => exact fun s => ⟨s, rfl⟩
    | succ n ih =>
      intro s
      obtain ⟨t, ht, -⟩ := step_returns s
      obtain ⟨u, hu⟩ := ih t
      exact ⟨u, (run_succ ht n).trans hu⟩

/-- Settles O52: the index goes up by one a step until the program is over, and past its end there is nothing. -/
theorem hostProgramRunsInOrder : Obligations.HostProgramRunsInOrder := by
  unfold Obligations.HostProgramRunsInOrder
  intro n
  induction n with
  | zero => exact fun s hs => ⟨s, rfl, hs, upcoming_program hs⟩
  | succ n ih =>
    intro s hs
    obtain ⟨t, ht, hport, hidle, hindex⟩ := step_returns s
    obtain ⟨u, hu, huport, hupcoming⟩ := ih t hport
    refine ⟨u, (run_succ ht n).trans hu, huport, hupcoming.trans ?_⟩
    by_cases hover : s.upcoming = none
    · have hend : Config.hostProgram.length ≤ s.replies.length := by
        rwa [upcoming_program hs, List.getElem?_eq_none_iff] at hover
      rw [hidle hover, List.getElem?_eq_none (by omega), List.getElem?_eq_none (by omega)]
    · rw [hindex hover, Nat.add_right_comm, Nat.add_assoc]

/-- Settles O48: with nothing upcoming a step is no interaction. -/
theorem idleCoreKeepsItsState : Obligations.IdleCoreKeepsItsState := fun _ => step_idle

/-- Settles O47: each interaction in the state with the port empty. -/
theorem hostInteractionsDoWhatTheyShould : Obligations.HostInteractionsDoWhatTheyShould := by
  unfold Obligations.HostInteractionsDoWhatTheyShould
  intro s
  refine ⟨fun cw h => ⟨fun i hd => ?_, fun e hd => ?_⟩, fun i v h hv => ?_, fun i v h hbad => ?_, fun i h => ?_,
    fun i h => ?_, fun n h => ?_, fun h => ⟨_, _, step_interact h⟩⟩
  · exact (step_issue h).trans (issue_ok hd _)
  · exact (step_issue h).trans ((issue_error hd _).trans (congrArg _ (raise_eq_faulted _ _)))
  · rw [step_interact h, interact, hostWriteBuf_ok _ hv]; rfl
  · rw [step_interact h, interact, hostWriteBuf_refused _ hbad]; exact ⟨_, rfl⟩
  · rw [step_interact h, interact, hostClearBuf_ok]; rfl
  · rw [step_interact h, interact, hostReadBuf_ok]; rfl
  · refine ⟨s.readReg n, step_interact h, ?_, ?_, ?_, ?_, fun hn => ?_⟩
    · rintro rfl; rfl
    · rintro rfl; rfl
    · rintro rfl; rfl
    · rintro rfl; rfl
    · obtain ⟨m, hm⟩ := Nat.exists_eq_add_of_le' hn
      rw [State.readReg, hm]
      exact BitVec.and_zero

/-! ## The worker context -/

theorem setSchedule_scheduled (s : State) {ks : List Bytes} (hlen : ks.length = 16) (h6 : ∀ k ∈ ks, k.length = 6) :
    scheduled (s.setSchedule ks) := by
  intro r h1 h16
  have hr : r - 1 < ks.length := by omega
  exact ⟨ks[r - 1], (setSchedule_roundKey s ks h1 h16).trans (List.getElem?_eq_getElem hr), h6 _ (List.getElem_mem hr)⟩

theorem scheduled_of_ks_eq {s u : State} (hks : u.ks = s.ks) (h : scheduled s) : scheduled u := by
  intro r h1 h16
  rw [roundKey_congr hks]
  exact h r h1 h16

/-- What a schedule-making command commits is a whole schedule with `KSV = 1` (43_key_schedule.md R184, R186). -/
theorem committed_schedule {i : Instr} {s u : State} (h : Committed s i u) (hi : makesSchedule i) :
    u.ksv = true ∧ scheduled u := by
  cases h with
  | result ra p v => simp [makesSchedule] at hi
  | buffer v hd hv => exact absurd ((dest_eq_none_of_makesSchedule hi).symm.trans hd) (by simp)
  | subkeys ra key ks hb hk hlen h6 =>
    exact ⟨by simp, scheduled_of_ks_eq (by simp) (setSchedule_scheduled s hlen h6)⟩
  | worker ra key ks t hb hk hlen h6 =>
    exact ⟨by simp, scheduled_of_ks_eq (by simp) (setSchedule_scheduled s hlen h6)⟩

/-- Only WORKER commits another strategy (10_state.md R29). -/
theorem committed_strategy {i : Instr} {s u : State} (h : Committed s i u) :
    u.ctx.getLsbD 1 = s.ctx.getLsbD 1 ∨ ∃ ra t, i = .worker ra t := by
  cases h with
  | result ra p v => exact .inl rfl
  | buffer v hd hv => exact .inl rfl
  | subkeys ra key ks hb hk hlen h6 => exact .inl (by rw [setKsv_ctx_getLsbD]; simp)
  | worker ra key ks t hb hk hlen h6 => exact .inr ⟨ra, t, rfl⟩

/-- Settles O40: of everything a step can do only the commit of SUBKEYS or WORKER, and reset, reach `CTX` and `KS`. -/
theorem workerContextIsWrittenOnlyBySubkeysAndWorker :
    Obligations.WorkerContextIsWrittenOnlyBySubkeysAndWorker := by
  unfold Obligations.WorkerContextIsWrittenOnlyBySubkeysAndWorker
  refine ⟨rfl, reset_roundKey, fun s => Nat.lt_succ_of_le (readReg_le s 3), fun s t q h hstep hreset => ?_⟩
  have unchanged (hctx : t.ctx = s.ctx) (hks : t.ks = s.ks) {P Q : Prop} :
      (s.ctx.getLsbD 0 = true → t.ctx.getLsbD 0 = true) ∧ (t.ctx ≠ s.ctx ∨ t.ks ≠ s.ks → P) ∧
      (t.ctx.getLsbD 1 ≠ s.ctx.getLsbD 1 → Q) :=
    ⟨fun h0 => hctx ▸ h0, fun hne => absurd hne (by simp [hctx, hks]), fun hne => absurd (hctx ▸ rfl) hne⟩
  rcases step_cases hstep with ⟨bufs, port, replies, rfl⟩ | ⟨hq, -⟩ | ⟨cw, hq, hissue⟩
  · exact unchanged rfl rfl
  · exact absurd (Option.some.inj (h.symm.trans hq)) hreset
  have hqcw : q = .issue cw := Option.some.inj (h.symm.trans hq)
  rcases issue_cases hissue with ⟨i, u, hd, hu, rfl⟩ | ⟨e, rfl⟩
  · by_cases hi : makesSchedule i
    · obtain ⟨hksv, hsched⟩ := committed_schedule hu hi
      refine ⟨fun _ => hksv, fun _ => ⟨cw, i, hqcw, hd, hi, rfl, hksv, hsched⟩, fun hne => ?_⟩
      obtain ⟨ra, v, rfl⟩ := (committed_strategy hu).resolve_left hne
      exact ⟨cw, ra, v, hqcw, hd, rfl⟩
    · obtain ⟨hctx, hks⟩ := committed_context hu hi
      exact unchanged hctx hks
  · exact unchanged rfl rfl

/-! ## The invariant -/

/-- The host's side of the interface plays no part in the invariant. -/
theorem inv_host {s : State} (h : s.Inv) (port : Option Interaction) (replies : List Reply) :
    ({ s with port := port, replies := replies } : State).Inv :=
  ⟨h.bufs, h.status, h.result, h.errflags, h.ctx, h.schedule, h.noSchedule⟩

theorem setBuf_inv {s : State} (h : s.Inv) (i : BufIx) {v : Buffer} (hv : ∀ b, v = some b → b.length ≤ Config.bufCap) :
    (s.setBuf i v).Inv := by
  refine ⟨fun j b hb => ?_, h.status, h.result, h.errflags, h.ctx, h.schedule, h.noSchedule⟩
  rw [setBuf_buf] at hb
  split_ifs at hb
  · exact hv b hb
  · exact h.bufs j b hb

theorem setResult_inv {s : State} (h : s.Inv) (v : Bool) : (s.setResult v).Inv :=
  ⟨h.bufs, h.status, by cases v <;> simp, h.errflags, h.ctx, h.schedule, h.noSchedule⟩

theorem setCode_zero_inv {s : State} (h : s.Inv) : (s.setCode 0).Inv :=
  ⟨h.bufs, by simp, h.result, h.errflags, h.ctx, h.schedule, h.noSchedule⟩

theorem toNat_or_lt {a b : Word} {n : Nat} (ha : a.toNat < 2 ^ n) (hb : b.toNat < 2 ^ n) :
    (a ||| b).toNat < 2 ^ n := by
  rw [BitVec.toNat_or]
  exact Nat.or_lt_two_pow ha hb

/-- A fault's code and its bit of `ERRFLAGS` are legal values (10_state.md R26, R28). -/
theorem raise_inv {s : State} (h : s.Inv) (e : CmdFault) : (s.raise e).Inv := by
  refine ⟨h.bufs, ?_, h.result, ?_, h.ctx, h.schedule, h.noSchedule⟩
  · rw [raise_status_toNat]; exact (code_range e).2
  · exact Nat.le_of_lt_succ (toNat_or_lt (n := 4) (Nat.lt_succ_of_le h.errflags) (by cases e <;> decide))

/-- The bits of `CTX` that a command writes are its two fields (10_state.md R29). -/
theorem committed_ctx_le {i : Instr} {s u : State} (h : Committed s i u) (hs : s.ctx.toNat ≤ 3) :
    u.ctx.toNat ≤ 3 := by
  have hksv : (s.ctx ||| 1#32).toNat < 2 ^ 2 := toNat_or_lt (Nat.lt_succ_of_le hs) (by decide)
  cases h with
  | result ra p v => exact hs
  | buffer v hd hv => exact hs
  | subkeys ra key ks hb hk hlen h6 =>
    rw [setKsv_ctx, setSchedule_ctx]
    exact Nat.le_of_lt_succ hksv
  | worker ra key ks t hb hk hlen h6 =>
    rw [setStrat_ctx, setKsv_ctx, setSchedule_ctx]
    cases t with
    | encrypt =>
      rw [BitVec.toNat_and]
      exact Nat.and_le_left.trans (Nat.le_of_lt_succ hksv)
    | decrypt => exact Nat.le_of_lt_succ (toNat_or_lt (n := 2) hksv (by decide))

/-- A schedule-making command reaches `CTX` and `KS` alone. -/
theorem committed_schedule_frame {i : Instr} {s u : State} (h : Committed s i u) (hi : makesSchedule i) :
    u.bufs = s.bufs ∧ u.status = s.status ∧ u.result = s.result ∧ u.errflags = s.errflags := by
  cases h with
  | result ra p v => simp [makesSchedule] at hi
  | buffer v hd hv => exact absurd ((dest_eq_none_of_makesSchedule hi).symm.trans hd) (by simp)
  | subkeys ra key ks hb hk hlen h6 => simp
  | worker ra key ks t hb hk hlen h6 => simp

theorem committed_inv {i : Instr} {s u : State} (hs : s.Inv) (h : Committed s i u) : u.Inv := by
  by_cases hi : makesSchedule i
  · obtain ⟨hksv, hsched⟩ := committed_schedule h hi
    obtain ⟨hbufs, hstatus, hresult, herr⟩ := committed_schedule_frame h hi
    exact ⟨fun j b hb => hs.bufs j b ((buf_congr hbufs j).symm.trans hb), hstatus ▸ hs.status, hresult ▸ hs.result,
      herr ▸ hs.errflags, committed_ctx_le h hs.ctx, fun _ => hsched,
      fun hno => absurd (hksv.symm.trans hno) (by decide)⟩
  · cases h with
    | result ra p v => exact setResult_inv hs v
    | buffer v hd hv => exact setBuf_inv hs _ fun b hb => by cases hb; exact hv
    | subkeys ra key ks hb hk hlen h6 => exact absurd (.inl ⟨ra, rfl⟩) hi
    | worker ra key ks t hb hk hlen h6 => exact absurd (.inr ⟨ra, t, rfl⟩) hi

theorem exec_inv {i : Instr} {s t : State} (hs : s.Inv) (h : exec i s = .next t) : t.Inv := by
  rcases exec_cases h with ⟨u, hu, rfl⟩ | ⟨e, -, rfl⟩
  · exact setCode_zero_inv (committed_inv hs hu)
  · exact raise_inv hs e

theorem issue_inv {cw : CW} {s t : State} (hs : s.Inv) (h : issue cw s = .next t) : t.Inv := by
  cases hd : decode cw with
  | ok i => rw [issue_ok hd] at h; exact exec_inv hs h
  | error e => rw [issue_error hd] at h; cases h; exact raise_inv hs _

/-- Settles O50: every register is 0 and every buffer and round key absent. -/
theorem resetMeetsTheInvariant : Obligations.ResetMeetsTheInvariant where
  bufs := by simp
  status := by decide
  result := by decide
  errflags := by decide
  ctx := by decide
  schedule := fun h => absurd h (by decide)
  noSchedule := fun _ r _ _ => reset_roundKey r

/-- Settles O51: each thing an interaction can do keeps the invariant. -/
theorem everyStepKeepsTheInvariant : Obligations.EveryStepKeepsTheInvariant := by
  unfold Obligations.EveryStepKeepsTheInvariant
  intro s t hs h
  cases hq : s.upcoming with
  | none => rw [step_idle hq] at h; cases h; exact hs
  | some q =>
    rw [step_interact hq] at h
    by_cases hissue : ∃ cw, q = .issue cw
    · obtain ⟨cw, rfl⟩ := hissue
      exact issue_inv (taken_inv hs .nothing) h
    · have hport := inv_host hs none s.replies
      rcases interact_cases (not_exists.1 hissue) h with ⟨r, rfl⟩ | ⟨i, v, r, hv, rfl⟩ | ⟨-, rfl⟩
      · exact inv_host hport _ _
      · exact inv_host (setBuf_inv hport i hv) _ _
      · exact inv_host resetMeetsTheInvariant _ _

/-! ## The faults of a command -/

/-- A command with a cause of InvalidState has InvalidState in its row (60_exceptions.md R231). -/
theorem three_mem_of_badState {i : Instr} {s : State} (h : badState i s) : 3 ∈ mayEndWith i := by
  obtain ⟨⟨rd, r, rfl⟩ | ⟨rd, ra, rfl⟩, -⟩ := h <;> simp [mayEndWith]

/-- A command with a cause of OutOfRange has OutOfRange in its row (60_exceptions.md R231). -/
theorem two_mem_of_outside {i : Instr} {s : State} (h : outside i s) : 2 ∈ mayEndWith i := by
  cases i
  case xor | subkeys | worker | rdkey | ffunc | round | transform => exact absurd h id
  all_goals simp [mayEndWith]

/-- The code of the first cause met is one of the command's row, and success and InvalidArgument are in every row. -/
theorem endsWith_mem {i : Instr} {s : State} {code : Nat} (h : endsWith i s code) : code ∈ mayEndWith i := by
  obtain ⟨harg, hstate, hout, hnone⟩ := h
  by_cases ha : badArgument i s
  · rw [harg ha]; cases i <;> simp [mayEndWith]
  by_cases hs : badState i s
  · rw [hstate ha hs]; exact three_mem_of_badState hs
  by_cases ho : outside i s
  · rw [hout ha hs ho]; exact two_mem_of_outside ho
  · rw [hnone ha hs ho]; cases i <;> simp [mayEndWith]

/-- Settles O42: a command ends with the code of the first cause it meets (`decided`). -/
theorem commandsRaiseOnlyTheirFaults : Obligations.CommandsRaiseOnlyTheirFaults := by
  unfold Obligations.CommandsRaiseOnlyTheirFaults
  intro i s t hs hw h
  obtain ⟨t', ht', hends⟩ := (decided hs i hw).endsWith
  cases h.symm.trans ht'
  rw [code_eq_status (exec_inv hs h).status]
  exact endsWith_mem hends

end Sys2Proof.Proofs

/-! PROOFS of the properties of the BitOps and the permutations (O31 to O34 of 41_bitops.md; O21, O35 of
42_permutation.md), and the lemmas they need: the state a result leaves, and each property as one of the rules. -/

namespace Sys2Proof.Proofs

open Sys2Proof Sys2Proof.Machine Sys2Proof.Claims

/-! ## The state a result leaves -/

@[simp] theorem wrote_buf_same (s : State) (rd : BufIx) (v : Bytes) : (wrote s rd v).buf rd = some v :=
  setBuf_buf_same s rd (some v)

theorem wrote_buf_other (s : State) {rd r : BufIx} (v : Bytes) (h : r ≠ rd) : (wrote s rd v).buf r = s.buf r :=
  setBuf_buf_other s (some v) h

section Commands

variable {s : State} {rd ra rb : BufIx} {a b c v : Bytes}

theorem exec_setbit_ok {p x : Int} (hb : s.buf rd = some b) (hv : setBitF b p x = .ok v) (hfit : fits b.length) :
    exec (.setbit rd p x) s = .next (wrote s rd v) :=
  (finish_source_present hb).trans (finish_commit hv ((setBitF_length hv).trans_le hfit))

theorem exec_getbit_ok {p : Int} (hb : s.buf ra = some b) (h0 : 0 ≤ p) (h : p < 8 * (b.length : Int)) :
    exec (.getbit ra p) s = .next ((s.setResult (bit b p.toNat)).setCode 0) := by
  rw [show exec (.getbit ra p) s = finish s (getBitF b p >>= fun v => .ok (s.setResult v)) from
    finish_source_present hb, getBitF_ok h0 h]
  rfl

theorem exec_xor_ok (ha : s.buf ra = some a) (hc : s.buf rb = some c) :
    exec (.xor rd ra rb) s = finish s (commitBuf s rd (xorF a c)) := finish_sources_present ha hc

theorem exec_getbits_ok {st n : Int} (hb : s.buf ra = some b) (hv : getBitsF b st n = .ok v) (hfit : fits b.length) :
    exec (.getbits rd ra st n) s = .next (wrote s rd v) :=
  (finish_source_present hb).trans (finish_commit hv ((getBitsF_length hv).trans hfit))

theorem exec_rotl_ok {len sh : Int} (hb : s.buf ra = some b) (hv : rotlF b len sh = .ok v) (hfit : fits b.length) :
    exec (.rotl rd ra len sh) s = .next (wrote s rd v) :=
  (finish_source_present hb).trans (finish_commit hv ((rotlF_length hv).trans hfit))

theorem exec_concat_ok {na nc : Int} (ha : s.buf ra = some a) (hc : s.buf rb = some c)
    (hv : concatF a na c nc = .ok v) (hna : na ≤ 2047) (hnc : nc ≤ 2047) :
    exec (.concat rd ra rb na nc) s = .next (wrote s rd v) :=
  (finish_sources_present ha hc).trans (finish_commit hv ((concatF_length hna hnc hv).trans bufCap_ge))

theorem exec_perm_ok {t : PermTable} (hb : s.buf ra = some b) (hv : permuteF b (table0 t) = .ok v) :
    exec (.perm rd ra t) s = .next (wrote s rd v) :=
  (finish_source_present hb).trans
    (finish_commit hv ((permuteF_length hv).trans_le ((table0_length_le t).trans bufCap_ge)))

end Commands

/-- Settles O31: the bit just written is the bit read (`setBitF_value`). -/
theorem getbitAfterSetbitGivesTheValue : Obligations.GetbitAfterSetbitGivesTheValue := by
  unfold Obligations.GetbitAfterSetbitGivesTheValue
  intro s rd b p v hb hfit h0 hp hv
  obtain ⟨c, hc, hbits⟩ := setBitF_value hv h0 hp
  have hlen := setBitF_length hc
  refine ⟨_, _, exec_setbit_ok hb hc hfit, exec_getbit_ok (wrote_buf_same s rd c) h0 (hlen.symm ▸ hp), rfl, rfl, ?_⟩
  have hbit : bit c p.toNat = decide (v = 1) := by rw [hbits, if_pos (Int.toNat_of_nonneg h0)]
  rw [setCode_result, setResult_result, hbit]
  rcases hv with rfl | rfl <;> rfl

/-! ## XOR (41_bitops.md R107) -/

theorem xorF_comm (a c : Bytes) : xorF a c = xorF c a := by
  refine bytes_ext (by rw [xorF_length, xorF_length, max_comm]) fun p _ => ?_
  rw [xorF_bit, xorF_bit, Bool.xor_comm]

theorem xorF_self (a : Bytes) : xorF a a = zeros a.length := by
  refine bytes_ext (by rw [xorF_length, max_self, zeros_length]) fun p _ => ?_
  rw [xorF_bit, Bool.xor_self, bit_zeros]

theorem xorF_zeros (a : Bytes) {n : Nat} (h : n ≤ a.length) : xorF a (zeros n) = a := by
  refine bytes_ext (by rw [xorF_length, zeros_length, max_eq_left h]) fun p _ => ?_
  rw [xorF_bit, bit_zeros, Bool.xor_false]

/-- Settles O32: the three laws of `XOR_f`; with an absent source both orders fault. -/
theorem xorAlgebra : Obligations.XorAlgebra := by
  unfold Obligations.XorAlgebra
  intro s rd ra rb a z ha hfit
  refine ⟨?_, ?_, fun hz hzero hle => ?_⟩
  · cases hb : s.buf rb with
    | none =>
      exact (finish_sources_absent (.inr hb)).trans (finish_sources_absent (.inl hb)).symm
    | some c => rw [exec_xor_ok ha hb, exec_xor_ok hb ha, xorF_comm]
  · rw [exec_xor_ok ha ha, xorF_self]
    exact finish_commit (x := .ok (zeros a.length)) rfl ((zeros_length _).symm ▸ hfit)
  · have hzeros : z = zeros z.length := List.eq_replicate_iff.2 ⟨rfl, hzero⟩
    rw [exec_xor_ok ha hz, hzeros, xorF_zeros a hle]
    exact finish_commit (x := .ok a) rfl hfit

/-! ## ROTL (41_bitops.md R113) -/

/-- A ring whose bits, read on from `sh`, are the first `len` bits of `b` rotates to what GETBITS takes from `b`. -/
theorem rotlF_eq_getBitsF {v b : Bytes} {len sh : Int} (hlen : 0 < len) (hsh : 0 ≤ sh) (hv : len ≤ 8 * (v.length : Int))
    (hb : len ≤ 8 * (b.length : Int)) (hbits : ∀ i : Nat, (i : Int) < len → bit v ((i + sh) % len).toNat = bit b i) :
    rotlF v len sh = getBitsF b 0 len := by
  obtain ⟨x, hx, hxlen, hxbits⟩ := rotlF_value hlen hsh hv
  obtain ⟨w, hw, hwlen, hwbits⟩ := getBitsF_value (b := b) (st := 0) hlen le_rfl (by omega)
  have hxw : x = w := bytes_ext (by omega) fun i _ => by
    rw [hxbits, hwbits, Int.toNat_zero, Nat.zero_add]
    exact if_ctx_congr Iff.rfl (hbits i) fun _ => rfl
  rw [hx, hw, hxw]

/-- A rotation by a multiple of the ring's length is none. -/
theorem rotlF_multiple {b : Bytes} {len k : Int} (hlen : 0 < len) (h : len ≤ 8 * (b.length : Int)) (hk : 0 ≤ k) :
    rotlF b len (k * len) = getBitsF b 0 len := by
  refine rotlF_eq_getBitsF hlen (Int.mul_nonneg hk hlen.le) h h fun i hi => ?_
  rw [Int.add_mul_emod_self_right, Int.emod_eq_of_lt (by omega) hi, Int.toNat_natCast]

/-- A rotation on by the rest of the ring brings the first bits back. -/
theorem rotlF_rest {b v : Bytes} {len sh : Int} (hlen : 0 < len) (h : len ≤ 8 * (b.length : Int)) (hsh : 0 ≤ sh)
    (hv : rotlF b len sh = .ok v) : rotlF v len (len - sh % len) = getBitsF b 0 len := by
  obtain ⟨x, hx, hxlen, hxbits⟩ := rotlF_value hlen hsh h
  cases hv.symm.trans hx
  have hmod := Int.emod_lt_of_pos sh hlen
  refine rotlF_eq_getBitsF hlen (by omega) (by omega) h fun i hi => ?_
  have hnonneg := Int.emod_nonneg (i + (len - sh % len)) hlen.ne'
  have hround : ((i + (len - sh % len)) % len + sh) % len = i := by
    have hsum : i + (len - sh % len) + sh = i + len * (sh / len + 1) := by
      have := Int.mul_ediv_add_emod sh len
      rw [mul_add]
      omega
    rw [Int.emod_add_emod, hsum, Int.add_mul_emod_self_left, Int.emod_eq_of_lt (by omega) hi]
  rw [hxbits, Int.toNat_of_nonneg hnonneg, if_pos (Int.emod_lt_of_pos _ hlen), hround, Int.toNat_natCast]

/-- Settles O33: both laws as equations between `ROTL_f` and `GETBITS_f`. -/
theorem rotlComesBackRound : Obligations.RotlComesBackRound := by
  unfold Obligations.RotlComesBackRound
  intro s r1 r2 ra b len sh k hb hfit hlen hle hsh hk
  obtain ⟨v, hv, -⟩ := rotlF_value hlen hsh hle
  obtain ⟨w, hw, -⟩ := getBitsF_value (b := b) (st := 0) hlen le_rfl (by omega)
  have back := (rotlF_rest hlen hle hsh hv).trans hw
  refine ⟨⟨_, _, _, exec_rotl_ok hb hv hfit, exec_rotl_ok (wrote_buf_same s r1 v) back ((rotlF_length hv).trans hfit),
    exec_getbits_ok hb hw hfit, rfl, rfl, rfl, by simp⟩, ?_⟩
  rw [exec_rotl_ok hb ((rotlF_multiple hlen hle hk).trans hw) hfit, exec_getbits_ok hb hw hfit]

/-! ## CONCAT (41_bitops.md R117) -/

theorem getBitsF_congr {b b' : Bytes} {st st' n : Int} (hn : 0 < n) (h0 : 0 ≤ st) (h0' : 0 ≤ st')
    (h : st + n ≤ 8 * (b.length : Int)) (h' : st' + n ≤ 8 * (b'.length : Int))
    (hbits : ∀ i : Nat, (i : Int) < n → bit b (st.toNat + i) = bit b' (st'.toNat + i)) :
    getBitsF b st n = getBitsF b' st' n := by
  rw [getBitsF_ok hn h0 h, getBitsF_ok hn h0' h']
  have hread : memRead b st.toNat n.toNat = memRead b' st'.toNat n.toNat :=
    List.map_congr_left fun i hi => hbits i (by rw [List.mem_range] at hi; omega)
  rw [hread]

/-- Settles O34: the bits of a CONCAT are those of its parts (`concatF_value`), so GETBITS takes the same from
either. -/
theorem concatPartsComeBack : Obligations.ConcatPartsComeBack := by
  unfold Obligations.ConcatPartsComeBack
  intro s rd r1 r2 ra rb a c na nc ha hc hfa hfc hna hnc hla hlc hna' hnc'
  obtain ⟨v, hv, hlen, hbits⟩ := concatF_value hna hnc hla hlc
  have hfv : fits v.length := (concatF_length hna' hnc' hv).trans bufCap_ge
  have first : getBitsF v 0 na = getBitsF a 0 na :=
    getBitsF_congr hna le_rfl le_rfl (by omega) (by omega) fun i hi => by simp [hbits, hi]
  have second : getBitsF v na nc = getBitsF c 0 nc := by
    refine getBitsF_congr hnc hna.le le_rfl (by omega) (by omega) fun i hi => ?_
    rw [hbits, if_neg (by omega), if_pos (by omega)]
    congr 1
    omega
  obtain ⟨w, hw, -⟩ := getBitsF_value (b := a) (st := 0) hna le_rfl (by omega)
  obtain ⟨x, hx, -⟩ := getBitsF_value (b := c) (st := 0) hnc le_rfl (by omega)
  have hbuf := wrote_buf_same s rd v
  exact ⟨_, _, _, _, _, exec_concat_ok ha hc hv hna' hnc', rfl, rfl, rfl, rfl, rfl,
    exec_getbits_ok hbuf (first.trans hw) hfv, exec_getbits_ok ha hw hfa, by simp,
    exec_getbits_ok hbuf (second.trans hx) hfv, exec_getbits_ok hc hx hfc, by simp⟩

/-! ## The constant tables and the two permutations of a block -/

/-- Settles O21: evaluated entry by entry. -/
theorem constantTablesAreConsistent : Obligations.ConstantTablesAreConsistent := by
  unfold Obligations.ConstantTablesAreConsistent
  decide

/-- A permutation of an 8-byte block by a table and then by its inverse gives the block back. -/
theorem exec_perm_inverse {s : State} {r1 r2 ra : BufIx} {b : Bytes} {t t' : PermTable} (hb : s.buf ra = some b)
    (h8 : b.length = 8) (ht : tableShape t = (64, 8, 8)) (ht' : tableShape t' = (64, 8, 8))
    (inverse : ∀ i < 64, source t (source t' i) = i) (inside : ∀ i < 64, source t' i < 64) :
    ∃ u w, exec (.perm r1 ra t) s = .next u ∧ exec (.perm r2 r1 t') u = .next w ∧ u.code = 0 ∧ w.code = 0 ∧
      w.buf r2 = some b := by
  obtain ⟨v, hv, hvlen, hvbits⟩ := permuteTable_value (t := t) (b := b) (by rw [ht, h8])
  simp only [ht] at hvlen hvbits
  obtain ⟨x, hx, hxlen, hxbits⟩ := permuteTable_value (t := t') (b := v) (by rw [ht', hvlen])
  simp only [ht'] at hxlen hxbits
  have hback : x = b := bytes_ext (by omega) fun p hp => by
    have hp64 : p < 64 := by omega
    rw [hxbits p hp64, hvbits _ (inside p hp64), inverse p hp64]
  exact ⟨_, _, exec_perm_ok hb hv, exec_perm_ok (wrote_buf_same s r1 v) hx, rfl, rfl, by simp [hback]⟩

/-- Settles O35: FP and IP are inverse tables (`constantTablesAreConsistent`). -/
theorem finalPermutationUndoesInitial : Obligations.FinalPermutationUndoesInitial := by
  unfold Obligations.FinalPermutationUndoesInitial
  obtain ⟨inverse, -⟩ := constantTablesAreConsistent
  intro s r1 r2 ra b hb h8
  exact ⟨exec_perm_inverse hb h8 rfl rfl (fun i hi => (inverse i hi).2) fun i hi => source_lt .fp hi,
    exec_perm_inverse hb h8 rfl rfl (fun i hi => (inverse i hi).1) fun i hi => source_lt .ip hi⟩

end Sys2Proof.Proofs

/-! PROOFS of the properties of the cipher (O25, O26 of 43_key_schedule.md; O30 of 44_feistel.md), and the lemmas they
need: a half of the key along the rotations, a round key bit by bit, and the rounds run backwards. -/

namespace Sys2Proof.Proofs

open Sys2Proof Sys2Proof.Machine Sys2Proof.Claims

/-! ## The key schedule bit by bit -/

/-- `c` is the 28-bit half of the key `key` that starts at entry `base` of PC1, rotated by `n`. -/
structure IsKeyHalf (key : Bytes) (base n : Nat) (c : Bytes) : Prop where
  length : c.length = 4
  bits : ∀ p < 28, bit c p = bit key (source .pc1 (base + (p + n) % 28))

theorem cHalf_isKeyHalf (key : Bytes) : IsKeyHalf key 0 0 (cHalf key) := by
  refine ⟨cHalf_length key, fun p hp => ?_⟩
  have h56 : p < 56 := by omega
  rw [cHalf, pack_memRead_bit, decide_eq_true hp, Bool.true_and, Nat.zero_add, permuteTable_bit key .pc1 h56,
    Nat.add_zero, Nat.mod_eq_of_lt hp, Nat.zero_add]

theorem dHalf_isKeyHalf (key : Bytes) : IsKeyHalf key 28 0 (dHalf key) := by
  refine ⟨dHalf_length key, fun p hp => ?_⟩
  have h56 : 28 + p < 56 := by omega
  rw [dHalf, pack_memRead_bit, decide_eq_true hp, Bool.true_and, permuteTable_bit key .pc1 h56, Nat.add_zero,
    Nat.mod_eq_of_lt hp]

/-- A round's rotation adds its amount (43_key_schedule.md R181). -/
theorem rotHalf_isKeyHalf {key c : Bytes} {base n : Nat} (h : IsKeyHalf key base n c) (r : Nat) :
    IsKeyHalf key base (n + shiftAmount r) (rotHalf c r) := by
  refine ⟨rotHalf_length c r, fun p hp => ?_⟩
  rw [rotHalf, rotl_bit, decide_eq_true hp, Bool.true_and, h.bits _ (Nat.mod_lt _ (by decide)), Nat.mod_add_mod,
    Nat.add_assoc, Nat.add_comm (shiftAmount r)]

/-- The key bit that is bit `j` of the round key after a total rotation of `n` (43_key_schedule.md R180). -/
def rotatedSource (n j : Nat) : Nat :=
  if source .pc2 j < 28 then source .pc1 ((source .pc2 j + n) % 28)
  else source .pc1 (28 + (source .pc2 j - 28 + n) % 28)

theorem keySource_eq_rotatedSource (r j : Nat) : keySource r j = rotatedSource (totalShift r) j := rfl

theorem halvesKey_bit {key c d : Bytes} {n : Nat} (left : IsKeyHalf key 0 n c) (right : IsKeyHalf key 28 n d) {j : Nat}
    (hj : j < 48) : bit (halvesKey c d) j = bit key (rotatedSource n j) := by
  have hpc2 : source .pc2 j < 56 := source_lt .pc2 hj
  rw [halvesKey, permuteTable_bit _ .pc2 hj, concat_bit, rotatedSource]
  split_ifs with hlow
  · rw [left.bits _ hlow, Nat.zero_add]
  · rw [decide_eq_true hpc2, Bool.true_and, right.bits _ (by omega)]

/-- The rounds give a key each, of the bits that the rotations so far name. -/
theorem scheduleRounds_value {key : Bytes} (rs : List Nat) {c d : Bytes} {n : Nat} (left : IsKeyHalf key 0 n c)
    (right : IsKeyHalf key 28 n d) :
    ∃ ks, scheduleRounds rs c d = .ok ks ∧ ks.length = rs.length ∧ ∀ m < rs.length, ∃ k, ks[m]? = some k ∧
      k.length = 6 ∧ ∀ j < 48, bit k j = bit key (rotatedSource (n + ((rs.take (m + 1)).map shiftAmount).sum) j) := by
  induction rs generalizing c d n with
  | nil => exact ⟨[], rfl, rfl, fun m hm => absurd hm (by simp)⟩
  | cons r rs ih =>
    have left' := rotHalf_isKeyHalf left r
    have right' := rotHalf_isKeyHalf right r
    obtain ⟨ks, hks, hlen, hkeys⟩ := ih left' right'
    refine ⟨_ :: ks, by rw [scheduleRounds_cons left.length right.length, hks, bind_ok], by simp [hlen], fun m hm => ?_⟩
    cases m with
    | zero => exact ⟨_, rfl, halvesKey_length _ _, fun j hj => by simpa using halvesKey_bit left' right' hj⟩
    | succ m =>
      obtain ⟨k, hk, h6, hbits⟩ := hkeys m (by simpa using hm)
      refine ⟨k, by simpa using hk, h6, fun j hj => ?_⟩
      rw [hbits j hj, List.take_succ_cons, List.map_cons, List.sum_cons, Nat.add_assoc]

theorem totalShift_eq : ∀ m < 16, ((roundNumbers.take (m + 1)).map shiftAmount).sum = totalShift (m + 1) := by decide

/-- `KS(k)` in closed form: every bit of every round key as a bit of the key (43_key_schedule.md R180). -/
theorem keySchedule_value {key : Bytes} (h8 : key.length = 8) :
    ∃ ks, keySchedule key = .ok ks ∧ ks.length = 16 ∧ ∀ r, 1 ≤ r → r ≤ 16 → ∃ k, ks[r - 1]? = some k ∧
      k.length = 6 ∧ ∀ j < 48, bit k j = bit key (keySource r j) := by
  obtain ⟨ks, hks, hlen, hkeys⟩ := scheduleRounds_value roundNumbers (cHalf_isKeyHalf key) (dHalf_isKeyHalf key)
  refine ⟨ks, (keySchedule_eq h8).trans hks, hlen, fun r h1 h16 => ?_⟩
  obtain ⟨k, hk, h6, hbits⟩ := hkeys (r - 1) (show r - 1 < 16 by omega)
  refine ⟨k, hk, h6, fun j hj => ?_⟩
  rw [hbits j hj, totalShift_eq _ (by omega), Nat.zero_add, Nat.sub_add_cancel h1, keySource_eq_rotatedSource]

@[simp] theorem setCode_ksv (s : State) (c : Nat) : (s.setCode c).ksv = s.ksv := rfl

@[simp] theorem setCode_strat (s : State) (c : Nat) : (s.setCode c).strat = s.strat := rfl

section Commands

variable {s : State} {ra : BufIx} {key : Bytes} {ks : List Bytes}

/-- SUBKEYS with an 8-byte key (43_key_schedule.md R184). -/
theorem exec_subkeys_ok (hb : s.buf ra = some key) (h8 : key.length = 8) (hks : keySchedule key = .ok ks) :
    ∃ u, exec (.subkeys ra) s = .next u ∧ u.code = 0 ∧ u.ksv = true ∧ u.ks = (s.setSchedule ks).ks := by
  refine ⟨(s.setSchedule ks).setKsv.setCode 0, ?_, rfl, by simp, by simp⟩
  rw [exec, execSubkeys, scheduleOperand_eq_keySchedule hb h8, hks, bind_ok, finish_ok]

/-- WORKER with an 8-byte key (43_key_schedule.md R186). -/
theorem exec_worker_ok (t : Strategy) (hb : s.buf ra = some key) (h8 : key.length = 8)
    (hks : keySchedule key = .ok ks) :
    ∃ u, exec (.worker ra t) s = .next u ∧ u.code = 0 ∧ u.ksv = true ∧ u.ks = (s.setSchedule ks).ks ∧
      u.strat = t ∧ u.bufs = s.bufs := by
  refine ⟨((s.setSchedule ks).setKsv.setStrat t).setCode 0, ?_, rfl, by simp, by simp, by simp, by simp⟩
  rw [exec, execWorker, scheduleOperand_eq_keySchedule hb h8, hks, bind_ok, finish_ok]

/-- SUBKEYS and WORKER store the schedule alike. -/
theorem exec_schedule_ok {i : Instr} (hi : i = .subkeys ra ∨ ∃ t, i = .worker ra t) (hb : s.buf ra = some key)
    (h8 : key.length = 8) (hks : keySchedule key = .ok ks) :
    ∃ u, exec i s = .next u ∧ u.code = 0 ∧ u.ksv = true ∧ u.ks = (s.setSchedule ks).ks := by
  rcases hi with rfl | ⟨t, rfl⟩
  · exact exec_subkeys_ok hb h8 hks
  · obtain ⟨u, hu, hcode, hksv, hstored, -⟩ := exec_worker_ok t hb h8 hks
    exact ⟨u, hu, hcode, hksv, hstored⟩

end Commands

/-- Settles O25: the schedule's closed form (`keySchedule_value`), stored in `KS`. -/
theorem roundKeysAreSelectedKeyBits : Obligations.RoundKeysAreSelectedKeyBits := by
  unfold Obligations.RoundKeysAreSelectedKeyBits
  intro s ra key i hb h8 hi
  obtain ⟨ks, hks, -, hkeys⟩ := keySchedule_value h8
  obtain ⟨t, ht, hcode, hksv, hstored⟩ := exec_schedule_ok hi hb h8 hks
  refine ⟨t, ht, hcode, hksv, fun r h1 h16 => ?_⟩
  obtain ⟨k, hk, h6, hbits⟩ := hkeys r h1 h16
  exact ⟨k, (roundKey_congr hstored r).trans ((setSchedule_roundKey s ks h1 h16).trans hk), h6, hbits⟩

/-! ## The parity bits -/

/-- Every bit of a round key is an entry of PC1. -/
theorem keySource_pc1 (r j : Nat) : ∃ p < 56, keySource r j = source .pc1 p := by
  rw [keySource]
  split_ifs with hlow
  · exact ⟨_, (Nat.mod_lt _ (by decide)).trans (by decide), rfl⟩
  · exact ⟨_, Nat.add_lt_add_left (Nat.mod_lt _ (by decide)) 28, rfl⟩

/-- Keys that differ in their parity bits alone have one schedule. -/
theorem keySchedule_congr {key key' : Bytes} (h8 : key.length = 8) (h8' : key'.length = 8)
    (hbits : ∀ p < 64, p % 8 ≠ 7 → bit key p = bit key' p) : keySchedule key = keySchedule key' := by
  obtain ⟨ks, hks, hlen, hkeys⟩ := keySchedule_value h8
  obtain ⟨ks', hks', hlen', hkeys'⟩ := keySchedule_value h8'
  obtain ⟨-, noParity, -⟩ := constantTablesAreConsistent
  have same : ks = ks' := List.ext_getElem? fun m => by
    by_cases hm : m < 16
    · obtain ⟨k, hk, h6, hkbits⟩ := hkeys (m + 1) (by omega) (by omega)
      obtain ⟨k', hk', h6', hkbits'⟩ := hkeys' (m + 1) (by omega) (by omega)
      have hkk : k = k' := bytes_ext (h6.trans h6'.symm) fun j hj => by
        have hj48 : j < 48 := by omega
        obtain ⟨p, hp, hsource⟩ := keySource_pc1 (m + 1) j
        rw [hkbits j hj48, hkbits' j hj48, hsource]
        exact hbits _ (source_lt .pc1 hp) (noParity p hp)
      rw [Nat.add_sub_cancel] at hk hk'
      rw [hk, hk', hkk]
    · rw [List.getElem?_eq_none (by omega), List.getElem?_eq_none (by omega)]
  rw [hks, hks', same]

/-- Settles O26: PC1 names no parity bit, so the keys have one schedule (`keySchedule_congr`). -/
theorem parityBitsDoNotMatter : Obligations.ParityBitsDoNotMatter := by
  unfold Obligations.ParityBitsDoNotMatter
  intro s s' ra ra' key key' i i' hb hb' h8 h8' hbits hi hi'
  obtain ⟨ks, hks, -⟩ := keySchedule_ok h8
  obtain ⟨t, ht, hcode, -, hstored⟩ := exec_schedule_ok hi hb h8 hks
  obtain ⟨t', ht', hcode', -, hstored'⟩ :=
    exec_schedule_ok hi' hb' h8' ((keySchedule_congr h8 h8' hbits).symm.trans hks)
  exact ⟨t, t', ht, ht', hcode, hcode', hstored.trans hstored'.symm⟩

/-! ## The rounds backwards -/

theorem desRounds_append (ks : Nat → Nat → Bool) (ns ms : List Nat) (l r : Nat → Bool) :
    desRounds ks (ns ++ ms) l r = desRounds ks ms (desRounds ks ns l r).1 (desRounds ks ns l r).2 := by
  induction ns generalizing l r with
  | nil => rfl
  | cons n ns ih => exact ih _ _

/-- The rounds with the keys in reverse order, on the swapped halves, undo the rounds (44_feistel.md R206). -/
theorem desRounds_reverse (ks : Nat → Nat → Bool) (ns : List Nat) (l r : Nat → Bool) :
    desRounds ks ns.reverse (desRounds ks ns l r).2 (desRounds ks ns l r).1 = (r, l) := by
  induction ns generalizing l r with
  | nil => rfl
  | cons n ns ih =>
    have first : desRounds ks (n :: ns) l r = desRounds ks ns r fun i => l i ^^ fBit r (ks n) i := rfl
    rw [first, List.reverse_cons, desRounds_append, ih]
    simp [desRounds]

/-- Only the 32 bits of each half go through the rounds. -/
theorem desRounds_congr (ks : Nat → Nat → Bool) (ns : List Nat) {l l' r r' : Nat → Bool} (hl : ∀ i < 32, l i = l' i)
    (hr : ∀ i < 32, r i = r' i) : ∀ i < 32, (desRounds ks ns l r).1 i = (desRounds ks ns l' r').1 i ∧
      (desRounds ks ns l r).2 i = (desRounds ks ns l' r').2 i := by
  induction ns generalizing l l' r r' with
  | nil => exact fun i hi => ⟨hl i hi, hr i hi⟩
  | cons n ns ih => exact ih hr fun i hi => by rw [hl i hi, fBit_congr hr (fun _ _ => rfl) hi]

/-- DES with the keys in decryption order undoes DES, bit by bit (44_feistel.md R206). -/
theorem desBit_decrypt_encrypt {ks : Nat → Nat → Bool} {m c : Nat → Bool}
    (hc : ∀ i < 64, c i = desBit .encrypt ks m i) {i : Nat} (hi : i < 64) : desBit .decrypt ks c i = m i := by
  obtain ⟨inverse, -⟩ := constantTablesAreConsistent
  have left : ∀ j < 32, c (source .ip j) = (desHalves .encrypt ks m).2 j := fun j hj => by
    have hj64 : j < 64 := by omega
    rw [hc _ (source_lt .ip hj64), desBit, (inverse j hj64).1, if_pos hj]
  have right : ∀ j < 32, c (source .ip (32 + j)) = (desHalves .encrypt ks m).1 j := fun j hj => by
    have hj64 : 32 + j < 64 := by omega
    rw [hc _ (source_lt .ip hj64), desBit, (inverse _ hj64).1, if_neg (by omega), Nat.add_sub_cancel_left]
  have back := desRounds_congr ks (desOrder .decrypt) left right
  have order : desOrder .decrypt = (desOrder .encrypt).reverse := rfl
  rw [order, desHalves, desRounds_reverse] at back
  dsimp only at back
  have hfp : source .fp i < 64 := source_lt .fp hi
  rw [desBit, desHalves]
  split_ifs with hlow
  · rw [order, (back _ hlow).2, (inverse i hi).2]
  · rw [order, (back _ (by omega)).1, Nat.add_sub_cancel' (not_lt.1 hlow), (inverse i hi).2]

/-- TRANSFORM of an 8-byte block under a whole schedule is DES on bits (`transformIsDes`). -/
theorem exec_transform_ok {s : State} {rd ra : BufIx} {blk : Bytes} (hb : s.buf ra = some blk) (h8 : blk.length = 8)
    (hksv : s.ksv = true) (hks : scheduled s) :
    ∃ v, exec (.transform rd ra) s = .next (wrote s rd v) ∧ v.length = 8 ∧
      ∀ i < 64, bit v i = desBit s.strat (ksBit s) (bit blk) i :=
  ((transformIsDes s rd ra).2.2 blk hb).2.2 h8 hksv hks

theorem ksBit_congr {s t : State} (h : s.ks = t.ks) : ksBit s = ksBit t := by
  funext r i
  rw [ksBit, ksBit, roundKey_congr h]

/-- WORKER, then TRANSFORM: DES of the block under the strategy and the key's schedule, whatever the state held. -/
theorem exec_worker_transform {s : State} {rk rd ra : BufIx} {key blk : Bytes} {ks : List Bytes} (t : Strategy)
    (hkey : s.buf rk = some key) (h8 : key.length = 8) (hks : keySchedule key = .ok ks) (hb : s.buf ra = some blk)
    (hb8 : blk.length = 8) :
    ∃ u v, exec (.worker rk t) s = .next u ∧ exec (.transform rd ra) u = .next (wrote u rd v) ∧ u.code = 0 ∧
      u.bufs = s.bufs ∧ v.length = 8 ∧
      ∀ i < 64, bit v i = desBit t (ksBit (State.reset.setSchedule ks)) (bit blk) i := by
  obtain ⟨ks', hks', hlen, h6⟩ := keySchedule_ok h8
  cases hks.symm.trans hks'
  obtain ⟨u, hu, hcode, hksv, hstored, hstrat, hbufs⟩ := exec_worker_ok t hkey h8 hks
  obtain ⟨v, hv, hvlen, hbits⟩ := exec_transform_ok (rd := rd) ((buf_congr hbufs ra).trans hb) hb8 hksv
    (scheduled_of_ks_eq hstored (setSchedule_scheduled s hlen h6))
  refine ⟨u, v, hu, hv, hcode, hbufs, hvlen, fun i hi => ?_⟩
  rw [hbits i hi, hstrat, ksBit_congr (hstored.trans (by simp : _ = (State.reset.setSchedule ks).ks))]

/-- Settles O30: both WORKERs store the key's one schedule, and the rounds run backwards (`desBit_decrypt_encrypt`). -/
theorem decryptionInvertsEncryption : Obligations.DecryptionInvertsEncryption := by
  unfold Obligations.DecryptionInvertsEncryption
  intro s rk rb rc rd key m hkey h8 hm hm8 hne
  obtain ⟨ks, hks, -⟩ := keySchedule_ok h8
  obtain ⟨s1, c, hs1, hs2, hcode1, hbufs, hc8, hcbits⟩ :=
    exec_worker_transform (rd := rc) .encrypt hkey h8 hks hm hm8
  have hkey2 : (wrote s1 rc c).buf rk = some key := by
    rw [wrote_buf_other s1 c hne.symm, buf_congr hbufs, hkey]
  obtain ⟨s3, v, hs3, hs4, hcode3, -, hv8, hvbits⟩ :=
    exec_worker_transform (rd := rd) .decrypt hkey2 h8 hks (wrote_buf_same s1 rc c) hc8
  have hback : v = m := bytes_ext (hv8.trans hm8.symm) fun i hi => by
    have hi64 : i < 64 := by omega
    rw [hvbits i hi64, desBit_decrypt_encrypt hcbits hi64]
  exact ⟨s1, _, s3, _, c, hs1, hs2, wrote_buf_same s1 rc c, hc8, hs3, hs4, hback ▸ wrote_buf_same s3 rd v, hcode1, rfl,
    hcode3, rfl⟩

end Sys2Proof.Proofs

/-! PROOFS of the statement of 41_bitops.md on TOSTRING (O17), and the lemmas it needs: the text of the groups character
by character, and the spec's text as the same groups. -/

namespace Sys2Proof.Proofs

open Sys2Proof Sys2Proof.Machine Sys2Proof.Claims

/-! ## The characters of the groups -/

theorem bit_eq_getLsbD (b : Bytes) (i : Nat) {k : Nat} (hk : k < 8) :
    bit b (8 * i + k) = (b.getD i 0).getLsbD (7 - k) := by
  have hdiv : (8 * i + k) / 8 = i := by omega
  have hmod : (8 * i + k) % 8 = k := by omega
  rw [bit, hdiv, hmod]

/-- A character of a byte's text is that of a bit of the buffer the byte stands in (41_bitops.md R118). -/
theorem byteText_getD (f : Config.TostringFmt) (b : Bytes) (i : Nat) {j : Nat} (hj : j < 8) :
    (byteText f (b.getD i 0)).getD j 0 = if bit b (8 * i + if f.msbFirst then j else 7 - j) then f.one else f.zero := by
  have hbit : bit b (8 * i + if f.msbFirst then j else 7 - j)
      = (b.getD i 0).getLsbD (if f.msbFirst then 7 - j else j) := by
    split_ifs
    · exact bit_eq_getLsbD b i hj
    · rw [bit_eq_getLsbD b i (by omega), Nat.sub_sub_self (by omega)]
  rw [hbit, byteText, List.getD_eq_getElem _ _ (by simpa using hj), List.getElem_map, List.getElem_range]

/-- Nine characters a byte: its text, and the separator where another byte follows. -/
theorem groupsText_getD (f : Config.TostringFmt) (b : Bytes) : ∀ i < b.length,
    (∀ j < 8, (groupsText f b).getD (9 * i + j) 0 = (byteText f (b.getD i 0)).getD j 0) ∧
    (i + 1 < b.length → (groupsText f b).getD (9 * i + 8) 0 = f.separator) := by
  induction b using groupsText.induct with
  | case1 => exact fun i hi => absurd hi (by simp)
  | case2 x =>
    intro i hi
    obtain rfl : i = 0 := by simpa using hi
    exact ⟨fun j _ => by simp [groupsText], fun h => absurd h (by simp)⟩
  | case3 x y rest ih =>
    intro i hi
    rw [groupsText]
    cases i with
    | zero =>
      refine ⟨fun j hj => ?_, fun _ => ?_⟩
      · rw [List.getD_append _ _ _ _ (by simpa using hj), Nat.mul_zero, Nat.zero_add, List.getD_cons_zero]
      · rw [List.getD_append_right _ _ _ _ (by simp), byteText_length]; rfl
    | succ i =>
      obtain ⟨htext, hsep⟩ := ih i (by simpa using hi)
      have shift (k : Nat) : (byteText f x ++ f.separator :: groupsText f (y :: rest)).getD (9 * (i + 1) + k) 0
          = (groupsText f (y :: rest)).getD (9 * i + k) 0 := by
        rw [List.getD_append_right _ _ _ _ (by rw [byteText_length]; omega), byteText_length,
          show 9 * (i + 1) + k - 8 = 9 * i + k + 1 by omega, List.getD_cons_succ]
      refine ⟨fun j hj => ?_, fun h => ?_⟩
      · rw [shift, htext j hj, List.getD_cons_succ]
      · rw [shift, hsep (by simpa using h)]

theorem tostringText_isText (f : Config.TostringFmt) (b : Bytes) : isText f b (tostringText f b) := by
  refine ⟨tostringText_length_eq f b, fun h => by rw [h, tostringText_nil], fun hne => ?_, fun i hi => ?_⟩
  · rw [tostringText_ne_nil f (List.length_pos_iff.2 hne)]
    refine ⟨fun h => ?_, fun h => ?_⟩
    · rw [h]; rfl
    · simp [h, endText]
  · have inside (k : Nat) (hk : 9 * i + k < 9 * b.length - 1) :
        (tostringText f b).getD (f.leading.toNat + 9 * i + k) 0 = (groupsText f b).getD (9 * i + k) 0 := by
      rw [tostringText_ne_nil f (by omega), Nat.add_assoc, List.getD_append_right _ _ _ _ (by simp), endText_length,
        Nat.add_sub_cancel_left, List.getD_append _ _ _ _ (by rwa [groupsText_length])]
    obtain ⟨htext, hsep⟩ := groupsText_getD f b i hi
    refine ⟨fun j hj => ?_, fun h => ?_⟩
    · rw [inside j (by omega), htext j hj, byteText_getD f b i hj]
    · rw [inside 8 (by omega), hsep h]

/-! ## The spec's text -/

/-- The groups as one list a byte: a separator stands before each but the first. -/
theorem groupsText_cons (f : Config.TostringFmt) (x : Byte) (rest : Bytes) :
    groupsText f (x :: rest) = byteText f x ++ rest.flatMap fun y => f.separator :: byteText f y := by
  induction rest generalizing x with
  | nil => simp [groupsText]
  | cons y rest ih => rw [groupsText, ih y, List.flatMap_cons]; rfl

/-- The eight characters that R118's pseudocode writes for byte `i`. -/
theorem byteText_specFmt (b : Bytes) (i : Nat) :
    ((List.range 8).map fun j => BitVec.ofNat 8 (0x30 + (bit b (8 * i + j)).toNat))
      = byteText Config.specFmt (b.getD i 0) := by
  refine List.map_congr_left fun j hj => ?_
  rw [bit_eq_getLsbD b i (List.mem_range.1 hj)]
  change _ = if (b.getD i 0).getLsbD (7 - j) then 0x31#8 else 0x30#8
  cases (b.getD i 0).getLsbD (7 - j) <;> rfl

theorem flatMap_range_getD {α : Type} (l : Bytes) (g : Byte → List α) :
    ((List.range l.length).flatMap fun i => g (l.getD i 0)) = l.flatMap g := by
  have hl : (List.range l.length).map (fun i => l.getD i 0) = l :=
    List.ext_getElem (by simp) fun i _ h => by simp [h]
  conv_rhs => rw [← hl, List.flatMap_map]

theorem tostringText_specFmt (b : Bytes) : tostringText Config.specFmt b = specText b := by
  cases b with
  | nil => rfl
  | cons x rest =>
    rw [tostringText_ne_nil _ (by simp), groupsText_cons, specText]
    simp only [byteText_specFmt]
    rw [List.length_cons, List.range_succ_eq_map, List.flatMap_cons, List.flatMap_map]
    simp only [Nat.succ_pos, Nat.lt_irrefl, if_true, if_false, List.nil_append, List.singleton_append,
      List.getD_cons_zero, List.getD_cons_succ]
    rw [flatMap_range_getD rest fun y => 0x20#8 :: byteText Config.specFmt y]
    exact List.append_nil _

/-- Settles O17: the text in any format, the default one as R118 writes it, and its commit as any buffer result's. -/
theorem tostringWritesTheText : Obligations.TostringWritesTheText := by
  unfold Obligations.TostringWritesTheText
  refine ⟨tostringText_specFmt, tostringText_isText, fun s rd ra => ⟨wordOf_eq_cwOf _, finish_source_absent,
    fun b hb => ?_⟩⟩
  have hexec : exec (.tostring rd ra) s = finish s (commitBuf s rd (tostringText Config.tostringFmt b)) := by
    rw [← commitText_eq]; exact finish_source_present hb
  rw [hexec, ← tostringText_length_eq]
  exact ⟨finish_commit_long (x := .ok _) rfl, finish_commit (x := .ok _) rfl⟩

end Sys2Proof.Proofs
